-- ==== Sys2Proof/Word.lean ====
section
/-! DEFINITION. The two bit-vector types of the axis engine (00_scope.md R7): a host register of 64 bits, and a byte. -/

namespace Sys2Proof

/-- A whole host register, a command word, or the bit pattern of a binary64 value (R7, R20). -/
abbrev Word := BitVec 64

/-- A host address, a sensor register address, a byte of port data or a port failure code (R7). -/
abbrev Byte := BitVec 8

end Sys2Proof
end

