-- ==== Sys2Proof/Config.lean ====
section
/-! DEFINITION. What is fixed for one instance of the axis engine (00_scope.md R6, R12) and the free values of the model. -/

namespace Sys2Proof

/-- Which arctangent unit an instance has (R6, R137). `correctlyRounded` is the default, property P5 of R137.
`other n` is any unit with properties P1 to P4 and nothing else known of it (notes/assumptions/7). -/
inductive Atan2Unit where
  | correctlyRounded
  | other (n : Nat)
  deriving DecidableEq, Repr

/-- The parameters of R6 that are not one fixed value for this hardware. `MODE_BYTE` is a constant below. -/
structure Params where
  /-- `SCALE`, a binary64 pattern -/
  scale : Word
  /-- `CAL_MAX`, the number of entries of the sample window -/
  calMax : BitVec 32
  /-- `CAL_RETRY_LIMIT`; 0 means unlimited -/
  calRetryLimit : BitVec 16
  /-- `DEV_ADDR`, the sensor's bus address -/
  devAddr : BitVec 7
  /-- `MINUTE_CARRY` -/
  minuteCarry : Bool
  /-- `ATAN2` -/
  atan2 : Atan2Unit
  deriving DecidableEq, Repr

/-- One answer of the port (20_memory.md R55): a byte, or a failure with its 8-bit code.
For a write, `byte _` is success and the byte means nothing (notes/assumptions/24). -/
inductive PortAnswer where
  | byte (b : Byte)
  | fail (code : Byte)
  deriving DecidableEq, Repr, Inhabited

/-- The four rounded binary64 operations of R12, naming an operation to `Config.freeNan`. -/
inductive FloatOp where
  | add
  | sub
  | mul
  | div
  deriving DecidableEq, Repr

namespace Config

/-- `MODE_BYTE` (R6, 44_control.md R191, R196): continuous mode, 200 Hz, 8 gauss, oversampling 512. -/
def modeByte : Byte := 0x1D

/-- The byte SETUP writes to the reset-period register (R191). -/
def resetPeriodByte : Byte := 0x70

/-- The byte SETUP writes to control-register-2 (R191). -/
def control2Byte : Byte := 0x20

/-- `PI64` of R12. -/
def pi64 : Word := 0x400921FB54442D18

/-- `TWO_PI64` of R12. -/
def twoPi64 : Word := 0x401921FB54442D18

/-- `C180` of R12. -/
def c180 : Word := 0x4066800000000000

/-- `C60` of R12. -/
def c60 : Word := 0x404E000000000000

/-- `C2` of R12. -/
def c2 : Word := 0x4000000000000000

/-- The binary64 nearest π/2, the value property P3 of R137 names for y > 0. -/
def halfPi64 : Word := 0x3FF921FB54442D18

/-- The default `SCALE` of R6, the binary64 nearest 4.35. -/
def defaultScale : Word := 0x4011666666666666

/-- FREE VALUE (notes/assumptions/6). `CAL_MAX` is OPEN (R6): uninterpreted. -/
opaque calMaxRaw : BitVec 32

/-- `CAL_MAX` of the instance: any legal value (R6: at least 1). -/
def calMax : BitVec 32 := if calMaxRaw = 0 then 1 else calMaxRaw

/-- FREE VALUE (notes/assumptions/6). `DEV_ADDR` is OPEN (R6): uninterpreted. -/
opaque devAddr : BitVec 7

/-- The parameters of the instance that `State.reset` describes: R6's value column. -/
def params : Params where
  scale := defaultScale
  calMax := calMax
  calRetryLimit := 0
  devAddr := devAddr
  minuteCarry := true
  atan2 := .correctlyRounded

/-- FREE VALUE (notes/assumptions/7). What arctangent unit `n` answers for `(y, x)`, before the guard of
properties P1 to P4 in Machine/Atan2.lean. -/
opaque atan2Raw : Nat → Word → Word → Word

/-- FREE VALUE (notes/assumptions/8). What the default unit answers where the precision ladder of
Machine/Atan2.lean does not decide between two neighbouring binary64 values. -/
opaque atan2Undecided : Word → Word → Word

/-- FREE VALUE (notes/assumptions/9). The bit pattern of a NaN that an operation of R12 gives for two operands. -/
opaque freeNan : FloatOp → Word → Word → Word

/-- FREE VALUE (notes/assumptions/27). 44_control.md R195 says two things of a host write dropped between CLRERR's acceptance and
its engine step: its pseudocode clears OVERRUN, its corner case keeps that overrun. Which one holds: uninterpreted. -/
opaque clrErrKeepsOwnOverrun : Bool

/-- FREE VALUE (notes/assumptions/4). The port's answer to free draw number `n` (R55). -/
opaque freeAnswer : Nat → PortAnswer

end Config

end Sys2Proof
end

