-- ==== Sys2Proof/Syntax.lean ====
section
/-! DEFINITION. The commands of the axis engine, one constructor for each row of spec/opcode_table.json (30_encoding.md R71). -/

namespace Sys2Proof

/-- A command. Only DECODE has operands in its word (R72); the others take theirs from registers (R73). -/
inductive Instr where
  /-- NOP, 44_control.md R190 -/
  | nop
  /-- DECODE, 40_axis_decoder.md R101 -/
  | decode (lo hi : Byte)
  /-- READ_AXES, 41_sample_reader.md R115 -/
  | readAxes
  /-- SET_DECL, 42_heading.md R131 -/
  | setDecl
  /-- HEADING, 42_heading.md R136 -/
  | heading
  /-- CALIBRATE, 43_calibrator.md R161 -/
  | calibrate
  /-- ABORT, 43_calibrator.md R172 -/
  | abort
  /-- SETUP, 44_control.md R191 -/
  | setup
  /-- CLRERR, 44_control.md R195 -/
  | clrErr
  deriving DecidableEq, Repr

end Sys2Proof
end

