-- ==== Sys2Proof/WellFormed.lean ====
section
/-! DEFINITION. Well-formed terms: every command (the operand types hold the only bounds, 30_encoding.md R72), and the
legal values of the parameters (00_scope.md R6). -/

namespace Sys2Proof

/-- "The 8-bit fields do this by construction" (R72): a command's operands are bytes, so every term is well-formed. -/
def Instr.wellFormed : Instr → Bool
  | .nop => true
  | .decode _ _ => true
  | .readAxes => true
  | .setDecl => true
  | .heading => true
  | .calibrate => true
  | .abort => true
  | .setup => true
  | .clrErr => true

/-- R6: "binary64, finite and > 0": the exponent field is not all ones. -/
def Params.scaleFinite (p : Params) : Bool := p.scale.extractLsb' 52 11 != 0x7FF#11

/-- R6: "binary64, finite and > 0": the sign is clear and the pattern is not +0. -/
def Params.scalePositive (p : Params) : Bool := !p.scale.msb && p.scale != 0

/-- R6: "1 ≤ CAL_MAX". The upper bound 2^32 − 1 and the ranges of the other parameters are their widths. -/
def Params.windowNonempty (p : Params) : Bool := p.calMax != 0

/-- The legal parameters of R6. -/
def Params.legal (p : Params) : Bool := p.scaleFinite && p.scalePositive && p.windowNonempty

end Sys2Proof
end

