-- ==== Sys2Proof/Decode.lean ====
section
/-! DEFINITION. Decoding a command word (30_encoding.md R70 to R77), and the encoder after it. -/

namespace Sys2Proof

/-- OP, bits 7:0 (R70). -/
def opField (w : Word) : Byte := w.extractLsb' 0 8

/-- A, bits 15:8 (R70). -/
def aField (w : Word) : Byte := w.extractLsb' 8 8

/-- B, bits 23:16 (R70). -/
def bField (w : Word) : Byte := w.extractLsb' 16 8

/-- RSV, bits 63:24 (R70). -/
def rsvField (w : Word) : BitVec 40 := w.extractLsb' 24 40

/-- Why a word is illegal, in the order of R74. The hardware does not tell the reasons apart (notes/assumptions/18). -/
inductive Illegal where
  /-- OP from 0x09 to 0xFF -/
  | opcode
  /-- RSV is not 0 -/
  | reserved
  /-- A or B is not 0 with an OP other than DECODE -/
  | operand
  deriving DecidableEq, Repr

/-- A command without operand bytes: A and B must be 0 (R70). -/
def noOperands (w : Word) (i : Instr) : Except Illegal Instr :=
  if aField w = 0 ∧ bField w = 0 then .ok i else .error .operand

/-- R77, a total function: the command a word selects, or why it selects none (R74). -/
def decode (w : Word) : Except Illegal Instr :=
  let op := opField w
  if 0x09 ≤ op then .error .opcode
  else if rsvField w ≠ 0 then .error .reserved
  else if op = 0x01 then .ok (.decode (aField w) (bField w))
  else if op = 0x02 then noOperands w .readAxes
  else if op = 0x03 then noOperands w .setDecl
  else if op = 0x04 then noOperands w .heading
  else if op = 0x05 then noOperands w .calibrate
  else if op = 0x06 then noOperands w .abort
  else if op = 0x07 then noOperands w .setup
  else if op = 0x08 then noOperands w .clrErr
  else noOperands w .nop

/-- Bits 7:0 of each command's word (R71). -/
def opcode : Instr → Byte
  | .nop => 0x00
  | .decode _ _ => 0x01
  | .readAxes => 0x02
  | .setDecl => 0x03
  | .heading => 0x04
  | .calibrate => 0x05
  | .abort => 0x06
  | .setup => 0x07
  | .clrErr => 0x08

/-- Bits 15:8 of each command's word (R71, R72). -/
def operandA : Instr → Byte
  | .decode lo _ => lo
  | .nop | .readAxes | .setDecl | .heading | .calibrate | .abort | .setup | .clrErr => 0

/-- Bits 23:16 of each command's word (R71, R72). -/
def operandB : Instr → Byte
  | .decode _ hi => hi
  | .nop | .readAxes | .setDecl | .heading | .calibrate | .abort | .setup | .clrErr => 0

/-- The word of a command: RSV, B, A and OP joined (R70). -/
def encode (i : Instr) : Word := 0#40 ++ operandB i ++ operandA i ++ opcode i

/-- The `match` and `mask` columns of R71 for the row of a command, as the table writes them. -/
def opcodeRow : Instr → Word × Word
  | .nop => (0x0000000000000000, 0xFFFFFFFFFFFFFFFF)
  | .decode _ _ => (0x0000000000000001, 0xFFFFFFFFFF0000FF)
  | .readAxes => (0x0000000000000002, 0xFFFFFFFFFFFFFFFF)
  | .setDecl => (0x0000000000000003, 0xFFFFFFFFFFFFFFFF)
  | .heading => (0x0000000000000004, 0xFFFFFFFFFFFFFFFF)
  | .calibrate => (0x0000000000000005, 0xFFFFFFFFFFFFFFFF)
  | .abort => (0x0000000000000006, 0xFFFFFFFFFFFFFFFF)
  | .setup => (0x0000000000000007, 0xFFFFFFFFFFFFFFFF)
  | .clrErr => (0x0000000000000008, 0xFFFFFFFFFFFFFFFF)

/-- R71: a word selects a row when `(W & mask) == match`. -/
def selects (w : Word) (i : Instr) : Bool := (w &&& (opcodeRow i).2) == (opcodeRow i).1

/-- The command in a word given as a number of `nbits` bits numbered as spec/opcode_table.json numbers them. A command is
one 64-bit word (R76), so the bits above `nbits` are 0 and a number that does not fit in 64 bits is no command. -/
def decodeTableWord (nbits w : Nat) : Option Instr :=
  let bits := w % 2 ^ nbits
  if bits < 2 ^ 64 then (decode (BitVec.ofNat 64 bits)).toOption else none

end Sys2Proof
end

