-- ==== Sys2Proof/Machine/State.lean ====
section
/-! DEFINITION. The state of the axis engine (10_state.md), with the reasons a step can stop, and the state after reset
(70_reset_and_hazards.md R230). -/

namespace Sys2Proof.Machine

/-- The completion codes of 60_exceptions.md R200. Codes 11 to 15 are never produced (93_implementation_defined.md I16). -/
inductive ErrCode where
  | ok
  | notReady
  | transport
  | degenerate
  | nonfinite
  | hdgRange
  | arg
  | illegal
  | aborted
  | calTimeout
  | overflow
  deriving DecidableEq, Repr

/-- The fields of STATUS (R22). -/
structure Status where
  busy : Bool
  valid : Bool
  overrun : Bool
  setupDone : Bool
  abortReq : Bool
  err : ErrCode
  deriving DecidableEq, Repr

/-- What a command word decoded to at its acceptance (30_encoding.md R78): the op of `RUN(op)`. DECODE keeps its latched
bytes `lo` and `hi` as its operands. -/
inductive Command where
  | legal (i : Instr)
  | illegal
  deriving DecidableEq, Repr

/-- The phases of a calibration (R36). -/
inductive CalPhase where
  | paceNext
  | attempt
  | paceRetry
  | finish
  deriving DecidableEq, Repr

/-- The sequencer state `seq` (R36). -/
inductive Seq where
  | idle
  | run (c : Command)
  | cal (phase : CalPhase) (i r : Nat)
  deriving DecidableEq, Repr

/-- Which port read of a SAMPLE is next, with the bytes read so far (41_sample_reader.md R110, 70_reset_and_hazards.md R245;
notes/assumptions/12). -/
inductive SampleProgress where
  | status
  | xLow
  | xHigh (xl : Byte)
  | yLow (xl xh : Byte)
  | yHigh (xl xh yl : Byte)
  | zLow (xl xh yl yh : Byte)
  | zHigh (xl xh yl yh zl : Byte)
  deriving DecidableEq, Repr

/-- Which write of SETUP is next (44_control.md R191, R245; notes/assumptions/12). -/
inductive SetupProgress where
  | resetPeriod
  | control2
  | control1
  deriving DecidableEq, Repr

/-- The accumulators of a calibration (R37), binary64 patterns. -/
structure Extrema where
  xmin : Word
  xmax : Word
  ymin : Word
  ymax : Word
  zmin : Word
  zmax : Word
  deriving DecidableEq, Repr

/-- One entry of the port transcript (20_memory.md R56). Every transaction is with device `DEV_ADDR`
(notes/assumptions/21). -/
inductive Transaction where
  | readOk (r b : Byte)
  | readFail (r code : Byte)
  | writeOk (r v : Byte)
  | writeFail (r v code : Byte)
  deriving DecidableEq, Repr

/-- One of the two columns of the sample window, WX or WY (R33): the entries by rising index, none of them +0.0, which is
what an unlisted entry holds (notes/assumptions/11). -/
abbrev Memory := List (Nat × Word)

/-- The agents that take steps (70_reset_and_hazards.md R236; the Port takes none), and the reset input. -/
inductive Agent where
  | host
  | engine
  | timebase
  | reset
  deriving DecidableEq, Repr

/-- A line of a host program (30_encoding.md R80, R81): a write or a read of one host address, or POLL. -/
inductive HostLine where
  | wr (addr : Byte) (v : Word)
  | rd (addr : Byte)
  | poll
  deriving DecidableEq, Repr

/-- The state of the machine. -/
structure State where
  -- parameters of the instance (R6); no step changes them (R233)
  params : Params
  -- host registers (R20)
  status : Status
  arg0 : Word
  decResult : Word
  vecX : Word
  vecY : Word
  vecZ : Word
  hdg : Word
  decl : Word
  xOff : Word
  yOff : Word
  zDev : Word
  calN : Word
  winIdx : Word
  portErr : Word
  -- hidden state (R33, R36, R37, R78, R245)
  wx : Memory
  wy : Memory
  seq : Seq
  sample : SampleProgress
  setupNext : SetupProgress
  -- a host write has been dropped since the last acceptance (44_control.md R195; notes/assumptions/27)
  droppedInRun : Bool
  degrees : Word
  sampleCount : BitVec 32
  interval : BitVec 32
  ticks : Nat
  extrema : Extrema
  -- the port transcript (20_memory.md R56), oldest first
  transcript : List Transaction
  -- the environment: who moves next, the host's pending lines and last read value, the port's answers (notes/assumptions/2, 3, 4)
  schedule : List Agent
  host : List HostLine
  readData : Word
  answers : List PortAnswer
  drawIx : Nat
  deriving DecidableEq, Repr

/-- The one reason a step can stop. -/
inductive Fault where
  /-- Raised by CALIBRATE when it is to store a sample at an index the window does not have (R33: `CAL_MAX` entries).
  No run from reset reaches it: R162 rejects a count above `CAL_MAX`. Safe. -/
  | windowIndex
  deriving DecidableEq, Repr

/-- The reasons the model has no meaning for an instruction. -/
inductive Refusal where
  /-- Raised by no instruction: every arm of `exec` has a meaning. Safe. -/
  | notModelled (mnemonic : String)
  deriving DecidableEq, Repr

/-- STATUS after reset: 0, all fields 0 (R20). -/
def Status.reset : Status where
  busy := false
  valid := false
  overrun := false
  setupDone := false
  abortReq := false
  err := .ok

/-- The accumulators have no value after reset (R230); the model names +0.0 (notes/assumptions/10). -/
def Extrema.reset : Extrema := ⟨0, 0, 0, 0, 0, 0⟩

/-- The block with parameters `p` right after reset (R230), an environment beside it. Hidden registers that R230 gives no value
are 0 (notes/assumptions/10). -/
def State.resetWith (p : Params) (schedule : List Agent) (host : List HostLine) (readData : Word)
    (answers : List PortAnswer) (drawIx : Nat) : State where
  params := p
  status := .reset
  arg0 := 0
  decResult := 0
  vecX := 0
  vecY := 0
  vecZ := 0
  hdg := 0
  decl := 0
  xOff := 0
  yOff := 0
  zDev := 0
  calN := 0
  winIdx := 0
  portErr := 0
  wx := []
  wy := []
  seq := .idle
  sample := .status
  setupNext := .resetPeriod
  droppedInRun := false
  degrees := 0
  sampleCount := 0
  interval := 0
  ticks := 0
  extrema := .reset
  transcript := []
  schedule := schedule
  host := host
  readData := readData
  answers := answers
  drawIx := drawIx

/-- The machine right after reset: the instance of R6's value column, and an environment with nothing pending. -/
def State.reset : State := State.resetWith Config.params [] [] 0 [] 0

end Sys2Proof.Machine
end

