-- ==== Sys2Proof/Machine/Flags.lean ====
section
/-! DEFINITION. The words made of flags and fields: STATUS (10_state.md R22), ERR (60_exceptions.md R200), HDG (42_heading.md
R145), PORT_ERR (R34, R203) and INFO (R35). -/

namespace Sys2Proof.Machine

/-- The four-bit code of R200. -/
def ErrCode.code : ErrCode → BitVec 4
  | .ok => 0
  | .notReady => 1
  | .transport => 2
  | .degenerate => 3
  | .nonfinite => 4
  | .hdgRange => 5
  | .arg => 6
  | .illegal => 7
  | .aborted => 8
  | .calTimeout => 9
  | .overflow => 10

/-- STATUS as the host reads it (R22): BUSY in bit 0, VALID 1, OVERRUN 2, SETUP_DONE 3, ABORT_REQ 4, ERR in bits 11:8,
every other bit 0. -/
def Status.word (s : Status) : Word :=
  0#52 ++ s.err.code ++ 0#3 ++ BitVec.ofBool s.abortReq ++ BitVec.ofBool s.setupDone ++ BitVec.ofBool s.overrun ++
    BitVec.ofBool s.valid ++ BitVec.ofBool s.busy

/-- HDG for degrees D and minutes m: `zext_64(m[7:0] : D[15:0])` (R136, R145). -/
def headingWord (degrees minutes : Int) : Word := 0#40 ++ BitVec.ofInt 8 minutes ++ BitVec.ofInt 16 degrees

/-- PORT_ERR for a failure: CODE in bits 7:0, REG in 15:8, WR in bit 16 (R34, R203). -/
def portErrWord (code reg : Byte) (write : Bool) : Word := 0#47 ++ BitVec.ofBool write ++ reg ++ code

/-- INFO (R35): CAL_MAX in 31:0, CAL_RETRY_LIMIT in 47:32, DEV_ADDR in 54:48, MINUTE_CARRY in 55, MODE_BYTE in 63:56. -/
def infoWord (p : Params) : Word :=
  Config.modeByte ++ BitVec.ofBool p.minuteCarry ++ p.devAddr ++ p.calRetryLimit ++ p.calMax

end Sys2Proof.Machine
end

