-- ==== Sys2Proof/Machine/Float.lean ====
section
/-! DEFINITION. The binary64 primitives of 00_scope.md R12, computed exactly and rounded once to nearest even.
Every finite binary64 value is a whole number of units of 2^-1074, the least subnormal; the operations work on that number. -/

namespace Sys2Proof.Machine

/-- A binary64 value. `fin neg units` is ±units · 2^-1074, both zeros included. `nan` keeps its bit pattern. -/
inductive F64 where
  | nan (bits : Word)
  | inf (neg : Bool)
  | fin (neg : Bool) (units : Nat)
  deriving DecidableEq, Repr

namespace F64

/-- The number of units in 1.0: 2^1074. -/
def one : Nat := 2 ^ 1074

/-- A pattern whose exponent field is all ones and whose fraction is not 0. -/
def isNanPattern (w : Word) : Bool := w.extractLsb' 52 11 == 0x7FF#11 && w.extractLsb' 0 52 != 0

/-- The value of a register's bit pattern (20_memory.md R52: bit 63 is the sign). -/
def ofBits (w : Word) : F64 :=
  let exponent := (w.extractLsb' 52 11).toNat
  let fraction := (w.extractLsb' 0 52).toNat
  if exponent = 2047 then
    if fraction = 0 then .inf w.msb else .nan w
  else if exponent = 0 then .fin w.msb fraction
  else .fin w.msb ((2 ^ 52 + fraction) * 2 ^ (exponent - 1))

/-- The number that exponent and fraction fields make together, for a magnitude of `units`: with `e` binary places dropped
and a significand `units / 2^e` below 2^53, it is `e · 2^52 + units / 2^e`. -/
def magnitudeBits (units : Nat) : Nat :=
  let e := units.log2 - 52
  e * 2 ^ 52 + units / 2 ^ e

/-- The bit pattern of the infinities without their sign: exponent all ones, fraction 0. -/
def infBits : Nat := 0x7FF * 2 ^ 52

/-- Sign in bit 63 and 63 bits of magnitude below it. -/
def withSign (neg : Bool) (magnitude : Nat) : Word := BitVec.ofBool neg ++ BitVec.ofNat 63 magnitude

/-- The bit pattern a register holds for a value. A NaN is written with a NaN's pattern, whatever `Config.freeNan` gave. -/
def toBits : F64 → Word
  | .nan w => if isNanPattern w then w else w ||| 0x7FF8000000000000
  | .inf neg => withSign neg infBits
  | .fin neg units => withSign neg (magnitudeBits units)

/-- `n / d` to the nearest whole number, the even one on a tie. -/
def divHalfEven (n d : Nat) : Nat :=
  let q := n / d
  let r := n % d
  if 2 * r < d then q else if d < 2 * r then q + 1 else q + q % 2

/-- ±(n / d) units rounded once to binary64, to nearest and to even on a tie (R12). Past the largest finite value it is an
infinity. -/
def round (neg : Bool) (n d : Nat) : F64 :=
  let e := (n / d).log2 - 52
  let m := divHalfEven n (d * 2 ^ e)
  if infBits ≤ e * 2 ^ 52 + m then .inf neg else .fin neg (m * 2 ^ e)

/-- A NaN result for operands `a` and `b`; R12 gives it no pattern (notes/assumptions/9). -/
def freshNan (op : FloatOp) (a b : F64) : F64 := .nan (Config.freeNan op a.toBits b.toBits)

/-- The value with the other sign. -/
def negate : F64 → F64
  | .nan w => .nan w
  | .inf neg => .inf (!neg)
  | .fin neg units => .fin (!neg) units

/-- The sum of two finite values: exact, then rounded once. An exact zero sum of unlike signs is +0. -/
def addFinite (na : Bool) (ua : Nat) (nb : Bool) (ub : Nat) : F64 :=
  if na = nb then round na (ua + ub) 1
  else if ub < ua then round na (ua - ub) 1
  else if ua < ub then round nb (ub - ua) 1
  else .fin false 0

/-- The sum, a NaN result being labelled by `op` and the operands as written. -/
def addAs (op : FloatOp) (a b b' : F64) : F64 :=
  match a, b' with
  | .nan _, _ => freshNan op a b
  | _, .nan _ => freshNan op a b
  | .inf na, .inf nb => if na = nb then .inf na else freshNan op a b
  | .inf na, .fin _ _ => .inf na
  | .fin _ _, .inf nb => .inf nb
  | .fin na ua, .fin nb ub => addFinite na ua nb ub

/-- `fadd(a, b)` of R12. -/
def fadd (a b : F64) : F64 := addAs .add a b b

/-- `fsub(a, b)` of R12. -/
def fsub (a b : F64) : F64 := addAs .sub a b b.negate

/-- `fmul(a, b)` of R12. -/
def fmul (a b : F64) : F64 :=
  match a, b with
  | .nan _, _ => freshNan .mul a b
  | _, .nan _ => freshNan .mul a b
  | .inf na, .inf nb => .inf (na ^^ nb)
  | .inf na, .fin nb ub => if ub = 0 then freshNan .mul a b else .inf (na ^^ nb)
  | .fin na ua, .inf nb => if ua = 0 then freshNan .mul a b else .inf (na ^^ nb)
  | .fin na ua, .fin nb ub => round (na ^^ nb) (ua * ub) one

/-- `fdiv(a, b)` of R12. -/
def fdiv (a b : F64) : F64 :=
  match a, b with
  | .nan _, _ => freshNan .div a b
  | _, .nan _ => freshNan .div a b
  | .inf _, .inf _ => freshNan .div a b
  | .inf na, .fin nb _ => .inf (na ^^ nb)
  | .fin na _, .inf nb => .fin (na ^^ nb) 0
  | .fin na ua, .fin nb ub =>
    if ub = 0 then (if ua = 0 then freshNan .div a b else .inf (na ^^ nb))
    else round (na ^^ nb) (ua * one) ub

/-- `f64(k)` of R12: exact for |k| < 2^53, the only integers the rules convert. -/
def ofInt (k : Int) : F64 := .fin (decide (k < 0)) (k.natAbs * one)

/-- A finite value as a signed number of units. -/
def signedUnits (neg : Bool) (units : Nat) : Int := if neg then -(units : Int) else (units : Int)

/-- `finite(v)` of R12. -/
def finite : F64 → Bool
  | .nan _ => false
  | .inf _ => false
  | .fin _ _ => true

/-- `a < b` of R12; false when either is a NaN. -/
def lt : F64 → F64 → Bool
  | .nan _, _ => false
  | _, .nan _ => false
  | .inf na, .inf nb => na && !nb
  | .inf na, .fin _ _ => na
  | .fin _ _, .inf nb => !nb
  | .fin na ua, .fin nb ub => decide (signedUnits na ua < signedUnits nb ub)

/-- `a == b` of R12: +0 == −0; false when either is a NaN. -/
def eq : F64 → F64 → Bool
  | .nan _, _ => false
  | _, .nan _ => false
  | .inf na, .inf nb => na == nb
  | .inf _, .fin _ _ => false
  | .fin _ _, .inf _ => false
  | .fin na ua, .fin nb ub => decide (signedUnits na ua = signedUnits nb ub)

/-- `a ≥ b` of R12; false when either is a NaN. -/
def ge (a b : F64) : Bool := lt b a || eq a b

/-- `floor(v)` of R12, for finite v. No rule applies it elsewhere (notes/assumptions/16). -/
def floor : F64 → Int
  | .nan _ => 0
  | .inf _ => 0
  | .fin neg units => signedUnits neg units / (one : Int)

/-- `roundHalfEven(v)` of R12, for finite v. No rule applies it elsewhere (notes/assumptions/16). -/
def roundHalfEven : F64 → Int
  | .nan _ => 0
  | .inf _ => 0
  | .fin neg units => signedUnits neg (divHalfEven units one)

end F64

end Sys2Proof.Machine
end

