-- ==== Sys2Proof/Machine/Operands.lean ====
section
/-! DEFINITION. Where the commands take their operands (30_encoding.md R72, R73, R78): the halves of ARG0, the calibration
counts, and the conversion of a byte pair to an axis value (40_axis_decoder.md R100). -/

namespace Sys2Proof.Machine

/-- `ARG0[31:0]`, the unsigned sampleCount of CALIBRATE (R73). -/
def countField (arg0 : Word) : BitVec 32 := arg0.extractLsb' 0 32

/-- `ARG0[63:32]`, the unsigned sampleIntervalSuspend of CALIBRATE in ticks (R73). -/
def intervalField (arg0 : Word) : BitVec 32 := arg0.extractLsb' 32 32

/-- R162: a sample count that CALIBRATE accepts, 1 to `CAL_MAX`. -/
def countLegal (p : Params) (n : BitVec 32) : Bool := n != 0 && decide (n.toNat ≤ p.calMax.toNat)

/-- `DEC16(lowByte, highByte)` of R100, an integer in −32768..32767. -/
def dec16 (lo hi : Byte) : Int :=
  let raw : Nat := hi.toNat * 256 + lo.toNat
  if 32768 ≤ raw then (raw : Int) - 65536 else (raw : Int)

/-- `SCALEOFF` for an axis with a calibration offset (41_sample_reader.md R111): d · SCALE − offset, each operation rounded. -/
def scaledOffset (scale offset : Word) (d : Int) : Word :=
  (F64.fsub (F64.fmul (F64.ofInt d) (F64.ofBits scale)) (F64.ofBits offset)).toBits

/-- `SCALEOFF` for the z axis (R111): d · SCALE, no offset. -/
def scaledOnly (scale : Word) (d : Int) : Word := (F64.fmul (F64.ofInt d) (F64.ofBits scale)).toBits

end Sys2Proof.Machine
end

