-- ==== Sys2Proof/Machine/Ops.lean ====
section
/-! DEFINITION. The shared operations: the sample window, port transactions, completion and errors (the block's exceptions),
acceptance of a command, and the host's reads and writes. -/

namespace Sys2Proof.Machine

/-! ### The sample window (10_state.md R33) -/

/-- An entry of a window column. Reset sets every entry to +0.0 (R33), so that is what an unlisted entry holds. -/
def Memory.read (m : Memory) (ix : Nat) : Word :=
  match m with
  | [] => 0
  | (j, v) :: rest => if j = ix then v else Memory.read rest ix

/-- One entry in front of a column of higher entries; +0.0 is not listed. -/
def Memory.put (ix : Nat) (v : Word) (m : Memory) : Memory := if v = 0 then m else (ix, v) :: m

/-- A store to one entry, which keeps the canonical form. -/
def Memory.write (m : Memory) (ix : Nat) (v : Word) : Memory :=
  match m with
  | [] => Memory.put ix v []
  | (j, w) :: rest =>
    if j < ix then (j, w) :: Memory.write rest ix v
    else if j = ix then Memory.put ix v rest
    else Memory.put ix v ((j, w) :: rest)

/-- Every listed entry lies above `ix`. -/
def Memory.above (ix : Nat) (m : Memory) : Bool := m.all fun e => decide (ix < e.1)

/-- The canonical form: rising indexes, no listed +0.0. -/
def Memory.wf (m : Memory) : Bool :=
  match m with
  | [] => true
  | (j, v) :: rest => v != 0 && Memory.above j rest && Memory.wf rest

/-- Every listed entry is one the window of this instance has (R33). -/
def Memory.within (limit : Nat) (m : Memory) : Bool := m.all fun e => decide (e.1 < limit)

/-! ### Completion and errors (60_exceptions.md R203, R206; 00_scope.md R11) -/

/-- `complete(E)` of R206. The bytes of a sample and SETUP's place are not held after the command (10_state.md R43). The accumulators,
the latched `n`, `t` and `d`, the counter `k` and `droppedInRun` keep their last values: the model's choice (notes/assumptions/26). -/
def complete (e : ErrCode) (s : State) : State :=
  { s with
    status := { s.status with err := e, abortReq := false, busy := false }
    seq := .idle
    sample := .status
    setupNext := .resetPeriod }

/-- `raise TRANSPORT(code, reg, k)` of R203: the record in PORT_ERR, then `complete(TRANSPORT)`. -/
def raiseTransport (code reg : Byte) (write : Bool) (s : State) : State :=
  complete .transport { s with portErr := portErrWord code reg write }

/-- The write of STATUS.VALID (R22). -/
def setValid (v : Bool) (s : State) : State := { s with status := { s.status with valid := v } }

/-! ### Port transactions (00_scope.md R10, 20_memory.md R55, R56) -/

/-- The port's next answer (R55): one named in advance, else a free draw (notes/assumptions/4). -/
def drawAnswer (s : State) : PortAnswer × State :=
  match s.answers with
  | a :: rest => (a, { s with answers := rest })
  | [] => (Config.freeAnswer s.drawIx, { s with drawIx := s.drawIx + 1 })

/-- The transcript entry of a read of register `r` that the port answered with `a` (R56). -/
def readEntry (r : Byte) (a : PortAnswer) : Transaction :=
  match a with
  | .byte b => .readOk r b
  | .fail c => .readFail r c

/-- The transcript entry of a write of `v` to register `r` that the port answered with `a` (R56). -/
def writeEntry (r v : Byte) (a : PortAnswer) : Transaction :=
  match a with
  | .byte _ => .writeOk r v
  | .fail c => .writeFail r v c

/-- One transaction added at the transcript's end. -/
def appendTranscript (t : Transaction) (s : State) : State := { s with transcript := s.transcript ++ [t] }

/-- `MemRead(r, 1)` of R10: one transaction, its answer, and the state with the transcript extended. -/
def memRead (r : Byte) (s : State) : PortAnswer × State :=
  let d := drawAnswer s
  (d.1, appendTranscript (readEntry r d.1) d.2)

/-- `MemWrite(r, 1, v)` of R10. -/
def memWrite (r v : Byte) (s : State) : PortAnswer × State :=
  let d := drawAnswer s
  (d.1, appendTranscript (writeEntry r v d.1) d.2)

/-! ### Acceptance (30_encoding.md R78) -/

/-- What every acceptance does: BUSY ← 1, ERR ← 0, and the first port transaction of the command still to come; no host write has
been dropped in its run yet. -/
def beginCommand (s : State) : State :=
  { s with
    status := { s.status with busy := true, err := .ok }
    sample := .status
    setupNext := .resetPeriod
    droppedInRun := false }

/-- A calibration with a legal count begins (43_calibrator.md R162): CAL_N ← 0, first attempt. -/
def beginCalibration (s : State) : State := { s with calN := 0, seq := .cal .attempt 0 0 }

/-- CALIBRATE's part of the acceptance step (R78, R162, R245): latch `n` and `t`; a legal count starts the phases. -/
def acceptCalibrate (s : State) : State :=
  let s := { s with sampleCount := countField s.arg0, interval := intervalField s.arg0 }
  if countLegal s.params s.sampleCount then beginCalibration s else { s with seq := .run (.legal .calibrate) }

/-- The acceptance step for a host write of word `w` to CMD (R78). -/
def accept (w : Word) (s : State) : State :=
  let s := beginCommand s
  match decode w with
  | .error _ => { s with seq := .run .illegal }
  | .ok .calibrate => acceptCalibrate s
  | .ok .setDecl => { s with degrees := s.arg0, seq := .run (.legal .setDecl) }
  | .ok i => { s with seq := .run (.legal i) }

/-! ### Host accesses (10_state.md R20, 20_memory.md R51 to R53, 70_reset_and_hazards.md R240) -/

/-- A window view (R32): the entry at WIN_IDX when WIN_IDX < CAL_N, else +0.0. -/
def windowView (m : Memory) (s : State) : Word := if s.winIdx < s.calN then m.read s.winIdx.toNat else 0

/-- The value of a host read (R20, R21, R32, R35); an unmapped address reads 0 (R53). -/
def hostRead (addr : Byte) (s : State) : Word :=
  if addr = 0x08 then s.status.word
  else if addr = 0x10 then s.arg0
  else if addr = 0x18 then s.decResult
  else if addr = 0x20 then s.vecX
  else if addr = 0x28 then s.vecY
  else if addr = 0x30 then s.vecZ
  else if addr = 0x38 then s.hdg
  else if addr = 0x40 then s.decl
  else if addr = 0x48 then s.xOff
  else if addr = 0x50 then s.yOff
  else if addr = 0x58 then s.zDev
  else if addr = 0x60 then s.calN
  else if addr = 0x68 then s.winIdx
  else if addr = 0x70 then windowView s.wx s
  else if addr = 0x78 then windowView s.wy s
  else if addr = 0x80 then s.portErr
  else if addr = 0x88 then s.params.scale
  else if addr = 0x90 then infoWord s.params
  else 0

/-- A host write while idle (R20, R42, R53, R78): CMD is an acceptance, five registers take the value, the rest ignore it. -/
def writeIdle (addr : Byte) (v : Word) (s : State) : State :=
  if addr = 0x00 then accept v s
  else if addr = 0x10 then { s with arg0 := v }
  else if addr = 0x20 then { s with vecX := v }
  else if addr = 0x28 then { s with vecY := v }
  else if addr = 0x30 then { s with vecZ := v }
  else if addr = 0x68 then { s with winIdx := v }
  else s

/-- The command word of ABORT (R71), which CMD recognises while busy (R79). -/
def abortWord : Word := 0x0000000000000006

/-- A host write while busy (R79, R240): the exact ABORT word to CMD sets ABORT_REQ, anything else is dropped and sets
OVERRUN (and is noted for CLRERR, notes/assumptions/27). -/
def writeBusy (addr : Byte) (v : Word) (s : State) : State :=
  if addr = 0x00 ∧ v = abortWord then { s with status := { s.status with abortReq := true } }
  else { s with status := { s.status with overrun := true }, droppedInRun := true }

/-- A host write of one register. -/
def hostWrite (addr : Byte) (v : Word) (s : State) : State :=
  if s.seq = .idle then writeIdle addr v s else writeBusy addr v s

end Sys2Proof.Machine
end

