-- ==== Sys2Proof/Machine/Sample.lean ====
section
/-! DEFINITION. The sample reader: the SAMPLE subroutine, one port read at a time (41_sample_reader.md R110 to R114,
70_reset_and_hazards.md R245), and READ_AXES (R115). -/

namespace Sys2Proof.Machine

/-- A CalibratedVector, three binary64 patterns. -/
structure Vec where
  x : Word
  y : Word
  z : Word
  deriving DecidableEq, Repr

/-- What one port read of a SAMPLE led to. -/
inductive SampleStep where
  /-- more reads are to come -/
  | more
  /-- `NONE` (R112) -/
  | notReady
  /-- the read of `reg` failed (R114) -/
  | failed (code reg : Byte)
  /-- the vector (R111) -/
  | done (v : Vec)
  deriving DecidableEq, Repr

/-- `SCALEOFF(dx, dy, dz)` of R111. -/
def scaleOff (dx dy dz : Int) (s : State) : Vec where
  x := scaledOffset s.params.scale s.xOff dx
  y := scaledOffset s.params.scale s.yOff dy
  z := scaledOnly s.params.scale dz

/-- A read of an axis register that is not the last one of the sample: `next` says what to hold with the byte read. -/
def readAxisByte (r : Byte) (next : Byte → SampleProgress) (s : State) : SampleStep × State :=
  match memRead r s with
  | (.fail c, s') => (.failed c r, s')
  | (.byte b, s') => (.more, { s' with sample := next b })

/-- The next port read of SAMPLE (R110). -/
def sampleStep (s : State) : SampleStep × State :=
  match s.sample with
  | .status =>
    match memRead 0x06 s with
    | (.fail c, s') => (.failed c 0x06, s')
    | (.byte st, s') => if st.getLsbD 0 then (.more, { s' with sample := .xLow }) else (.notReady, s')
  | .xLow => readAxisByte 0x00 .xHigh s
  | .xHigh xl => readAxisByte 0x01 (.yLow xl) s
  | .yLow xl xh => readAxisByte 0x02 (.yHigh xl xh) s
  | .yHigh xl xh yl => readAxisByte 0x03 (.zLow xl xh yl) s
  | .zLow xl xh yl yh => readAxisByte 0x04 (.zHigh xl xh yl yh) s
  | .zHigh xl xh yl yh zl =>
    match memRead 0x05 s with
    | (.fail c, s') => (.failed c 0x05, s')
    | (.byte zh, s') =>
      (.done (scaleOff (dec16 xl xh) (dec16 yl yh) (dec16 zl zh) s'), { s' with sample := .status })

/-- READ_AXES's writes for a vector (R115). -/
def writeVector (v : Vec) (s : State) : State := { s with vecX := v.x, vecY := v.y, vecZ := v.z }

/-- One engine step of READ_AXES (R115, R245). -/
def readAxesStep (s : State) : State :=
  match sampleStep s with
  | (.more, s') => s'
  | (.notReady, s') => complete .notReady (setValid false s')
  | (.failed c r, s') => raiseTransport c r false (setValid false s')
  | (.done v, s') => complete .ok (setValid true (writeVector v s'))

/-- READ_AXES (R115), one engine step of it. -/
def execReadAxes (s : State) : Host.Outcome State Fault Refusal := .next (readAxesStep s)

end Sys2Proof.Machine
end

