-- ==== Sys2Proof/Machine/Calibrator.lean ====
section
/-! DEFINITION. The bias calibrator: CALIBRATE, phase by phase, and ABORT (43_calibrator.md). -/

namespace Sys2Proof.Machine

/-- The less of a new sample value and the minimum so far (R166). -/
def lesser (v low : Word) : Word := if F64.lt (F64.ofBits v) (F64.ofBits low) then v else low

/-- The greater of a new sample value and the maximum so far (R166). -/
def greater (v high : Word) : Word := if F64.lt (F64.ofBits high) (F64.ofBits v) then v else high

/-- R166: the accumulators with sample `i`, which is `v`. -/
def Extrema.update (e : Extrema) (i : Nat) (v : Vec) : Extrema :=
  if i = 0 then ⟨v.x, v.x, v.y, v.y, v.z, v.z⟩
  else ⟨lesser v.x e.xmin, greater v.x e.xmax, lesser v.y e.ymin, greater v.y e.ymax, lesser v.z e.zmin, greater v.z e.zmax⟩

/-- R165 and R166: sample `i` goes into the window, CAL_N and the accumulators. -/
def storeSample (i : Nat) (v : Vec) (s : State) : State :=
  { s with
    wx := s.wx.write i v.x
    wy := s.wy.write i v.y
    calN := BitVec.ofNat 64 (i + 1)
    extrema := s.extrema.update i v }

/-- A pacing phase is entered with `k <- 0` (R245). -/
def enterPacing (phase : CalPhase) (i r : Nat) (s : State) : State := { s with seq := .cal phase i r, ticks := 0 }

/-- R164: where the calibration goes after sample `i` is stored. -/
def afterSample (i : Nat) (s : State) : State :=
  if i + 1 < s.sampleCount.toNat then enterPacing .paceNext (i + 1) 0 s else { s with seq := .cal .finish (i + 1) 0 }

/-- R164, R174: a not-ready status counts against the retry limit, or is retried after a pacing wait. -/
def afterNotReady (i r : Nat) (s : State) : State :=
  if s.params.calRetryLimit ≠ 0 ∧ s.params.calRetryLimit.toNat ≤ r + 1 then complete .calTimeout s
  else enterPacing .paceRetry i (r + 1) s

/-- Phase ATTEMPT (R164): one port read of SAMPLE. A store outside the window stops (notes/assumptions/11). -/
def attemptStep (i r : Nat) (s : State) : Host.Outcome State Fault Refusal :=
  match sampleStep s with
  | (.more, s') => .next s'
  | (.notReady, s') => .next (afterNotReady i r s')
  | (.failed c reg, s') => .next (raiseTransport c reg false s')
  | (.done v, s') =>
    if i < s'.params.calMax.toNat then .next (afterSample i (storeSample i v s')) else .fault .windowIndex

/-- The wait of a pacing phase is over (00_scope.md R13, 70_reset_and_hazards.md R245): `k ≥ t` or ABORT_REQ = 1. -/
def paceOver (s : State) : Bool := decide (s.interval.toNat ≤ s.ticks) || s.status.abortReq

/-- The engine step that leaves a pacing phase (R163, R167); before the wait is over there is none (notes/assumptions/14). -/
def paceStep (i r : Nat) (s : State) : State :=
  if paceOver s then
    if s.status.abortReq then complete .aborted s else { s with seq := .cal .attempt i r }
  else s

/-- `(max + min) / 2`, the sum rounded before the halving (R168). -/
def midpoint (high low : Word) : F64 := F64.fdiv (F64.fadd (F64.ofBits high) (F64.ofBits low)) (F64.ofBits Config.c2)

/-- `max − min` (R168). -/
def deviation (high low : Word) : F64 := F64.fsub (F64.ofBits high) (F64.ofBits low)

/-- Phase FINISH (R168): new offsets and deviation, or OVERFLOW with nothing written. -/
def finishStep (s : State) : State :=
  let xo := midpoint s.extrema.xmax s.extrema.xmin
  let yo := midpoint s.extrema.ymax s.extrema.ymin
  let zd := deviation s.extrema.zmax s.extrema.zmin
  if xo.finite && yo.finite && zd.finite then
    complete .ok { s with xOff := xo.toBits, yOff := yo.toBits, zDev := zd.toBits }
  else complete .overflow s

/-- The first engine step where the acceptance has started no phase (R162): ARG for an illegal count. The count of such a
command is never legal in a run (notes/assumptions/17). -/
def calibrateStart (s : State) : State :=
  if countLegal s.params s.sampleCount then beginCalibration s else complete .arg s

/-- CALIBRATE (R161 to R168), one engine step of it. -/
def execCalibrate (s : State) : Host.Outcome State Fault Refusal :=
  match s.seq with
  | .cal .attempt i r => attemptStep i r s
  | .cal .paceNext i _ => .next (paceStep i 0 s)
  | .cal .paceRetry i r => .next (paceStep i r s)
  | .cal .finish _ _ => .next (finishStep s)
  | .idle => .next (calibrateStart s)
  | .run _ => .next (calibrateStart s)

/-- ABORT accepted while idle (R172): `complete(OK)`, no other effect. While busy it is no command: see `writeBusy`. -/
def execAbort (s : State) : Host.Outcome State Fault Refusal := .next (complete .ok s)

end Sys2Proof.Machine
end

