-- ==== Sys2Proof/Machine/Control.lean ====
section
/-! DEFINITION. The control commands NOP, SETUP and CLRERR (44_control.md), and the one step of an illegal word
(30_encoding.md R75). -/

namespace Sys2Proof.Machine

/-- NOP (R190): `complete(OK)`. -/
def execNop (s : State) : Host.Outcome State Fault Refusal := .next (complete .ok s)

/-- One write of SETUP: a failure raises TRANSPORT at that write (R193), else `next` follows. -/
def setupWrite (r v : Byte) (next : State → State) (s : State) : State :=
  match memWrite r v s with
  | (.fail c, s') => raiseTransport c r true s'
  | (.byte _, s') => next s'

/-- The end of a SETUP whose three writes succeeded (R191, R192). -/
def finishSetup (s : State) : State := complete .ok { s with status := { s.status with setupDone := true } }

/-- The next write of SETUP (R191, 70_reset_and_hazards.md R245). -/
def setupStep (s : State) : State :=
  match s.setupNext with
  | .resetPeriod => setupWrite 0x0B Config.resetPeriodByte (fun s => { s with setupNext := .control2 }) s
  | .control2 => setupWrite 0x0A Config.control2Byte (fun s => { s with setupNext := .control1 }) s
  | .control1 => setupWrite 0x09 Config.modeByte finishSetup s

/-- SETUP (R191), one engine step of it. -/
def execSetup (s : State) : Host.Outcome State Fault Refusal := .next (setupStep s)

/-- R195's corner case: CLRERR "cannot clear an overrun that happens during its own run". The pseudocode clears it; which one holds
is free (notes/assumptions/27). -/
def ownOverrunStays (s : State) : Bool := s.droppedInRun && Config.clrErrKeepsOwnOverrun

/-- CLRERR (R195): OVERRUN ← 0, unless an overrun of its own run stays; then `complete(OK)`. -/
def execClrErr (s : State) : Host.Outcome State Fault Refusal :=
  .next (complete .ok { s with status := { s.status with overrun := s.status.overrun && ownOverrunStays s } })

/-- An illegal word's one engine step (R75): `complete(ILLEGAL)`. -/
def illegalStep (s : State) : State := complete .illegal s

end Sys2Proof.Machine
end

