-- ==== Sys2Proof/Machine/Atan2.lean ====
section
/-! DEFINITION. The arctangent unit (00_scope.md R6, 42_heading.md R137): the correctly rounded default P5 by exact
enclosures, any other unit as an uninterpreted function, and a guard that gives every unit properties P1 to P4. -/

namespace Sys2Proof.Machine

/-- A real number enclosed by whole numbers: `lo ≤ value · 2^p ≤ hi`, for a precision `p` fixed by the reader. -/
structure Enclosure where
  lo : Int
  hi : Int
  deriving DecidableEq, Repr

namespace Enclosure

def add (a b : Enclosure) : Enclosure := ⟨a.lo + b.lo, a.hi + b.hi⟩

def sub (a b : Enclosure) : Enclosure := ⟨a.lo - b.hi, a.hi - b.lo⟩

/-- The enclosure of `k` times the value. -/
def scale (k : Nat) (a : Enclosure) : Enclosure := ⟨k * a.lo, k * a.hi⟩

/-- The enclosed value as binary64, where both ends round to the same one (R12's rounding); the value is not negative. -/
def nearest (p : Nat) (a : Enclosure) : Option F64 :=
  let low := F64.round false (a.lo.toNat * F64.one) (2 ^ p)
  let high := F64.round false (a.hi.toNat * F64.one) (2 ^ p)
  if low = high then some low else none

end Enclosure

/-- The alternating series of arctan(n/d), from the term with index `k` on: `power` is (n/d)^(2k+1) · 2^p rounded down, and
`n2`, `d2` are the squares. It stops where the power has fallen below one unit. -/
def arctanSeries (n2 d2 : Nat) : Nat → Nat → Nat → Int
  | 0, _, _ => 0
  | fuel + 1, k, power =>
    if power = 0 then 0
    else (power / (2 * k + 1) : Nat) - arctanSeries n2 d2 fuel (k + 1) (power * n2 / d2)

/-- The most that the rounding down of the series' terms can amount to, in units of 2^-p. -/
def seriesSlack (p : Nat) : Nat := 2 * p + 32

/-- arctan(n/d) for 2n ≤ d: each term is at most a quarter of the one before it. -/
def arctanSmall (p n d : Nat) : Enclosure :=
  let sum := arctanSeries (n * n) (d * d) (p / 2 + 8) 0 (n * 2 ^ p / d)
  ⟨sum - seriesSlack p, sum + seriesSlack p⟩

/-- π/4 = 4 arctan(1/5) − arctan(1/239). -/
def quarterPi (p : Nat) : Enclosure := ((arctanSmall p 1 5).scale 4).sub (arctanSmall p 1 239)

/-- arctan(n/d) for n, d > 0, by the arctangent's addition formula around 1 and its reflection at 1. -/
def arctanRatio (p n d : Nat) : Enclosure :=
  if 2 * n ≤ d then arctanSmall p n d
  else if 2 * d ≤ n then ((quarterPi p).scale 2).sub (arctanSmall p d n)
  else if d ≤ n then (quarterPi p).add (arctanSmall p (n - d) (n + d))
  else (quarterPi p).sub (arctanSmall p (d - n) (d + n))

/-- |atan2(y, x)| for |y| = n > 0 and |x| = d > 0; `xNeg` says x < 0. -/
def angleEnclosure (p : Nat) (xNeg : Bool) (n d : Nat) : Enclosure :=
  if xNeg then ((quarterPi p).scale 4).sub (arctanRatio p n d) else arctanRatio p n d

/-- The binary precisions tried in turn (notes/assumptions/8). -/
def precisionLadder : List Nat := [160, 1400, 4800]

/-- The binary64 nearest |atan2(y, x)|, at the first precision that decides it. Irreducible: the elaborator is not to
evaluate it on variables. -/
@[irreducible] def nearestAngle (xNeg : Bool) (n d : Nat) : Option F64 :=
  precisionLadder.findSome? fun p => (angleEnclosure p xNeg n d).nearest p

/-- The angle `a` with the sign of y, where the ladder has decided; else the free value. -/
def signedAngle (neg : Bool) (a : Option F64) (undecided : F64) : F64 :=
  match a with
  | none => undecided
  | some (.nan _) => undecided
  | some (.inf _) => undecided
  | some (.fin _ units) => .fin neg units

/-- `Config.atan2Undecided` for two values. -/
def undecidedAngle (y x : F64) : F64 := F64.ofBits (Config.atan2Undecided y.toBits x.toBits)

/-- The default unit, property P5: the binary64 nearest the real atan2(y, x), for y and x finite and not zero. -/
def correctlyRoundedAtan2 (y x : F64) : F64 :=
  match y, x with
  | .fin ny uy, .fin nx ux => signedAngle ny (nearestAngle nx uy ux) (undecidedAngle y x)
  | _, _ => undecidedAngle y x

/-- What a unit answers before the guard. -/
def rawAtan2 : Atan2Unit → F64 → F64 → F64
  | .correctlyRounded, y, x => correctlyRoundedAtan2 y x
  | .other n, y, x => F64.ofBits (Config.atan2Raw n y.toBits x.toBits)

/-- P1 and P4 for an angle whose sign is to be `neg`: finite, not zero, that sign, and at most PI64 in magnitude. -/
def angleAllowed (neg : Bool) (a : F64) : Bool :=
  match a with
  | .fin na ua => na == neg && ua != 0 && !F64.lt (F64.ofBits Config.pi64) (.fin false ua)
  | .nan _ => false
  | .inf _ => false

/-- `ATAN2(y, x)` (R137): P2 on the x axis, P3 on the y axis, and elsewhere the unit's answer where P1 and P4 allow it.
An answer they do not allow is replaced by the least angle of the right sign, so that every unit has P1 to P4, and a unit
that has them is unchanged. On arguments outside R137's domain, which HEADING never gives it, the same steps apply: where a NaN or
an infinity compares as a zero, a sign or neither, the values of P2 and P3, the guarded answer or, for two zeros, the raw answer
stand. All of this is the model's choice (notes/assumptions/7). -/
def atan2 (unit : Atan2Unit) (y x : F64) : F64 :=
  let zero := F64.fin false 0
  if F64.eq y zero then
    if F64.lt zero x then zero else if F64.lt x zero then F64.ofBits Config.pi64 else rawAtan2 unit y x
  else
    let neg := F64.lt y zero
    if F64.eq x zero then
      if neg then (F64.ofBits Config.halfPi64).negate else F64.ofBits Config.halfPi64
    else
      let a := rawAtan2 unit y x
      if angleAllowed neg a then a else .fin neg 1

end Sys2Proof.Machine
end

