-- ==== Sys2Proof/Machine/Heading.lean ====
section
/-! DEFINITION. Declination and heading: SET_DECL and HEADING (42_heading.md). -/

namespace Sys2Proof.Machine

/-- `DEG2RAD(d) = fdiv(fmul(d, PI64), C180)` (R130). -/
def deg2rad (d : F64) : F64 := F64.fdiv (F64.fmul d (F64.ofBits Config.pi64)) (F64.ofBits Config.c180)

/-- The engine step of SET_DECL on the latched degrees (R131, R132). -/
def setDeclStep (s : State) : State :=
  let d := F64.ofBits s.degrees
  let r := deg2rad d
  if d.finite && r.finite then complete .ok { s with decl := r.toBits } else complete .arg s

/-- SET_DECL (R131). -/
def execSetDecl (s : State) : Host.Outcome State Fault Refusal := .next (setDeclStep s)

/-- R138: a zero of either sign becomes +0. -/
def canonicalZero (v : F64) : F64 := if F64.eq v (.fin false 0) then .fin false 0 else v

/-- Steps 3 and 4 (R141): each wrap once, in order. While |DECL| ≤ PI64 they bring every angle into range (R146). -/
def wrapAngle (a : F64) : F64 :=
  let twoPi := F64.ofBits Config.twoPi64
  let a := if F64.lt a (.fin false 0) then F64.fadd a twoPi else a
  if F64.ge a twoPi then F64.fsub a twoPi else a

/-- R142: the angle lies in [0, TWO_PI64). It always does while |DECL| ≤ PI64; R146's example, a declination of −300 degrees, shows
that it need not for every declination in (−2π, 2π). -/
def angleInRange (a : F64) : Bool := F64.ge a (.fin false 0) && F64.lt a (F64.ofBits Config.twoPi64)

/-- Step 5 (R143): radians to degrees. -/
def angleDegrees (a : F64) : F64 := F64.fdiv (F64.fmul a (F64.ofBits Config.c180)) (F64.ofBits Config.pi64)

/-- Step 6 (R144): the minutes, before the carry. -/
def angleMinutes (deg : F64) (d : Int) : Int :=
  F64.roundHalfEven (F64.fmul (F64.fsub deg (F64.ofInt d)) (F64.ofBits Config.c60))

/-- Step 7 (R144): 60 minutes carry into degrees when MINUTE_CARRY is true, and 360 degrees become 0. -/
def minuteCarry (carry : Bool) (d m : Int) : Int × Int :=
  if m = 60 ∧ carry = true then (if d + 1 = 360 then 0 else d + 1, 0) else (d, m)

/-- Steps 5 to 7 (R143, R144): degrees and minutes of an angle in range. -/
def degreesMinutes (carry : Bool) (a : F64) : Int × Int :=
  let deg := angleDegrees a
  let d := F64.floor deg
  minuteCarry carry d (angleMinutes deg d)

/-- `HDGF(x, y, decl)` of R135: degrees and minutes, or the error. A declination of 4π or more is HDG_RANGE only where the two wraps
leave the angle out of range (R142): the model follows the pseudocode, not R136's corner case (notes/assumptions/28). -/
def headingOf (p : Params) (x y decl : F64) : Except ErrCode (Int × Int) :=
  if !(x.finite && y.finite) then .error .nonfinite
  else if F64.eq x (.fin false 0) && F64.eq y (.fin false 0) then .error .degenerate
  else
    let a := wrapAngle (F64.fadd (atan2 p.atan2 (canonicalZero y) (canonicalZero x)) decl)
    if angleInRange a then .ok (degreesMinutes p.minuteCarry a) else .error .hdgRange

/-- The engine step of HEADING (R136): HDG is written only on success (R145). -/
def headingStep (s : State) : State :=
  match headingOf s.params (F64.ofBits s.vecX) (F64.ofBits s.vecY) (F64.ofBits s.decl) with
  | .error e => complete e s
  | .ok (d, m) => complete .ok { s with hdg := headingWord d m }

/-- HEADING (R136). -/
def execHeading (s : State) : Host.Outcome State Fault Refusal := .next (headingStep s)

end Sys2Proof.Machine
end

