-- ==== Sys2Proof/Machine/Agents.lean ====
section
/-! DEFINITION. Who moves next and what each agent's move is (70_reset_and_hazards.md R236, R245, R246), the host programs of
30_encoding.md R80 and R81, and how a command word is placed for the engine's next step. -/

namespace Sys2Proof.Machine

/-- The command the engine is running (10_state.md R36): none while idle; a calibration runs CALIBRATE. -/
def running (s : State) : Option Command :=
  match s.seq with
  | .idle => none
  | .run c => some c
  | .cal _ _ _ => some (.legal .calibrate)

/-- The engine is in a pacing phase (R245). -/
def pacing (s : State) : Bool :=
  match s.seq with
  | .cal .paceNext _ _ => true
  | .cal .paceRetry _ _ => true
  | .cal .attempt _ _ => false
  | .cal .finish _ _ => false
  | .idle => false
  | .run _ => false

/-- An engine step is enabled (R245): some command runs, and no pacing wait is still to end. -/
def engineEnabled (s : State) : Bool := s.seq != .idle && (!pacing s || paceOver s)

/-- Who moves when the schedule names nobody: the engine when it can, else the Timebase while the engine waits, else the
host. It is weakly fair (R246; notes/assumptions/2). -/
def defaultAgent (s : State) : Agent :=
  if engineEnabled s then .engine else if pacing s then .timebase else .host

/-- The agent that moves next, and the state with the schedule's head taken. -/
def nextAgent (s : State) : Agent × State :=
  match s.schedule with
  | a :: rest => (a, { s with schedule := rest })
  | [] => (defaultAgent s, s)

/-- A Timebase tick (R245): `k <- k + 1` while the engine is in a pacing phase. -/
def tickMove (s : State) : State := if pacing s then { s with ticks := s.ticks + 1 } else s

/-- Reset (R230): the block's state, not its parameters (R233) and not its environment (notes/assumptions/15). -/
def resetMove (s : State) : State :=
  State.resetWith s.params s.schedule s.host s.readData s.answers s.drawIx

/-- The host's move: its next line (R80, R81). POLL reads STATUS and stays until bit 0 reads 0. -/
def hostMove (s : State) : State :=
  match s.host with
  | [] => s
  | .wr addr v :: rest => hostWrite addr v { s with host := rest }
  | .rd addr :: rest => { s with host := rest, readData := hostRead addr s }
  | .poll :: rest =>
    let v := hostRead 0x08 s
    { s with host := if v.getLsbD 0 then .poll :: rest else rest, readData := v }

/-! ### Host-program lines (R80) and pseudo-instructions (R81) -/

/-- `CMD <mnemonic> [operands]`. -/
def cmdLine (i : Instr) : HostLine := .wr 0x00 (encode i)

/-- `ISSUE <mnemonic> [operands]`. -/
def issueLines (i : Instr) : List HostLine := [cmdLine i, .poll]

/-- The binary64 nearest the decimal `num / den`, `f64(<decimal>)` of R80. -/
def decimalWord (num : Int) (den : Nat) : Word :=
  (F64.round (decide (num < 0)) (num.natAbs * F64.one) den).toBits

/-- `LDF <reg>, <decimal>`. -/
def ldfLine (addr : Byte) (num : Int) (den : Nat) : HostLine := .wr addr (decimalWord num den)

/-- `CALARGS <n>, <t>`: `WR ARG0, (t << 32) | n`. -/
def calArgsLine (n t : BitVec 32) : HostLine := .wr 0x10 (t ++ n)

/-- `DECL <decimal>`. -/
def declLines (num : Int) (den : Nat) : List HostLine := ldfLine 0x10 num den :: issueLines .setDecl

/-! ### Placing a command word for the engine's next step -/

/-- The state in which the engine's next step, which is the next move, runs the command in `w`: the acceptance of `w` has
happened and the engine is scheduled (notes/assumptions/5). -/
def placeCommand (w : Word) (s : State) : State :=
  let s := accept w s
  { s with schedule := .engine :: s.schedule }

end Sys2Proof.Machine
end

