-- ==== Sys2Proof/Machine/Axis.lean ====
section
/-! DEFINITION. The axis decoder: DECODE (40_axis_decoder.md). -/

namespace Sys2Proof.Machine

/-- DECODE (R101): `DEC_RESULT <- sext_64(DEC16(lo, hi)[15:0])`, then `complete(OK)`. -/
def execDecode (lo hi : Byte) (s : State) : Host.Outcome State Fault Refusal :=
  .next (complete .ok { s with decResult := (BitVec.ofInt 16 (dec16 lo hi)).signExtend 64 })

end Sys2Proof.Machine
end

