-- ==== Sys2Proof/Machine/Dispatch.lean ====
section
/-! DEFINITION. One engine step of the running command (70_reset_and_hazards.md R245), one arm per command. -/

namespace Sys2Proof.Machine

def exec (i : Instr) (s : State) : Host.Outcome State Fault Refusal :=
  match i with
  | .nop => Sys2Proof.Machine.execNop s
  | .decode lo hi => Sys2Proof.Machine.execDecode lo hi s
  | .readAxes => Sys2Proof.Machine.execReadAxes s
  | .setDecl => Sys2Proof.Machine.execSetDecl s
  | .heading => Sys2Proof.Machine.execHeading s
  | .calibrate => Sys2Proof.Machine.execCalibrate s
  | .abort => Sys2Proof.Machine.execAbort s
  | .setup => Sys2Proof.Machine.execSetup s
  | .clrErr => Sys2Proof.Machine.execClrErr s

end Sys2Proof.Machine
end

