-- ==== Sys2Proof/Machine/Step.lean ====
section
/-! DEFINITION. One step of the machine (70_reset_and_hazards.md R236): one move of one agent. -/

namespace Sys2Proof.Machine

/-- An engine step (R245): one step of the running command; an illegal word completes; an idle engine does nothing. -/
def engineMove (s : State) : Host.Outcome State Fault Refusal :=
  match running s with
  | none => .next s
  | some .illegal => .next (illegalStep s)
  | some (.legal i) => exec i s

/-- One step: the next agent's move. -/
def step (s : State) : Host.Outcome State Fault Refusal :=
  match nextAgent s with
  | (.engine, s') => engineMove s'
  | (.host, s') => .next (hostMove s')
  | (.timebase, s') => .next (tickMove s')
  | (.reset, s') => .next (resetMove s')

/-- `s` with the command word of table number `w` accepted, so that the next step is the engine's and runs it
(notes/assumptions/5). -/
def State.withFetchWord (s : State) (nbits w : Nat) : State := placeCommand (BitVec.ofNat 64 (w % 2 ^ nbits)) s

end Sys2Proof.Machine
end

