-- ==== Sys2Proof/Safety.lean ====
section
/-! DEFINITION. What counts as a safe step, the launch premises of 70_reset_and_hazards.md R250, and the invariants that claims
are stated with. Each invariant is decidable, so that a concrete state can be shown to meet it. -/

namespace Sys2Proof.Machine

/-- A step is safe when it does not stop: errors of the block are ordinary states (60_exceptions.md R210). -/
def Safe (s : State) : Prop := ∃ t, step s = .next t

/-! ### Launch premises (R250) -/

/-- CLEAN: the block is as R230 leaves it, whatever its parameters and its environment. -/
abbrev State.Clean (s : State) : Prop :=
  s = State.resetWith s.params s.schedule s.host s.readData s.answers s.drawIx

/-- IDLE. -/
abbrev State.Idle (s : State) : Prop := s.seq = .idle

/-! NOFAIL and READY-PORT speak of the transactions that a run makes, whatever answers them. -/

/-- The transactions that a step from `s` to `t` adds to the transcript. -/
def newEntries (s t : State) : List Transaction := t.transcript.drop s.transcript.length

/-- The port transactions of the first `k` steps from `s`, in order; none after a stop. -/
def State.issued (s : State) : Nat → List Transaction
  | 0 => []
  | k + 1 =>
    match step s with
    | .next t => newEntries s t ++ t.issued k
    | .fault _ => []
    | .refused _ => []

/-- The port answered a transaction with success. -/
def Transaction.succeeded : Transaction → Bool
  | .readOk _ _ => true
  | .readFail _ _ => false
  | .writeOk _ _ => true
  | .writeFail _ _ _ => false

/-- NOFAIL: no port transaction of the run from `s` fails. -/
def State.NoFail (s : State) : Prop := ∀ k, (s.issued k).all Transaction.succeeded = true

/-- If a transaction is a status read, the port answered it with a byte whose bit 0 is 1. -/
def Transaction.statusReady : Transaction → Bool
  | .readOk r b => r != 0x06 || b.getLsbD 0
  | .readFail r _ => r != 0x06
  | .writeOk _ _ => true
  | .writeFail _ _ _ => true

/-- The port's answer to an axis read (20_memory.md R54: registers 0 to 5). -/
def Transaction.axisAnswer : Transaction → Option PortAnswer
  | .readOk r b => if r ≤ 0x05 then some (.byte b) else none
  | .readFail r c => if r ≤ 0x05 then some (.fail c) else none
  | .writeOk _ _ => none
  | .writeFail _ _ _ => none

/-- READY-PORT(b…): in the run from `s` every status read answers a byte with bit 0 = 1, and the axis reads answer the listed bytes
in order; nothing is said of axis reads past the list. -/
def State.ReadyPort (s : State) (bytes : List Byte) : Prop :=
  ∀ k, (s.issued k).all Transaction.statusReady = true ∧
    ((s.issued k).filterMap Transaction.axisAnswer <+: bytes.map .byte ∨
      bytes.map .byte <+: (s.issued k).filterMap Transaction.axisAnswer)

/-- The seven answers of a SAMPLE that succeeds: a status byte and the axis bytes x, y, z, low before high (41_sample_reader.md
R118). -/
def sampleAnswers (st xl xh yl yh zl zh : Byte) : List PortAnswer :=
  [.byte st, .byte xl, .byte xh, .byte yl, .byte yh, .byte zl, .byte zh]

/-- The transcript entries of a SAMPLE that succeeds (R118). -/
def sampleEntries (st xl xh yl yh zl zh : Byte) : List Transaction :=
  [.readOk 0x06 st, .readOk 0x00 xl, .readOk 0x01 xh, .readOk 0x02 yl, .readOk 0x03 yh, .readOk 0x04 zl, .readOk 0x05 zh]

/-- Answers that can be named in advance so that the next samples, one for each element, succeed; each status byte has bit 0 set.
They say nothing of the answers after them. -/
def readyAnswers : List (Byte × Byte × Byte × Byte × Byte × Byte × Byte) → List PortAnswer
  | [] => []
  | (st, xl, xh, yl, yh, zl, zh) :: rest => sampleAnswers (st ||| 1) xl xh yl yh zl zh ++ readyAnswers rest

/-- CONFIGURED: from a CLEAN state, an accepted SETUP has completed with OK and nothing else has happened to the block: its
three writes are the whole transcript (44_control.md R191). -/
abbrev State.Configured (s : State) : Prop :=
  s = { State.resetWith s.params s.schedule s.host s.readData s.answers s.drawIx with
        status := { Status.reset with setupDone := true }
        transcript := [.writeOk 0x0B 0x70, .writeOk 0x0A 0x20, .writeOk 0x09 0x1D] }

/-! ### Invariants -/

/-- R36: "STATUS.BUSY = 1 iff seq ≠ IDLE"; R22: ERR is 0 while BUSY, and ABORT_REQ belongs to a running command. -/
abbrev State.StatusAgrees (s : State) : Prop :=
  (s.status.busy = true ↔ s.seq ≠ .idle) ∧ (s.status.busy = true → s.status.err = .ok) ∧
    (s.status.abortReq = true → s.status.busy = true)

/-- The two window columns are in canonical form and hold no index the window lacks (10_state.md R33). -/
abbrev State.WindowWf (s : State) : Prop :=
  s.wx.wf = true ∧ s.wy.wf = true ∧ s.wx.within s.params.calMax.toNat = true ∧
    s.wy.within s.params.calMax.toNat = true

/-- The retry count is below a limit that is not 0 (43_calibrator.md R174). -/
def retryBelowLimit (p : Params) (r : Nat) : Bool := p.calRetryLimit == 0 || decide (r < p.calRetryLimit.toNat)

/-- Where a calibration may stand (43_calibrator.md R162 to R168): `i` is CAL_N, in 1 ≤ i < n between samples, i < n at an attempt
or a retry, i = n at the finish. -/
def State.phaseLegal (s : State) : Bool :=
  match s.seq with
  | .idle => true
  | .run (.legal .calibrate) => !countLegal s.params s.sampleCount
  | .run _ => true
  | .cal phase i r =>
    countLegal s.params s.sampleCount && s.calN == BitVec.ofNat 64 i && retryBelowLimit s.params r &&
      (match phase with
      | .attempt => decide (i < s.sampleCount.toNat)
      | .paceNext => decide (0 < i ∧ i < s.sampleCount.toNat) && r == 0
      | .paceRetry => decide (i < s.sampleCount.toNat ∧ 0 < r)
      | .finish => decide (i = s.sampleCount.toNat) && r == 0)

/-- The calibrator stands where its rules can bring it, and CAL_N is a count of window entries (10_state.md R30). -/
abbrev State.CalibrationLegal (s : State) : Prop := s.phaseLegal = true ∧ s.calN.toNat ≤ s.params.calMax.toNat

/-- The transient places belong to the command that uses them (10_state.md R43): the bytes of a sample to READ_AXES and a
calibration's attempt, the place in the setup sequence to SETUP. -/
def State.progressLegal (s : State) : Bool :=
  (s.sample == .status || s.seq == .run (.legal .readAxes) ||
    (match s.seq with
    | .cal .attempt _ _ => true
    | .cal .paceNext _ _ => false
    | .cal .paceRetry _ _ => false
    | .cal .finish _ _ => false
    | .idle => false
    | .run _ => false)) &&
  (s.setupNext == .resetPeriod || s.seq == .run (.legal .setup))

/-- R27, R28, R176: declination, offsets and deviation are finite. -/
abbrev State.CalibrationFinite (s : State) : Prop :=
  (F64.ofBits s.decl).finite = true ∧ (F64.ofBits s.xOff).finite = true ∧ (F64.ofBits s.yOff).finite = true ∧
    (F64.ofBits s.zDev).finite = true

/-- A pattern that is neither a NaN's nor −0 (41_sample_reader.md R117). -/
def cleanPattern (w : Word) : Bool := !F64.isNanPattern w && w != 0x8000000000000000

/-- R117 for everything a calibration holds: window entries and, once a sample is stored, the accumulators, each minimum at
most its maximum (43_calibrator.md R166). -/
abbrev State.SamplesClean (s : State) : Prop :=
  s.wx.all (fun e => cleanPattern e.2) = true ∧ s.wy.all (fun e => cleanPattern e.2) = true ∧
    (match s.seq with
    | .cal _ (_ + 1) _ =>
      cleanPattern s.extrema.xmin && cleanPattern s.extrema.xmax && cleanPattern s.extrema.ymin &&
        cleanPattern s.extrema.ymax && cleanPattern s.extrema.zmin && cleanPattern s.extrema.zmax &&
        !F64.lt (F64.ofBits s.extrema.xmax) (F64.ofBits s.extrema.xmin) &&
        !F64.lt (F64.ofBits s.extrema.ymax) (F64.ofBits s.extrema.ymin) &&
        !F64.lt (F64.ofBits s.extrema.zmax) (F64.ofBits s.extrema.zmin)
    | .cal _ 0 _ => true
    | .idle => true
    | .run _ => true) = true

/-- R176: "Z_DEV ≥ +0 and is never −0": finite with the sign clear. -/
abbrev State.DeviationNonneg (s : State) : Prop := (F64.ofBits s.zDev).finite = true ∧ s.zDev.msb = false

/-- The least of the first `n` entries of a window column, by R166's comparison. -/
def columnMin (m : Memory) : Nat → Word
  | 0 => 0
  | n + 1 => if n = 0 then m.read 0 else lesser (m.read n) (columnMin m n)

/-- The greatest of the first `n` entries of a window column, by R166's comparison. -/
def columnMax (m : Memory) : Nat → Word
  | 0 => 0
  | n + 1 => if n = 0 then m.read 0 else greater (m.read n) (columnMax m n)

/-- R166: once `i` samples are stored, the x and y accumulators are the least and the greatest of them. -/
abbrev State.ExtremaAgree (s : State) : Prop :=
  (match s.seq with
  | .cal _ (i + 1) _ =>
    s.extrema.xmin == columnMin s.wx (i + 1) && s.extrema.xmax == columnMax s.wx (i + 1) &&
      s.extrema.ymin == columnMin s.wy (i + 1) && s.extrema.ymax == columnMax s.wy (i + 1)
  | .cal _ 0 _ => true
  | .idle => true
  | .run _ => true) = true

/-- Degrees field of a heading word (10_state.md R26). -/
def hdgDegrees (w : Word) : Nat := (w.extractLsb' 0 16).toNat

/-- Minutes field of a heading word (R26). -/
def hdgMinutes (w : Word) : Nat := (w.extractLsb' 16 8).toNat

/-- R26: degrees 0 to 359, minutes 0 to 59, or 60 when MINUTE_CARRY is false; bits 63:24 are 0. -/
abbrev headingLegal (carry : Bool) (w : Word) : Prop :=
  hdgDegrees w ≤ 359 ∧ hdgMinutes w ≤ (if carry then 59 else 60) ∧ w.extractLsb' 24 40 = 0#40

/-- R24, R26, R34: what the result registers may hold. -/
abbrev State.ResultsLegal (s : State) : Prop :=
  s.decResult = (s.decResult.extractLsb' 0 16).signExtend 64 ∧ headingLegal s.params.minuteCarry s.hdg ∧
    s.portErr.extractLsb' 17 47 = 0#47

/-- A transaction of the sensor register map (20_memory.md R54): reads of registers 0 to 6, and the three setup writes. -/
def transactionInMap : Transaction → Bool
  | .readOk r _ => decide (r ≤ 0x06)
  | .readFail r _ => decide (r ≤ 0x06)
  | .writeOk r v => (r == 0x0B && v == 0x70) || (r == 0x0A && v == 0x20) || (r == 0x09 && v == Config.modeByte)
  | .writeFail r v _ => (r == 0x0B && v == 0x70) || (r == 0x0A && v == 0x20) || (r == 0x09 && v == Config.modeByte)

/-- R54: "The block never reads registers 9 to 11. It never writes registers 0 to 6." -/
abbrev State.TranscriptInMap (s : State) : Prop := s.transcript.all transactionInMap = true

end Sys2Proof.Machine
end

