-- ==== Sys2Proof/Certificates/Slice0/Obligations.lean ====
section
/-! DEFINITION. The statements for the provers, file by file of spec/. A statement about an instruction gives the whole next
state, so that its frame is part of it: what the record does not name is unchanged. A record with which a command ends also fixes
what hidden registers hold after it, which the spec leaves any value: there it is the model's choice (notes/assumptions/26). -/

open Sys2Proof Sys2Proof.Machine

/-! ### Encoding (30_encoding.md) -/

/-- R82: the worked encodings, the three illegal words among them. -/
def Obligations.WorkedEncodingsDecode : Prop :=
  decode 0x0000000000000101 = .ok (.decode 0x01 0x00) ∧
  decode 0x0000000000FFFF01 = .ok (.decode 0xFF 0xFF) ∧
  decode 0x0000000000800001 = .ok (.decode 0x00 0x80) ∧
  decode 0x0000000000123401 = .ok (.decode 0x34 0x12) ∧
  decode 0x0000000000000002 = .ok .readAxes ∧
  decode 0x0000000000000005 = .ok .calibrate ∧
  decode 0x0000000000000102 = .error .operand ∧
  decode 0x0000000000000009 = .error .opcode ∧
  decode 0x0000000001000001 = .error .reserved

/-- Decoding the word of a well-formed command gives the command back, with every operand byte (R70, R71, R72). -/
def Obligations.DecodeOfEncodeIsTheCommand : Prop :=
  ∀ i : Instr, i.wellFormed = true → decode (encode i) = .ok i

/-- A legal word is the word of the command it decodes to: no bit of it is dropped (R70, R74). -/
def Obligations.EncodeOfDecodeIsTheWord : Prop :=
  ∀ (w : Word) (i : Instr), decode w = .ok i → encode i = w

/-- R77: decoding takes the row whose match and mask select the word; at most one row does, and a word that no row selects
is illegal. -/
def Obligations.DecodeFollowsMatchAndMask : Prop :=
  (∀ (w : Word) (i : Instr), decode w = .ok i → selects w i = true) ∧
  (∀ (w : Word) (i : Instr), selects w i = true → ∃ j, decode w = .ok j ∧ opcode j = opcode i) ∧
  (∀ (w : Word) (i j : Instr), selects w i = true → selects w j = true → opcode i = opcode j)

/-- R74: a word is illegal when it selects no row of the opcode map, which is so for exactly three kinds of words. -/
def Obligations.IllegalWordsAreTheThreeKinds : Prop :=
  ∀ w : Word,
    ((∃ why, decode w = .error why) ↔ ∀ i : Instr, selects w i = false) ∧
    ((∃ why, decode w = .error why) ↔
      0x09 ≤ (opField w).toNat ∨ rsvField w ≠ 0 ∨ ((aField w ≠ 0 ∨ bField w ≠ 0) ∧ opField w ≠ 0x01))

/-! ### The step and acceptance -/

/-- When the engine moves next and a word is accepted, the step is `exec` of the command the word decodes to, and an illegal
word completes with ILLEGAL; both when the word is placed and when the host writes it to CMD (R78, R236, R245). The first two
parts speak of `withFetchWord`, the model's own way to place a word (notes/assumptions/5): in a busy state they say what the model
does, not the hardware, which drops the word there (R79). The third part is the hardware's. -/
def Obligations.StepRunsTheAcceptedCommand : Prop :=
  (∀ (s : State) (w : Word) (i : Instr), decode w = .ok i →
    step (s.withFetchWord 64 w.toNat) = exec i (accept w s)) ∧
  (∀ (s : State) (w : Word) (why : Illegal), decode w = .error why →
    step (s.withFetchWord 64 w.toNat) = .next (complete .illegal (accept w s))) ∧
  (∀ (s : State) (w : Word) (i : Instr) (rest : List Agent) (lines : List HostLine), decode w = .ok i → s.seq = .idle →
    s.schedule = .host :: .engine :: rest → s.host = .wr 0x00 w :: lines →
    ∃ t u, step s = .next t ∧ step t = exec i u ∧
      u = accept w { s with schedule := rest, host := lines } ∧ running u = some (.legal i))

/-- R78: what the acceptance of a word does, and that it does nothing else. A calibration with a legal count also sets CAL_N to 0
and starts at its first attempt (R162, R245). Three fields that the record names are the model's own: `sample` and `setupNext`, the
places where a command begins (notes/assumptions/12), and the note `droppedInRun`, which acceptance clears
(notes/assumptions/27). -/
def Obligations.AcceptanceSetsBusyAndLatches : Prop :=
  ∀ (s : State) (w : Word), s.seq = .idle →
    let t := hostWrite 0x00 w s
    t.status = { s.status with busy := true, err := .ok } ∧
    t = { s with
          status := t.status, seq := t.seq, sample := .status, setupNext := .resetPeriod, droppedInRun := false
          degrees := t.degrees, sampleCount := t.sampleCount, interval := t.interval, calN := t.calN } ∧
    (∀ why, decode w = .error why →
      t.seq = .run .illegal ∧ t.degrees = s.degrees ∧ t.sampleCount = s.sampleCount ∧ t.interval = s.interval ∧
        t.calN = s.calN) ∧
    (decode w = .ok .setDecl →
      t.seq = .run (.legal .setDecl) ∧ t.degrees = s.arg0 ∧ t.sampleCount = s.sampleCount ∧
        t.interval = s.interval ∧ t.calN = s.calN) ∧
    (decode w = .ok .calibrate →
      t.degrees = s.degrees ∧ t.sampleCount = s.arg0.extractLsb' 0 32 ∧ t.interval = s.arg0.extractLsb' 32 32 ∧
        (if t.sampleCount ≠ 0 ∧ t.sampleCount ≤ s.params.calMax then t.seq = .cal .attempt 0 0 ∧ t.calN = 0
         else t.seq = .run (.legal .calibrate) ∧ t.calN = s.calN)) ∧
    (∀ i, decode w = .ok i → i ≠ .setDecl → i ≠ .calibrate →
      t.seq = .run (.legal i) ∧ t.degrees = s.degrees ∧ t.sampleCount = s.sampleCount ∧ t.interval = s.interval ∧
        t.calN = s.calN)

/-- R75: an illegal word written while idle is accepted, and its one engine step completes with ILLEGAL: no port transaction,
and no register but STATUS.BUSY and STATUS.ERR (ABORT_REQ, which the completion clears, is 0 while idle: R22). Written while
BUSY, it is dropped and sets OVERRUN. -/
def Obligations.IllegalWordOnlyCompletesIllegal : Prop :=
  ∀ (s : State) (w : Word) (why : Illegal), decode w = .error why →
    (s.seq = .idle → s.StatusAgrees → s.progressLegal = true →
      engineMove (hostWrite 0x00 w s) =
        .next { s with status := { s.status with err := .illegal }, droppedInRun := false }) ∧
    (s.seq ≠ .idle → hostWrite 0x00 w s = { s with status := { s.status with overrun := true }, droppedInRun := true })

/-- R240, R79: while a command runs, a host write is dropped and sets OVERRUN, whatever the address; the exact ABORT word to CMD
sets ABORT_REQ instead. Nothing else that the spec names changes; `droppedInRun` is the model's own note for CLRERR
(notes/assumptions/27). -/
def Obligations.BusyWriteIsDroppedOrAborts : Prop :=
  ∀ (s : State) (addr : Byte) (v : Word), s.seq ≠ .idle →
    hostWrite addr v s =
      if addr = 0x00 ∧ v = 0x0000000000000006 then { s with status := { s.status with abortReq := true } }
      else { s with status := { s.status with overrun := true }, droppedInRun := true }

/-! ### Host accesses (10_state.md, 20_memory.md) -/

/-- R20, R42, R53: while idle, a write reaches exactly the five writable registers besides CMD, changes nothing else and reads
back; a write to a read-only register or to an unmapped address is ignored. -/
def Obligations.IdleWriteReachesWritableRegistersOnly : Prop :=
  ∀ (s : State) (addr : Byte) (v : Word), s.seq = .idle →
    hostWrite 0x10 v s = { s with arg0 := v } ∧ hostWrite 0x20 v s = { s with vecX := v } ∧
    hostWrite 0x28 v s = { s with vecY := v } ∧ hostWrite 0x30 v s = { s with vecZ := v } ∧
    hostWrite 0x68 v s = { s with winIdx := v } ∧
    (addr ∈ [0x10, 0x20, 0x28, 0x30, 0x68] → hostRead addr (hostWrite addr v s) = v) ∧
    (addr ∉ [0x00, 0x10, 0x20, 0x28, 0x30, 0x68] → hostWrite addr v s = s)

/-- R41 and R20: a host read changes no state of the block; the value goes to the host. R53: unmapped addresses read 0, and so
does CMD (R21). -/
def Obligations.HostReadChangesNothing : Prop :=
  (∀ (s : State) (addr : Byte) (lines : List HostLine) (rest : List Agent), s.schedule = .host :: rest →
    s.host = .rd addr :: lines →
    step s = .next { s with schedule := rest, host := lines, readData := hostRead addr s }) ∧
  (∀ (s : State) (addr : Byte), (addr = 0x00 ∨ addr.toNat % 8 ≠ 0 ∨ 0x98 ≤ addr.toNat) → hostRead addr s = 0)

/-- R22 and R200: the bits of STATUS as the host reads it. -/
def Obligations.StatusBitsAreTheFields : Prop :=
  ∀ s : State, let w := hostRead 0x08 s
    w.getLsbD 0 = s.status.busy ∧ w.getLsbD 1 = s.status.valid ∧ w.getLsbD 2 = s.status.overrun ∧
    w.getLsbD 3 = s.status.setupDone ∧ w.getLsbD 4 = s.status.abortReq ∧ w.extractLsb' 5 3 = 0 ∧
    w.extractLsb' 12 52 = 0 ∧
    (w.extractLsb' 8 4).toNat =
      (match s.status.err with
      | .ok => 0 | .notReady => 1 | .transport => 2 | .degenerate => 3 | .nonfinite => 4 | .hdgRange => 5
      | .arg => 6 | .illegal => 7 | .aborted => 8 | .calTimeout => 9 | .overflow => 10)

/-- R32: what the window views read. -/
def Obligations.WindowViewsShowStoredEntries : Prop :=
  ∀ s : State,
    (s.winIdx.toNat < s.calN.toNat →
      hostRead 0x70 s = s.wx.read s.winIdx.toNat ∧ hostRead 0x78 s = s.wy.read s.winIdx.toNat) ∧
    (s.calN.toNat ≤ s.winIdx.toNat → hostRead 0x70 s = 0 ∧ hostRead 0x78 s = 0)

/-- R20, R21, R35: what a host read of each register returns: SCALE and the fields of INFO are the parameters, and the other
registers read what they hold (STATUS and the window views have statements of their own). -/
def Obligations.ParameterRegistersReadTheParameters : Prop :=
  ∀ s : State,
    hostRead 0x00 s = 0 ∧ hostRead 0x10 s = s.arg0 ∧ hostRead 0x18 s = s.decResult ∧ hostRead 0x20 s = s.vecX ∧
    hostRead 0x28 s = s.vecY ∧ hostRead 0x30 s = s.vecZ ∧ hostRead 0x38 s = s.hdg ∧ hostRead 0x40 s = s.decl ∧
    hostRead 0x48 s = s.xOff ∧ hostRead 0x50 s = s.yOff ∧ hostRead 0x58 s = s.zDev ∧ hostRead 0x60 s = s.calN ∧
    hostRead 0x68 s = s.winIdx ∧ hostRead 0x80 s = s.portErr ∧ hostRead 0x88 s = s.params.scale ∧
    (hostRead 0x90 s).extractLsb' 0 32 = s.params.calMax ∧ (hostRead 0x90 s).extractLsb' 32 16 = s.params.calRetryLimit ∧
    (hostRead 0x90 s).extractLsb' 48 7 = s.params.devAddr ∧ (hostRead 0x90 s).getLsbD 55 = s.params.minuteCarry ∧
    (hostRead 0x90 s).extractLsb' 56 8 = 0x1D

/-! ### Control commands (44_control.md) and ABORT while idle -/

/-- R190, R172, R206: NOP, and ABORT accepted while idle, only complete: BUSY 0, ERR OK, ABORT_REQ 0, `seq` IDLE. -/
def Obligations.NopAndIdleAbortOnlyComplete : Prop :=
  ∀ (s : State) (i : Instr), i = .nop ∨ i = .abort →
    exec i s = .next { s with
      status := { s.status with err := .ok, abortReq := false, busy := false }
      seq := .idle, sample := .status, setupNext := .resetPeriod }

/-- R195: CLRERR completes with OK and clears OVERRUN where no host write was dropped in its own run. Where one was, the rule says two
things: OVERRUN is 0 by its pseudocode, 1 by its corner case; which one is a free value of the model (notes/assumptions/27). The
first step after CLRERR's acceptance is one where none was dropped, whatever was dropped before. -/
def Obligations.ClrErrClearsOverrun : Prop :=
  ∀ s : State,
    let done (v : Bool) : Host.Outcome State Fault Refusal := .next { s with
      status := { s.status with overrun := v, err := .ok, abortReq := false, busy := false }
      seq := .idle, sample := .status, setupNext := .resetPeriod }
    (s.droppedInRun = false → exec .clrErr s = done false) ∧
    (s.status.overrun = false → exec .clrErr s = done false) ∧
    (s.droppedInRun = true → s.status.overrun = true → exec .clrErr s = done Config.clrErrKeepsOwnOverrun) ∧
    (∀ w : Word, (accept w s).droppedInRun = false)

/-- R191: the three writes of SETUP, each one engine step, and the completion with SETUP_DONE. -/
def Obligations.SetupWritesTheSequence : Prop :=
  ∀ (s : State) (a b c : Byte) (rest : List PortAnswer), s.schedule = [] → s.seq = .run (.legal .setup) →
    s.setupNext = .resetPeriod → s.answers = .byte a :: .byte b :: .byte c :: rest →
    core.run 3 s = .next { s with
      transcript := s.transcript ++ [.writeOk 11 0x70, .writeOk 10 0x20, .writeOk 9 0x1D]
      status := { s.status with setupDone := true, err := .ok, abortReq := false, busy := false }
      seq := .idle, sample := .status, setupNext := .resetPeriod, answers := rest }

/-- Each step of SETUP whose write succeeds: the write's transcript entry, then the next write to come or, after the third write,
SETUP_DONE and the completion with OK (R191, R245). -/
def Obligations.SetupStepIssuesOneWrite : Prop :=
  ∀ (s u : State) (b : Byte), drawAnswer s = (.byte b, u) →
    (s.setupNext = .resetPeriod →
      exec .setup s = .next { u with transcript := u.transcript ++ [.writeOk 0x0B 0x70], setupNext := .control2 }) ∧
    (s.setupNext = .control2 →
      exec .setup s = .next { u with transcript := u.transcript ++ [.writeOk 0x0A 0x20], setupNext := .control1 }) ∧
    (s.setupNext = .control1 →
      exec .setup s = .next { u with
        transcript := u.transcript ++ [.writeOk 0x09 0x1D]
        status := { u.status with setupDone := true, err := .ok, abortReq := false, busy := false }
        seq := .idle, sample := .status, setupNext := .resetPeriod })

/-- R193, R203: a setup write that fails ends SETUP with TRANSPORT and its record; SETUP_DONE keeps its value. -/
def Obligations.SetupFailureRecordsTheWrite : Prop :=
  ∀ (s u : State) (c : Byte), drawAnswer s = (.fail c, u) →
    let rv : Byte × Byte :=
      match s.setupNext with
      | .resetPeriod => (0x0B, 0x70)
      | .control2 => (0x0A, 0x20)
      | .control1 => (0x09, 0x1D)
    exec .setup s = .next { u with
      transcript := u.transcript ++ [.writeFail rv.1 rv.2 c]
      portErr := 0#47 ++ 1#1 ++ rv.1 ++ c
      status := { u.status with err := .transport, abortReq := false, busy := false }
      seq := .idle, sample := .status, setupNext := .resetPeriod }

/-! ### DECODE (40_axis_decoder.md) -/

/-- R100: the decode function, for every byte pair. -/
def Obligations.Dec16SubtractsTheModulus : Prop :=
  ∀ lo hi : Byte,
    dec16 lo hi = (if (lo.toNat ||| hi.toNat <<< 8) < 32768 then ((lo.toNat ||| hi.toNat <<< 8 : Nat) : Int)
      else ((lo.toNat ||| hi.toNat <<< 8 : Nat) : Int) - 65536) ∧
    -32768 ≤ dec16 lo hi ∧ dec16 lo hi ≤ 32767

/-- R101 by way of R102: DEC_RESULT is the 16-bit pattern `hi : lo` sign-extended to 64 bits, and DECODE completes with OK. -/
def Obligations.DecodeSignExtendsThePair : Prop :=
  ∀ (s : State) (lo hi : Byte), exec (.decode lo hi) s = .next { s with
    decResult := (hi ++ lo).signExtend 64
    status := { s.status with err := .ok, abortReq := false, busy := false }
    seq := .idle, sample := .status, setupNext := .resetPeriod }

/-! ### READ_AXES (41_sample_reader.md) -/

/-- R112, R113: a status byte with bit 0 clear, whatever its other bits, ends READ_AXES with NOT_READY and VALID 0 after that one
read. -/
def Obligations.NotReadyEndsReadAxes : Prop :=
  ∀ (s u : State) (st : Byte), s.sample = .status → drawAnswer s = (.byte st, u) → st.getLsbD 0 = false →
    exec .readAxes s = .next { u with
      transcript := u.transcript ++ [.readOk 0x06 st]
      status := { u.status with valid := false, err := .notReady, abortReq := false, busy := false }
      seq := .idle, sample := .status, setupNext := .resetPeriod }

/-- R110: each read of a SAMPLE that is not its last, in order: one transcript entry, and the byte held for the decoder. The same
reads serve a calibration's attempt (R164). -/
def Obligations.SampleReadsInOrder : Prop :=
  ∀ (s u : State) (b : Byte) (i : Instr), drawAnswer s = (.byte b, u) →
    (i = .readAxes ∨ (i = .calibrate ∧ ∃ k r, s.seq = .cal .attempt k r)) →
    (s.sample = .status → b.getLsbD 0 = true →
      exec i s = .next { u with transcript := u.transcript ++ [.readOk 0x06 b], sample := .xLow }) ∧
    (s.sample = .xLow →
      exec i s = .next { u with transcript := u.transcript ++ [.readOk 0x00 b], sample := .xHigh b }) ∧
    (∀ xl, s.sample = .xHigh xl →
      exec i s = .next { u with transcript := u.transcript ++ [.readOk 0x01 b], sample := .yLow xl b }) ∧
    (∀ xl xh, s.sample = .yLow xl xh →
      exec i s = .next { u with transcript := u.transcript ++ [.readOk 0x02 b], sample := .yHigh xl xh b }) ∧
    (∀ xl xh yl, s.sample = .yHigh xl xh yl →
      exec i s = .next { u with transcript := u.transcript ++ [.readOk 0x03 b], sample := .zLow xl xh yl b }) ∧
    (∀ xl xh yl yh, s.sample = .zLow xl xh yl yh →
      exec i s = .next { u with transcript := u.transcript ++ [.readOk 0x04 b], sample := .zHigh xl xh yl yh b })

/-- R115, R111: the last of the seven reads, in the engine step that makes it (R245), decodes, scales and offsets the three axes
into VEC_X/Y/Z, sets VALID and completes with OK. -/
def Obligations.LastReadWritesTheVector : Prop :=
  ∀ (s u : State) (xl xh yl yh zl zh : Byte), s.sample = .zHigh xl xh yl yh zl → drawAnswer s = (.byte zh, u) →
    exec .readAxes s = .next { u with
      vecX := (F64.fsub (F64.fmul (F64.ofInt (dec16 xl xh)) (F64.ofBits s.params.scale)) (F64.ofBits s.xOff)).toBits
      vecY := (F64.fsub (F64.fmul (F64.ofInt (dec16 yl yh)) (F64.ofBits s.params.scale)) (F64.ofBits s.yOff)).toBits
      vecZ := (F64.fmul (F64.ofInt (dec16 zl zh)) (F64.ofBits s.params.scale)).toBits
      transcript := u.transcript ++ [.readOk 0x05 zh]
      status := { u.status with valid := true, err := .ok, abortReq := false, busy := false }
      seq := .idle, sample := .status, setupNext := .resetPeriod }

/-- R115, R111: the seven reads of a ready sample, seven engine steps, leave the scaled and offset vector in VEC_X/Y/Z with VALID 1
and ERR OK, and the seven entries of R118 in the transcript. -/
def Obligations.ReadAxesOfReadySensorWritesVector : Prop :=
  ∀ (s : State) (st xl xh yl yh zl zh : Byte) (rest : List PortAnswer), s.schedule = [] →
    s.seq = .run (.legal .readAxes) → s.sample = .status → st.getLsbD 0 = true →
    s.answers = sampleAnswers st xl xh yl yh zl zh ++ rest →
    core.run 7 s = .next { s with
      vecX := (F64.fsub (F64.fmul (F64.ofInt (dec16 xl xh)) (F64.ofBits s.params.scale)) (F64.ofBits s.xOff)).toBits
      vecY := (F64.fsub (F64.fmul (F64.ofInt (dec16 yl yh)) (F64.ofBits s.params.scale)) (F64.ofBits s.yOff)).toBits
      vecZ := (F64.fmul (F64.ofInt (dec16 zl zh)) (F64.ofBits s.params.scale)).toBits
      transcript := s.transcript ++ sampleEntries st xl xh yl yh zl zh
      status := { s.status with valid := true, err := .ok, abortReq := false, busy := false }
      seq := .idle, sample := .status, setupNext := .resetPeriod, answers := rest }

/-- The sensor register that the next read of a sample reads (R110). -/
def sampleRegister : SampleProgress → Byte
  | .status => 0x06
  | .xLow => 0x00
  | .xHigh _ => 0x01
  | .yLow _ _ => 0x02
  | .yHigh _ _ _ => 0x03
  | .zLow _ _ _ _ => 0x04
  | .zHigh _ _ _ _ _ => 0x05

/-- R114, R115, R203: a failed read, at whichever of the seven reads, ends READ_AXES with TRANSPORT, the record in PORT_ERR and
VALID 0; the vector is unchanged. -/
def Obligations.ReadAxesFailureKeepsTheVector : Prop :=
  ∀ (s u : State) (c : Byte), drawAnswer s = (.fail c, u) →
    exec .readAxes s = .next { u with
      transcript := u.transcript ++ [.readFail (sampleRegister s.sample) c]
      portErr := 0#48 ++ sampleRegister s.sample ++ c
      status := { u.status with valid := false, err := .transport, abortReq := false, busy := false }
      seq := .idle, sample := .status, setupNext := .resetPeriod }

/-- R116: READ_AXES is a function of its inputs: two runs with the same seven answers, scale and offsets take the same number of
steps and end with the same VALID, ERR, BUSY and ABORT_REQ, the only fields of STATUS they write, with the same new transcript
entries, and with the same vector unless both leave theirs alone. -/
def Obligations.ReadAxesDependsOnItsInputsOnly : Prop :=
  ∀ (s t : State) (a : List PortAnswer) (rs rt : List PortAnswer), a.length = 7 → s.schedule = [] → t.schedule = [] →
    s.seq = .run (.legal .readAxes) → t.seq = .run (.legal .readAxes) → s.sample = .status → t.sample = .status →
    s.answers = a ++ rs → t.answers = a ++ rt →
    s.params.scale = t.params.scale → s.xOff = t.xOff → s.yOff = t.yOff →
    ∃ k s' t' new, 1 ≤ k ∧ k ≤ 7 ∧ core.run k s = .next s' ∧ core.run k t = .next t' ∧ s'.seq = .idle ∧ t'.seq = .idle ∧
      s'.status = { s.status with
        valid := s'.status.valid, err := s'.status.err, busy := s'.status.busy, abortReq := s'.status.abortReq } ∧
      t'.status = { t.status with
        valid := s'.status.valid, err := s'.status.err, busy := s'.status.busy, abortReq := s'.status.abortReq } ∧
      s'.transcript = s.transcript ++ new ∧ t'.transcript = t.transcript ++ new ∧
      ((s'.vecX = t'.vecX ∧ s'.vecY = t'.vecY ∧ s'.vecZ = t'.vecZ) ∨
        (s'.vecX = s.vecX ∧ s'.vecY = s.vecY ∧ s'.vecZ = s.vecZ ∧
          t'.vecX = t.vecX ∧ t'.vecY = t.vecY ∧ t'.vecZ = t.vecZ))

/-- R117: with a legal scale and a finite offset no axis value is scaled to a NaN or to −0, with or without the offset. -/
def Obligations.ScaledSamplesAreNeverNanOrMinusZero : Prop :=
  ∀ (p : Params) (off : Word) (lo hi : Byte), p.legal = true → (F64.ofBits off).finite = true →
    cleanPattern (scaledOffset p.scale off (dec16 lo hi)) = true ∧ cleanPattern (scaledOnly p.scale (dec16 lo hi)) = true

/-! ### SET_DECL and HEADING (42_heading.md) -/

/-- R131, R132, R130: SET_DECL stores degrees · PI64 / 180, each operation rounded, when the input and the result are finite;
otherwise it completes with ARG and DECL is unchanged. -/
def Obligations.SetDeclStoresRadiansOrRejects : Prop :=
  ∀ s : State,
    let d := F64.ofBits s.degrees
    let r := F64.fdiv (F64.fmul d (F64.ofBits 0x400921FB54442D18)) (F64.ofBits 0x4066800000000000)
    (d.finite = true → r.finite = true → exec .setDecl s = .next { s with
      decl := r.toBits
      status := { s.status with err := .ok, abortReq := false, busy := false }
      seq := .idle, sample := .status, setupNext := .resetPeriod }) ∧
    (d.finite = false ∨ r.finite = false → exec .setDecl s = .next { s with
      status := { s.status with err := .arg, abortReq := false, busy := false }
      seq := .idle, sample := .status, setupNext := .resetPeriod })

/-- R139, R140, R209: a vector that is not finite gives NONFINITE, and a vector of two zeros of either sign gives DEGENERATE; HDG
is unchanged. -/
def Obligations.HeadingRejectsBadVectors : Prop :=
  ∀ s : State,
    ((F64.ofBits s.vecX).finite = false ∨ (F64.ofBits s.vecY).finite = false → exec .heading s = .next { s with
      status := { s.status with err := .nonfinite, abortReq := false, busy := false }
      seq := .idle, sample := .status, setupNext := .resetPeriod }) ∧
    ((s.vecX = 0 ∨ s.vecX = 0x8000000000000000) → (s.vecY = 0 ∨ s.vecY = 0x8000000000000000) →
      exec .heading s = .next { s with
        status := { s.status with err := .degenerate, abortReq := false, busy := false }
        seq := .idle, sample := .status, setupNext := .resetPeriod })

/-- R137, properties P1 to P4, for every unit an instance may have, on finite arguments that are not both zero and not −0. The
guard that makes them hold where P5 gives a zero is the model's choice (notes/assumptions/7). -/
def Obligations.Atan2HasPropertiesP1ToP4 : Prop :=
  ∀ (unit : Atan2Unit) (y x : Word), (F64.ofBits y).finite = true → (F64.ofBits x).finite = true → ¬ (y = 0 ∧ x = 0) →
    y ≠ 0x8000000000000000 → x ≠ 0x8000000000000000 →
    let a := atan2 unit (F64.ofBits y) (F64.ofBits x)
    let zero := F64.ofBits 0
    let pi := F64.ofBits 0x400921FB54442D18
    a.finite = true ∧ F64.ge a (F64.ofBits 0xC00921FB54442D18) = true ∧ F64.ge pi a = true ∧
    (y = 0 → F64.lt zero (F64.ofBits x) = true → a = zero) ∧
    (y = 0 → F64.lt (F64.ofBits x) zero = true → a = pi) ∧
    (x = 0 → F64.lt zero (F64.ofBits y) = true → a = F64.ofBits 0x3FF921FB54442D18) ∧
    (x = 0 → F64.lt (F64.ofBits y) zero = true → a = F64.ofBits 0xBFF921FB54442D18) ∧
    (F64.lt zero (F64.ofBits y) = true → F64.lt zero a = true) ∧
    (F64.lt (F64.ofBits y) zero = true → F64.lt a zero = true)

/-- The real number a finite value stands for. -/
noncomputable def realOf : F64 → ℝ
  | .nan _ => 0
  | .inf _ => 0
  | .fin neg units => (if neg then -1 else 1) * (units : ℝ) / 2 ^ 1074

/-- P5 of R137 for the default unit: where its precision ladder decides, the value it gives for |y| = `uy` and x = ±`ux` units is
a binary64 value no other of which is nearer to the real angle of the point (x, |y|), and `atan2` of the default unit, for y of
either sign, is a binary64 value no other of which is nearer to the real atan2(y, x). The ladder and what stands where it does not
decide are the model's (notes/assumptions/8); so is the answer where the angle underflows to 0, which the second part leaves out
(notes/assumptions/7). -/
def Obligations.DefaultAngleIsNearestToRealAngle : Prop :=
  (∀ (xNeg : Bool) (uy ux : Nat) (r : F64), 0 < uy → 0 < ux → nearestAngle xNeg uy ux = some r →
    (∃ w : Word, r = F64.ofBits w) ∧ r.finite = true ∧
    ∀ w : Word, (F64.ofBits w).finite = true →
      |realOf r - Complex.arg ⟨realOf (.fin xNeg ux), realOf (.fin false uy)⟩| ≤
        |realOf (F64.ofBits w) - Complex.arg ⟨realOf (.fin xNeg ux), realOf (.fin false uy)⟩|) ∧
  (∀ (y x : Word) (yNeg xNeg : Bool) (uy ux : Nat) (r : F64), F64.ofBits y = .fin yNeg uy → F64.ofBits x = .fin xNeg ux →
    0 < uy → 0 < ux → nearestAngle xNeg uy ux = some r → r ≠ .fin false 0 →
    (∃ w : Word, atan2 .correctlyRounded (F64.ofBits y) (F64.ofBits x) = F64.ofBits w) ∧
    (atan2 .correctlyRounded (F64.ofBits y) (F64.ofBits x)).finite = true ∧
    ∀ w : Word, (F64.ofBits w).finite = true →
      |realOf (atan2 .correctlyRounded (F64.ofBits y) (F64.ofBits x)) -
          Complex.arg ⟨realOf (F64.ofBits x), realOf (F64.ofBits y)⟩| ≤
        |realOf (F64.ofBits w) - Complex.arg ⟨realOf (F64.ofBits x), realOf (F64.ofBits y)⟩|)

/-- Headings of vectors on the axes with declination +0, for every unit and either carry setting: 0°, 90°, 180° and 270°, a −0
counting as +0 (R137 P2 and P3, R138, R141, R143, R144). -/
def Obligations.AxisHeadingsAreRightAngles : Prop :=
  ∀ (s : State) (zero : Word), (zero = 0 ∨ zero = 0x8000000000000000) → s.decl = 0 →
    let done (w : Word) : Host.Outcome State Fault Refusal := .next { s with
      hdg := w
      status := { s.status with err := .ok, abortReq := false, busy := false }
      seq := .idle, sample := .status, setupNext := .resetPeriod }
    (s.vecY = zero → (F64.ofBits s.vecX).finite = true → F64.lt (F64.ofBits 0) (F64.ofBits s.vecX) = true →
      exec .heading s = done 0x0) ∧
    (s.vecX = zero → (F64.ofBits s.vecY).finite = true → F64.lt (F64.ofBits 0) (F64.ofBits s.vecY) = true →
      exec .heading s = done 0x5A) ∧
    (s.vecY = zero → (F64.ofBits s.vecX).finite = true → F64.lt (F64.ofBits s.vecX) (F64.ofBits 0) = true →
      exec .heading s = done 0xB4) ∧
    (s.vecX = zero → (F64.ofBits s.vecY).finite = true → F64.lt (F64.ofBits s.vecY) (F64.ofBits 0) = true →
      exec .heading s = done 0x10E)

/-- R146 (and R143, R144 for the ranges): while |DECL| ≤ PI64, HEADING of a finite vector that is not two zeros completes with OK,
whatever the unit; the degrees are 0 to 359 and the minutes 0 to 60, and 60 only without the carry. The source's bound (−2π, 2π) is
not sufficient: with ATAN2 = −3.1405926539231266 and DECL = DEG2RAD(−300), step 2 gives −8.376…, step 3 −2.093…, and HEADING
completes with HDG_RANGE, HDG unchanged. -/
def Obligations.HeadingSucceedsForSmallDeclination : Prop :=
  (∀ s : State, (F64.ofBits s.vecX).finite = true → (F64.ofBits s.vecY).finite = true →
    ¬ ((s.vecX = 0 ∨ s.vecX = 0x8000000000000000) ∧ (s.vecY = 0 ∨ s.vecY = 0x8000000000000000)) →
    F64.ge (F64.ofBits 0x400921FB54442D18) (F64.ofBits s.decl) = true →
    F64.ge (F64.ofBits s.decl) (F64.ofBits 0xC00921FB54442D18) = true →
    let a := wrapAngle (F64.fadd
      (atan2 s.params.atan2 (canonicalZero (F64.ofBits s.vecY)) (canonicalZero (F64.ofBits s.vecX))) (F64.ofBits s.decl))
    ∃ d m : Int, degreesMinutes s.params.minuteCarry a = (d, m) ∧ 0 ≤ d ∧ d ≤ 359 ∧ 0 ≤ m ∧ m ≤ 60 ∧
      (m = 60 → s.params.minuteCarry = false) ∧
      exec .heading s = .next { s with
        hdg := headingWord d m
        status := { s.status with err := .ok, abortReq := false, busy := false }
        seq := .idle, sample := .status, setupNext := .resetPeriod }) ∧
  (let angle := F64.ofBits 0xC0091FEF0A9542EB
   let decl := F64.ofBits 0xC014F1A6C638D03F
   let sum := F64.ofBits 0xC020C0CF25C1B8DA
   let wrapped := F64.ofBits 0xC000BF45EE7E8938
   deg2rad (F64.ofBits 0xC072C00000000000) = decl ∧ F64.fadd angle decl = sum ∧
   F64.fadd sum (F64.ofBits 0x401921FB54442D18) = wrapped ∧
   ∀ s : State, (F64.ofBits s.vecX).finite = true → (F64.ofBits s.vecY).finite = true →
    ¬ ((s.vecX = 0 ∨ s.vecX = 0x8000000000000000) ∧ (s.vecY = 0 ∨ s.vecY = 0x8000000000000000)) →
    atan2 s.params.atan2 (canonicalZero (F64.ofBits s.vecY)) (canonicalZero (F64.ofBits s.vecX)) = angle →
    F64.ofBits s.decl = decl →
    exec .heading s = .next { s with
      status := { s.status with err := .hdgRange, abortReq := false, busy := false }
      seq := .idle, sample := .status, setupNext := .resetPeriod })

/-- `v` is the real number `x` rounded to binary64, to nearest and to even on a tie (R12, IEEE 754): an infinity from half a unit
above the largest finite value on; else a binary64 value no other of which is nearer, with the last bit of its pattern 0 where
another is as near, and with the sign of `x`, also where it is a zero. -/
def RoundsTo (v : F64) (x : ℝ) : Prop :=
  (2 ^ 1024 - 2 ^ 970 ≤ x → v = .inf false) ∧
  (2 ^ 1024 - 2 ^ 970 ≤ -x → v = .inf true) ∧
  (|x| < 2 ^ 1024 - 2 ^ 970 →
    (∃ w : Word, v = F64.ofBits w) ∧ v.finite = true ∧ (x < 0 → v.toBits.msb = true) ∧ (0 < x → v.toBits.msb = false) ∧
    ∀ w : Word, (F64.ofBits w).finite = true →
      |realOf v - x| ≤ |realOf (F64.ofBits w) - x| ∧
      (|realOf (F64.ofBits w) - x| = |realOf v - x| → realOf (F64.ofBits w) ≠ realOf v → v.toBits.getLsbD 0 = false))

/-- R135, with R136, R141, R142 and R145: the whole heading function, its three errors in their order of priority (R209), each with
HDG unchanged, and HDG for an angle in range: degrees in bits 15:0, minutes in 23:16, zeros above. For a declination of 4π or more
and a negative ATAN2 it follows R135's pseudocode where R136's corner case says HDG_RANGE: that is the model's reading
(notes/assumptions/28). The second part holds the primitives that the first one names to R12: on finite operands each operation is its
exact real result rounded once, to nearest and to even on a tie; the conversion of an integer is exact; `floor`, `roundHalfEven` and
the comparisons are those of the real values, and no comparison with a NaN holds. -/
def Obligations.HeadingFollowsItsAlgorithm : Prop :=
  (∀ s : State,
    let zero := F64.ofBits 0
    let pi := F64.ofBits 0x400921FB54442D18
    let twoPi := F64.ofBits 0x401921FB54442D18
    let c180 := F64.ofBits 0x4066800000000000
    let c60 := F64.ofBits 0x404E000000000000
    let x := F64.ofBits s.vecX
    let y := F64.ofBits s.vecY
    let x' := if F64.eq x zero = true then zero else x
    let y' := if F64.eq y zero = true then zero else y
    let a0 := F64.fadd (atan2 s.params.atan2 y' x') (F64.ofBits s.decl)
    let a1 := if F64.lt a0 zero = true then F64.fadd a0 twoPi else a0
    let a := if F64.ge a1 twoPi = true then F64.fsub a1 twoPi else a1
    let deg := F64.fdiv (F64.fmul a c180) pi
    let d := F64.floor deg
    let m := F64.roundHalfEven (F64.fmul (F64.fsub deg (F64.ofInt d)) c60)
    let hdg : Word :=
      if m = 60 ∧ s.params.minuteCarry = true then 0#40 ++ 0#8 ++ BitVec.ofInt 16 (if d + 1 = 360 then 0 else d + 1)
      else 0#40 ++ BitVec.ofInt 8 m ++ BitVec.ofInt 16 d
    let done (e : ErrCode) : State := { s with
      status := { s.status with err := e, abortReq := false, busy := false }
      seq := .idle, sample := .status, setupNext := .resetPeriod }
    exec .heading s = .next (
      if x.finite = false ∨ y.finite = false then done .nonfinite
      else if F64.eq x zero = true ∧ F64.eq y zero = true then done .degenerate
      else if F64.ge a zero = true ∧ F64.lt a twoPi = true then { done .ok with hdg := hdg }
      else done .hdgRange)) ∧
  (∀ v w : Word,
    let a := F64.ofBits v
    let b := F64.ofBits w
    let exponent := (v.extractLsb' 52 11).toNat
    let fraction : ℝ := (v.extractLsb' 0 52).toNat
    (a.finite = true ↔ exponent ≠ 2047) ∧
    (exponent ≠ 2047 → realOf a = (if v.msb then -1 else 1) *
      (if exponent = 0 then fraction / 2 ^ 52 * (2 : ℝ) ^ (-1022 : ℤ)
        else (1 + fraction / 2 ^ 52) * (2 : ℝ) ^ ((exponent : ℤ) - 1023))) ∧
    (a.finite = true → b.finite = true →
      RoundsTo (F64.fadd a b) (realOf a + realOf b) ∧ RoundsTo (F64.fsub a b) (realOf a - realOf b) ∧
      RoundsTo (F64.fmul a b) (realOf a * realOf b) ∧
      (realOf b ≠ 0 → RoundsTo (F64.fdiv a b) (realOf a / realOf b)) ∧
      (F64.lt a b = true ↔ realOf a < realOf b) ∧ (F64.ge a b = true ↔ realOf b ≤ realOf a) ∧
      (F64.eq a b = true ↔ realOf a = realOf b)) ∧
    (a.finite = true → F64.floor a = ⌊realOf a⌋ ∧
      |(F64.roundHalfEven a : ℝ) - realOf a| ≤ 1 / 2 ∧
      (|(F64.roundHalfEven a : ℝ) - realOf a| = 1 / 2 → Even (F64.roundHalfEven a))) ∧
    (exponent = 2047 → v.extractLsb' 0 52 ≠ 0 →
      F64.lt a b = false ∧ F64.lt b a = false ∧ F64.ge a b = false ∧ F64.ge b a = false ∧ F64.eq a b = false ∧
        F64.eq b a = false)) ∧
  (∀ k : Int, k.natAbs < 2 ^ 53 → ∃ w : Word, F64.ofInt k = F64.ofBits w ∧ (F64.ofInt k).finite = true ∧
    realOf (F64.ofInt k) = k)

/-! ### CALIBRATE and ABORT (43_calibrator.md) -/

/-- R162: a count of 0 or above CAL_MAX completes with ARG in the first engine step: no port transaction, and CAL_N, the window and
the offsets are unchanged. A legal count sets CAL_N to 0 and starts the first attempt. That the latches `n` and `t` hold the
rejected operands afterwards is R78 as the model reads it (notes/assumptions/17), and that they keep them after the completion is
its choice (notes/assumptions/26). The note `droppedInRun`, which the acceptance clears, is the model's own (notes/assumptions/27). -/
def Obligations.CalibrateChecksItsCount : Prop :=
  ∀ s : State, s.seq = .idle →
    (s.StatusAgrees → s.progressLegal = true →
      (s.arg0.extractLsb' 0 32 = 0#32 ∨ s.params.calMax < s.arg0.extractLsb' 0 32) →
      engineMove (hostWrite 0x00 0x0000000000000005 s) = .next { s with
        sampleCount := s.arg0.extractLsb' 0 32, interval := s.arg0.extractLsb' 32 32, droppedInRun := false
        status := { s.status with err := .arg } }) ∧
    (s.arg0.extractLsb' 0 32 ≠ 0#32 → s.arg0.extractLsb' 0 32 ≤ s.params.calMax →
      (hostWrite 0x00 0x0000000000000005 s).calN = 0 ∧
        (hostWrite 0x00 0x0000000000000005 s).seq = .cal .attempt 0 0)

/-- R165, R166, R164: the last read of an attempt stores sample `i` in that step and updates the accumulators: to the sample where it
is the first, else each to the sample's value exactly where that is below a minimum or above a maximum. The calibration then paces, or
finishes after the last sample. -/
def Obligations.CalibrateStoresTheSample : Prop :=
  ∀ (s u : State) (i r : Nat) (xl xh yl yh zl zh : Byte), s.seq = .cal .attempt i r → s.sample = .zHigh xl xh yl yh zl →
    drawAnswer s = (.byte zh, u) → i < s.params.calMax.toNat →
    let x := scaledOffset s.params.scale s.xOff (dec16 xl xh)
    let y := scaledOffset s.params.scale s.yOff (dec16 yl yh)
    let z := scaledOnly s.params.scale (dec16 zl zh)
    let e := s.extrema
    let stored : State := { u with
      transcript := u.transcript ++ [.readOk 0x05 zh], sample := .status
      wx := s.wx.write i x, wy := s.wy.write i y, calN := BitVec.ofNat 64 (i + 1)
      extrema := if i = 0 then ⟨x, x, y, y, z, z⟩
        else ⟨if F64.lt (F64.ofBits x) (F64.ofBits e.xmin) = true then x else e.xmin,
          if F64.lt (F64.ofBits e.xmax) (F64.ofBits x) = true then x else e.xmax,
          if F64.lt (F64.ofBits y) (F64.ofBits e.ymin) = true then y else e.ymin,
          if F64.lt (F64.ofBits e.ymax) (F64.ofBits y) = true then y else e.ymax,
          if F64.lt (F64.ofBits z) (F64.ofBits e.zmin) = true then z else e.zmin,
          if F64.lt (F64.ofBits e.zmax) (F64.ofBits z) = true then z else e.zmax⟩ }
    exec .calibrate s =
      if i + 1 < s.sampleCount.toNat then .next { stored with seq := .cal .paceNext (i + 1) 0, ticks := 0 }
      else .next { stored with seq := .cal .finish (i + 1) 0 }

/-- R170, R164, R174: a not-ready status in a calibration is never recorded: the window, CAL_N and the accumulators are unchanged,
and it is retried after a pacing wait or, at the limit, ends with CAL_TIMEOUT. -/
def Obligations.CalibrateRetriesNotReady : Prop :=
  ∀ (s u : State) (i r : Nat) (st : Byte), s.seq = .cal .attempt i r → s.sample = .status →
    drawAnswer s = (.byte st, u) → st.getLsbD 0 = false →
    exec .calibrate s =
      if s.params.calRetryLimit ≠ 0 ∧ s.params.calRetryLimit.toNat ≤ r + 1 then .next { u with
        transcript := u.transcript ++ [.readOk 0x06 st]
        status := { u.status with err := .calTimeout, abortReq := false, busy := false }
        seq := .idle, sample := .status, setupNext := .resetPeriod }
      else .next { u with
        transcript := u.transcript ++ [.readOk 0x06 st], seq := .cal .paceRetry i (r + 1), ticks := 0 }

/-- R169, R203: a failed read ends a calibration with TRANSPORT and its record; offsets, deviation, CAL_N and the window keep
their values. -/
def Obligations.CalibrateFailureKeepsOffsets : Prop :=
  ∀ (s u : State) (i r : Nat) (c : Byte), s.seq = .cal .attempt i r → drawAnswer s = (.fail c, u) →
    exec .calibrate s = .next { u with
      transcript := u.transcript ++ [.readFail (sampleRegister s.sample) c]
      portErr := 0#48 ++ sampleRegister s.sample ++ c
      status := { u.status with err := .transport, abortReq := false, busy := false }
      seq := .idle, sample := .status, setupNext := .resetPeriod }

/-- R163, R167, R173, R245: a pacing phase waits while k < t and ABORT_REQ = 0; it ends ABORTED, with the offsets and the samples
so far kept, when ABORT_REQ = 1, and otherwise goes to the attempt. R245 enables no engine step before the wait is over: that one
taken there changes nothing is the model's choice (notes/assumptions/14). -/
def Obligations.PacingWaitsAbortsOrAttempts : Prop :=
  ∀ (s : State) (i r : Nat), s.seq = .cal .paceNext i 0 ∨ s.seq = .cal .paceRetry i r →
    (s.status.abortReq = true → exec .calibrate s = .next { s with
      status := { s.status with err := .aborted, abortReq := false, busy := false }
      seq := .idle, sample := .status, setupNext := .resetPeriod }) ∧
    (s.status.abortReq = false → s.ticks < s.interval.toNat → exec .calibrate s = .next s) ∧
    (s.status.abortReq = false → s.interval.toNat ≤ s.ticks →
      exec .calibrate s =
        .next { s with seq := .cal .attempt i (if s.seq = .cal .paceNext i 0 then 0 else r) })

/-- R168: the finish writes the midpoints and the deviation when all three are finite, else OVERFLOW with nothing written. -/
def Obligations.FinishWritesMidpointsOrOverflows : Prop :=
  ∀ (s : State) (n r : Nat), s.seq = .cal .finish n r →
    let two := F64.ofBits 0x4000000000000000
    let e := s.extrema
    let xo := F64.fdiv (F64.fadd (F64.ofBits e.xmax) (F64.ofBits e.xmin)) two
    let yo := F64.fdiv (F64.fadd (F64.ofBits e.ymax) (F64.ofBits e.ymin)) two
    let zd := F64.fsub (F64.ofBits e.zmax) (F64.ofBits e.zmin)
    (xo.finite = true ∧ yo.finite = true ∧ zd.finite = true → exec .calibrate s = .next { s with
      xOff := xo.toBits, yOff := yo.toBits, zDev := zd.toBits
      status := { s.status with err := .ok, abortReq := false, busy := false }
      seq := .idle, sample := .status, setupNext := .resetPeriod }) ∧
    (¬ (xo.finite = true ∧ yo.finite = true ∧ zd.finite = true) → exec .calibrate s = .next { s with
      status := { s.status with err := .overflow, abortReq := false, busy := false }
      seq := .idle, sample := .status, setupNext := .resetPeriod })

/-- R177: a calibration of one ready sample with finite values whose doubles are finite sets X_OFF and Y_OFF to the sample, Z_DEV to
+0 and CAL_N to 1, in eight engine steps, with the sample in window entry 0. That the accumulators keep the sample after the
calibration has ended is the model's choice (notes/assumptions/26). -/
def Obligations.SingleSampleCalibrationKeepsTheSample : Prop :=
  ∀ (s : State) (st xl xh yl yh zl zh : Byte) (rest : List PortAnswer), s.schedule = [] → s.seq = .cal .attempt 0 0 →
    s.sample = .status → s.setupNext = .resetPeriod → s.sampleCount = 1 → s.params.calMax ≠ 0 → st.getLsbD 0 = true →
    s.answers = sampleAnswers st xl xh yl yh zl zh ++ rest →
    let x := scaledOffset s.params.scale s.xOff (dec16 xl xh)
    let y := scaledOffset s.params.scale s.yOff (dec16 yl yh)
    let z := scaledOnly s.params.scale (dec16 zl zh)
    (F64.ofBits x).finite = true → (F64.ofBits y).finite = true → (F64.ofBits z).finite = true →
    (F64.fadd (F64.ofBits x) (F64.ofBits x)).finite = true → (F64.fadd (F64.ofBits y) (F64.ofBits y)).finite = true →
    core.run 8 s = .next { s with
      xOff := x, yOff := y, zDev := 0, calN := 1, wx := s.wx.write 0 x, wy := s.wy.write 0 y, extrema := ⟨x, x, y, y, z, z⟩
      transcript := s.transcript ++ sampleEntries st xl xh yl yh zl zh
      status := { s.status with err := .ok, abortReq := false, busy := false }
      seq := .idle, sample := .status, setupNext := .resetPeriod, answers := rest }

/-- The transcript entries of a list of ready samples (R179). -/
def readyEntries : List (Byte × Byte × Byte × Byte × Byte × Byte × Byte) → List Transaction
  | [] => []
  | (st, xl, xh, yl, yh, zl, zh) :: rest => sampleEntries (st ||| 1) xl xh yl yh zl zh ++ readyEntries rest

/-- R161, with R165, R166, R168 and R179: a calibration of a sensor that is always ready collects exactly its `n` samples and ends,
with OK or OVERFLOW. The window holds the samples in order, the transcript their reads in order, and with OK the offsets are the
midpoints of the window's columns. -/
def Obligations.ReadyCalibrationCollectsAllSamples : Prop :=
  ∀ (s : State) (samples : List (Byte × Byte × Byte × Byte × Byte × Byte × Byte)) (rest : List PortAnswer),
    s.schedule = [] → s.host = [] → s.seq = .cal .attempt 0 0 → s.sample = .status → s.status.abortReq = false →
    s.WindowWf → countLegal s.params s.sampleCount = true → samples.length = s.sampleCount.toNat →
    s.answers = readyAnswers samples ++ rest →
    ∃ k t, core.run k s = .next t ∧ t.seq = .idle ∧ t.calN.toNat = samples.length ∧ t.answers = rest ∧
      t.transcript = s.transcript ++ readyEntries samples ∧
      (∀ i (h : i < samples.length),
        t.wx.read i = scaledOffset s.params.scale s.xOff (dec16 samples[i].2.1 samples[i].2.2.1) ∧
        t.wy.read i = scaledOffset s.params.scale s.yOff (dec16 samples[i].2.2.2.1 samples[i].2.2.2.2.1)) ∧
      ((t.status.err = .ok ∧
          t.xOff = (midpoint (columnMax t.wx samples.length) (columnMin t.wx samples.length)).toBits ∧
          t.yOff = (midpoint (columnMax t.wy samples.length) (columnMin t.wy samples.length)).toBits) ∨
        (t.status.err = .overflow ∧ t.xOff = s.xOff ∧ t.yOff = s.yOff ∧ t.zDev = s.zDev))

/-- R178: a calibration without a retry limit, whose port goes on answering statuses with bit 0 clear, and which sees no ABORT, is
still running after as many steps as there are such answers: it never completes on its own. -/
def Obligations.NeverReadyCalibrationKeepsRunning : Prop :=
  ∀ (s : State) (i r : Nat) (statuses : List Byte) (rest : List PortAnswer) (k : Nat), s.schedule = [] →
    s.seq = .cal .attempt i r → s.sample = .status → s.status.abortReq = false → s.params.calRetryLimit = 0 →
    (∀ st ∈ statuses, st.getLsbD 0 = false) → s.answers = statuses.map .byte ++ rest → k ≤ statuses.length →
    ∃ t, core.run k s = .next t ∧ t.seq ≠ .idle ∧ t.calN = s.calN ∧ t.wx = s.wx ∧ t.wy = s.wy ∧ t.extrema = s.extrema ∧
      t.xOff = s.xOff ∧ t.yOff = s.yOff ∧ t.zDev = s.zDev

/-! ### Steps and agents (70_reset_and_hazards.md) -/

/-- R230, R233: a reset leaves every host register at R20's value, whatever ran before; `seq` is IDLE, the window +0.0 and the
transcript empty; SCALE and INFO read as before; no port answer is taken. That `State.reset` is the instance with the values that R6
gives its parameters is the model's choice (notes/assumptions/6). -/
def Obligations.ResetLeavesTheSpecValues : Prop :=
  (∀ (s : State) (rest : List Agent), s.schedule = .reset :: rest → ∃ t, step s = .next t ∧
    (∀ addr : Byte, hostRead addr t = if addr = 0x88 ∨ addr = 0x90 then hostRead addr s else 0) ∧
    t.seq = .idle ∧ (∀ i, t.wx.read i = 0 ∧ t.wy.read i = 0) ∧ t.transcript = [] ∧ t.params = s.params ∧
    t.answers = s.answers ∧ t.drawIx = s.drawIx) ∧
  State.reset.Clean ∧ State.reset.params.scale = 0x4011666666666666 ∧ State.reset.params.calRetryLimit = 0 ∧
  State.reset.params.minuteCarry = true

/-- Every invariant stated below holds after reset, for any legal or illegal parameters (R230, R20). -/
def Obligations.ResetMeetsTheInvariants : Prop :=
  ∀ s : State, let t := resetMove s
    t.StatusAgrees ∧ t.WindowWf ∧ t.CalibrationLegal ∧ t.progressLegal = true ∧ t.CalibrationFinite ∧ t.SamplesClean ∧
    t.DeviationNonneg ∧ t.ExtremaAgree ∧ t.ResultsLegal ∧ t.TranscriptInMap

/-- R245: a Timebase tick counts in a pacing phase. That one elsewhere takes its place in the schedule and changes nothing else is
the model's choice (notes/assumptions/14). R81: POLL reads STATUS and ends exactly when bit 0
of the value read is 0. -/
def Obligations.TicksCountAndPollsRepeat : Prop :=
  (∀ (s : State) (rest : List Agent), s.schedule = .timebase :: rest →
    step s = if pacing s = true then .next { s with schedule := rest, ticks := s.ticks + 1 }
      else .next { s with schedule := rest }) ∧
  (∀ (s : State) (lines : List HostLine) (rest : List Agent), s.schedule = .host :: rest → s.host = .poll :: lines →
    step s = .next { s with
      schedule := rest, readData := s.status.word, host := if s.status.busy = true then .poll :: lines else lines })

/-- R246: with nothing scheduled and nothing else of the host pending, every command but CALIBRATE completes within its bound:
one engine step, three for SETUP, seven for READ_AXES. -/
def Obligations.CommandsCompleteWithinTheirBound : Prop :=
  ∀ (s : State) (c : Command), s.schedule = [] → s.seq = .run c → c ≠ .legal .calibrate → s.sample = .status →
    s.setupNext = .resetPeriod →
    ∃ k t, k ≤ (match c with
      | .legal .readAxes => 7
      | .legal .setup => 3
      | .legal .nop => 1
      | .legal (.decode _ _) => 1
      | .legal .setDecl => 1
      | .legal .heading => 1
      | .legal .calibrate => 0
      | .legal .abort => 1
      | .legal .clrErr => 1
      | .illegal => 1) ∧ 1 ≤ k ∧ core.run k s = .next t ∧ t.seq = .idle ∧ t.status.busy = false

/-- No step faults or refuses while the calibrator stands where its rules can bring it (R205, R210). The second part is the
model's choice (notes/assumptions/11): in a state that no run reaches, a store outside the window is its one stop. -/
def Obligations.LegalStatesNeverStop : Prop :=
  (∀ s : State, s.CalibrationLegal → Safe s) ∧
  (∀ (s u : State) (i r : Nat) (xl xh yl yh zl zh : Byte), s.seq = .cal .attempt i r → s.sample = .zHigh xl xh yl yh zl →
    drawAnswer s = (.byte zh, u) → s.params.calMax.toNat ≤ i → exec .calibrate s = .fault .windowIndex)

/-- R236, R56: a step adds at most one transaction to the transcript's end, only an engine step adds one, and only reset removes
any. -/
def Obligations.TranscriptGrowsByOneEngineTransaction : Prop :=
  ∀ s t : State, step s = .next t →
    ((nextAgent s).1 = .reset ∧ t.transcript = []) ∨ t.transcript = s.transcript ∨
      ((nextAgent s).1 = .engine ∧ ∃ e, t.transcript = s.transcript ++ [e])

/-- R39 and the rules of the single registers (R22 to R31, R34, R40, R192): but for reset, each register changes only as its rule
says. A result register changes by its own command; ARG0, the vector and WIN_IDX take the value of a host write while idle; CAL_N
changes by CALIBRATE and its acceptance; VALID by READ_AXES; OVERRUN is set by a host write while busy and cleared by CLRERR;
SETUP_DONE is only set. BUSY is set by an acceptance and cleared by a completion; ABORT_REQ is set by the exact ABORT word written to
CMD while busy and cleared by a completion (R38), and every completion leaves both 0; ERR changes by an acceptance, to OK, or by a
completion. R233: no step at all changes a parameter. -/
def Obligations.ResultsChangeOnlyByTheirCommand : Prop :=
  ∀ s t : State, step s = .next t → t.params = s.params ∧ ((nextAgent s).1 ≠ .reset →
    let by' (i : Instr) : Prop := (nextAgent s).1 = .engine ∧ running s = some (.legal i)
    let wrote (addr : Byte) (v : Word) : Prop :=
      (nextAgent s).1 = .host ∧ s.seq = .idle ∧ ∃ rest, s.host = .wr addr v :: rest
    (t.decl ≠ s.decl → by' .setDecl) ∧ (t.xOff ≠ s.xOff ∨ t.yOff ≠ s.yOff ∨ t.zDev ≠ s.zDev → by' .calibrate) ∧
    (t.hdg ≠ s.hdg → by' .heading) ∧ (t.decResult ≠ s.decResult → ∃ lo hi, by' (.decode lo hi)) ∧
    (t.wx ≠ s.wx ∨ t.wy ≠ s.wy → by' .calibrate) ∧
    (t.portErr ≠ s.portErr → t.status.err = .transport ∧ (by' .readAxes ∨ by' .calibrate ∨ by' .setup)) ∧
    (t.status.setupDone ≠ s.status.setupDone → by' .setup ∧ t.status.setupDone = true ∧ t.status.err = .ok) ∧
    (t.arg0 ≠ s.arg0 → wrote 0x10 t.arg0) ∧ (t.winIdx ≠ s.winIdx → wrote 0x68 t.winIdx) ∧
    (t.vecX ≠ s.vecX → by' .readAxes ∨ wrote 0x20 t.vecX) ∧ (t.vecY ≠ s.vecY → by' .readAxes ∨ wrote 0x28 t.vecY) ∧
    (t.vecZ ≠ s.vecZ → by' .readAxes ∨ wrote 0x30 t.vecZ) ∧
    (t.calN ≠ s.calN → by' .calibrate ∨ ∃ w, decode w = .ok .calibrate ∧ wrote 0x00 w) ∧
    (t.status.valid ≠ s.status.valid → by' .readAxes) ∧
    (t.status.overrun ≠ s.status.overrun →
      (by' .clrErr ∧ t.status.overrun = false) ∨
        ((nextAgent s).1 = .host ∧ s.seq ≠ .idle ∧ t.status.overrun = true)) ∧
    (let completes : Prop := (nextAgent s).1 = .engine ∧ s.seq ≠ .idle ∧ t.seq = .idle
     (t.status.busy ≠ s.status.busy → if t.status.busy = true then ∃ w, wrote 0x00 w else completes) ∧
     (t.status.abortReq ≠ s.status.abortReq →
      if t.status.abortReq = true then
        (nextAgent s).1 = .host ∧ s.seq ≠ .idle ∧ ∃ rest, s.host = .wr 0x00 0x0000000000000006 :: rest
      else completes) ∧
     (t.status.err ≠ s.status.err → (t.status.err = .ok ∧ ∃ w, wrote 0x00 w) ∨ completes) ∧
     (completes → t.status.busy = false ∧ t.status.abortReq = false)))

/-! ### Invariants that every step keeps -/

/-- R36, R22: BUSY is 1 iff `seq` is not IDLE, ERR is 0 while BUSY, ABORT_REQ is set only while BUSY. R43: the bytes of a sample and
the place in the setup sequence are held only while their command runs. -/
def Obligations.StepKeepsStatusAndTransients : Prop :=
  ∀ s t : State, s.StatusAgrees → s.progressLegal = true → step s = .next t → t.StatusAgrees ∧ t.progressLegal = true

/-- R33: the window columns keep their canonical form and hold no index that the window lacks. -/
def Obligations.StepKeepsWindowForm : Prop := ∀ s t : State, s.WindowWf → step s = .next t → t.WindowWf

/-- R162 to R168, R174, R30: the calibrator stays where its rules can bring it, and CAL_N within CAL_MAX. -/
def Obligations.StepKeepsCalibrationLegal : Prop :=
  ∀ s t : State, s.CalibrationLegal → step s = .next t → t.CalibrationLegal

/-- R176, R27, R28: declination, offsets and deviation stay finite. -/
def Obligations.StepKeepsCalibrationFinite : Prop :=
  ∀ s t : State, s.CalibrationFinite → step s = .next t → t.CalibrationFinite

/-- R117: with legal parameters and finite offsets no stored sample and no accumulator is ever a NaN or −0, and each minimum stays
at most its maximum. -/
def Obligations.StepKeepsSamplesClean : Prop :=
  ∀ s t : State, s.params.legal = true → s.CalibrationFinite → s.SamplesClean → step s = .next t → t.SamplesClean

/-- R176: Z_DEV stays finite, at least +0 and never −0, over states whose accumulators are as R117 says. -/
def Obligations.StepKeepsDeviationNonneg : Prop :=
  ∀ s t : State, s.CalibrationLegal → s.SamplesClean → s.DeviationNonneg → step s = .next t → t.DeviationNonneg

/-- R166: after each stored sample the x and y accumulators are the least and greatest of the window's entries. -/
def Obligations.StepKeepsExtremaOfTheWindow : Prop :=
  ∀ s t : State, s.WindowWf → s.ExtremaAgree → step s = .next t → t.ExtremaAgree

/-- R26 (from R143 and R144), R24, R34: HDG holds degrees 0 to 359 and minutes 0 to 59 (60 without the carry), DEC_RESULT a
sign-extended 16-bit value, and PORT_ERR zeros above bit 16. -/
def Obligations.StepKeepsResultsLegal : Prop :=
  ∀ s t : State, s.ResultsLegal → step s = .next t → t.ResultsLegal

/-- R54, R59: every transaction of the transcript is one of the sensor register map. -/
def Obligations.StepKeepsTranscriptInMap : Prop :=
  ∀ s t : State, s.TranscriptInMap → step s = .next t → t.TranscriptInMap
end

