-- ==== Sys2Proof/Laws/Arctan.lean ====
section
/-! SUPPORT. The enclosures of Machine/Atan2.lean hold the real arctangent (42_heading.md R137, property P5). -/

namespace Sys2Proof.Machine

open Real

/-- `value` lies in the enclosure, at precision `p`. -/
def Enclosure.Holds (a : Enclosure) (p : Nat) (value : ℝ) : Prop := (a.lo : ℝ) ≤ value * 2 ^ p ∧ value * 2 ^ p ≤ a.hi

theorem Enclosure.Holds.add {a b : Enclosure} {p : Nat} {u v : ℝ} (ha : a.Holds p u) (hb : b.Holds p v) :
    (a.add b).Holds p (u + v) := by
  obtain ⟨h1, h2⟩ := ha; obtain ⟨h3, h4⟩ := hb
  constructor <;> simp only [Enclosure.add] <;> push_cast <;> linarith [add_mul u v (2 ^ p)]

theorem Enclosure.Holds.sub {a b : Enclosure} {p : Nat} {u v : ℝ} (ha : a.Holds p u) (hb : b.Holds p v) :
    (a.sub b).Holds p (u - v) := by
  obtain ⟨h1, h2⟩ := ha; obtain ⟨h3, h4⟩ := hb
  constructor <;> simp only [Enclosure.sub] <;> push_cast <;> linarith [sub_mul u v (2 ^ p)]

theorem Enclosure.Holds.scale {a : Enclosure} {p : Nat} {u : ℝ} (ha : a.Holds p u) (k : Nat) :
    (a.scale k).Holds p (k * u) := by
  obtain ⟨h1, h2⟩ := ha
  have hk : (0 : ℝ) ≤ k := Nat.cast_nonneg k
  constructor <;> simp only [Enclosure.scale] <;> push_cast <;> rw [mul_assoc]
  · exact mul_le_mul_of_nonneg_left h1 hk
  · exact mul_le_mul_of_nonneg_left h2 hk

/-- What is left of the arctangent's series from the term with index `k` on, with the sign of that term. -/
noncomputable def arctanTail (k : Nat) (x : ℝ) : ℝ := ∫ t in (0 : ℝ)..x, t ^ (2 * k) * (1 + t ^ 2)⁻¹

theorem arctanTail_zero (x : ℝ) : arctanTail 0 x = arctan x := by
  simp [arctanTail, integral_inv_one_add_sq]

theorem arctanTail_integrable (k : Nat) (x : ℝ) :
    IntervalIntegrable (fun t : ℝ => t ^ (2 * k) * (1 + t ^ 2)⁻¹) MeasureTheory.volume 0 x := by
  apply Continuous.intervalIntegrable
  refine Continuous.mul (by fun_prop) (Continuous.inv₀ (by fun_prop) fun t => ?_)
  positivity

theorem arctanTail_nonneg (k : Nat) {x : ℝ} (hx : 0 ≤ x) : 0 ≤ arctanTail k x :=
  intervalIntegral.integral_nonneg hx fun t _ => mul_nonneg (by rw [pow_mul]; positivity) (by positivity)

theorem arctanTail_step (k : Nat) (x : ℝ) : arctanTail k x + arctanTail (k + 1) x = x ^ (2 * k + 1) / (2 * k + 1 : ℕ) := by
  rw [arctanTail, arctanTail, ← intervalIntegral.integral_add (arctanTail_integrable k x) (arctanTail_integrable (k + 1) x)]
  have : (fun t : ℝ => t ^ (2 * k) * (1 + t ^ 2)⁻¹ + t ^ (2 * (k + 1)) * (1 + t ^ 2)⁻¹) = fun t => t ^ (2 * k) := by
    funext t
    have h : (1 + t ^ 2) ≠ 0 := by positivity
    field_simp
    ring
  rw [this, integral_pow]
  push_cast
  simp

theorem arctanTail_le (k : Nat) {x : ℝ} (hx : 0 ≤ x) : arctanTail k x ≤ x ^ (2 * k + 1) := by
  have h1 := arctanTail_step k x
  have h2 := arctanTail_nonneg (k + 1) hx
  have h3 : x ^ (2 * k + 1) / ((2 * k + 1 : ℕ) : ℝ) ≤ x ^ (2 * k + 1) :=
    div_le_self (by positivity) (by exact_mod_cast Nat.succ_le_succ (Nat.zero_le _))
  linarith

/-- A quotient of naturals is the real quotient rounded down. -/
theorem natDiv_bounds (a : Nat) {b : Nat} (hb : 0 < b) :
    ((a / b : Nat) : ℝ) ≤ a / b ∧ (a : ℝ) / b < ((a / b : Nat) : ℝ) + 1 := by
  have hb' : (0 : ℝ) < b := Nat.cast_pos.2 hb
  constructor
  · exact Nat.cast_div_le
  · rw [div_lt_iff₀ hb']
    have := Nat.lt_div_mul_add hb (a := a)
    have h2 : a < (a / b + 1) * b := by rw [Nat.succ_mul]; exact this
    exact_mod_cast h2

/-- The series' sum, by how many terms are left. -/
theorem arctanSeries_bound (p n d : Nat) (hd : 0 < d) (hnd : 2 * n ≤ d) :
    ∀ fuel k power : Nat, (power : ℝ) ≤ (n / d : ℝ) ^ (2 * k + 1) * 2 ^ p →
      (n / d : ℝ) ^ (2 * k + 1) * 2 ^ p ≤ power + 2 → p ≤ 2 * (k + fuel) →
      |(arctanSeries (n * n) (d * d) fuel k power : ℝ) - arctanTail k (n / d) * 2 ^ p| ≤ 2 + 3 * fuel := by
  have hd' : (0 : ℝ) < d := Nat.cast_pos.2 hd
  have hx0 : (0 : ℝ) ≤ n / d := by positivity
  have hx : (n / d : ℝ) ≤ 1 / 2 := by
    rw [div_le_div_iff₀ hd' (by norm_num)]
    have : ((2 * n : Nat) : ℝ) ≤ d := by exact_mod_cast hnd
    push_cast at this; linarith
  have h2p : (0 : ℝ) < 2 ^ p := by positivity
  intro fuel
  induction fuel with
  | zero =>
    intro k power h1 h2 hk
    have t1 := arctanTail_nonneg k hx0
    have t2 := arctanTail_le k hx0
    have t3 : (n / d : ℝ) ^ (2 * k + 1) ≤ (1 / 2) ^ p :=
      (pow_le_pow_left₀ hx0 hx _).trans (pow_le_pow_of_le_one (by norm_num) (by norm_num) (by omega))
    have t4 : ((1 / 2 : ℝ)) ^ p * 2 ^ p = 1 := by rw [← mul_pow]; norm_num
    have t5 : arctanTail k (n / d) * 2 ^ p ≤ 1 := by
      rw [← t4]; exact mul_le_mul_of_nonneg_right (t2.trans t3) h2p.le
    have t6 : 0 ≤ arctanTail k (n / d) * 2 ^ p := by positivity
    simp only [arctanSeries, Int.cast_zero, zero_sub, abs_neg, abs_of_nonneg t6]
    norm_num
    linarith
  | succ fuel ih =>
    intro k power h1 h2 hk
    have t1 := arctanTail_nonneg k hx0
    have t2 := arctanTail_le k hx0
    have t6 : 0 ≤ arctanTail k (n / d) * 2 ^ p := by positivity
    simp only [arctanSeries]
    split
    · rename_i h0
      subst h0
      have t5 : arctanTail k (n / d) * 2 ^ p ≤ 2 := by
        have := mul_le_mul_of_nonneg_right t2 h2p.le
        push_cast at h2; linarith
      simp only [Int.cast_zero, zero_sub, abs_neg, abs_of_nonneg t6]
      push_cast
      have : (0 : ℝ) ≤ fuel := Nat.cast_nonneg _
      linarith
    · have hdd : (0 : ℝ) < (d : ℝ) * d := by positivity
      obtain ⟨q1, q2⟩ := natDiv_bounds (power * (n * n)) (b := d * d) (Nat.mul_pos hd hd)
      obtain ⟨r1, r2⟩ := natDiv_bounds power (b := 2 * k + 1) (Nat.succ_pos _)
      have e1 : ((power * (n * n) : Nat) : ℝ) / ((d * d : Nat) : ℝ) = power * (n / d) ^ 2 := by
        push_cast; field_simp
      have e2 : (n / d : ℝ) ^ (2 * (k + 1) + 1) * 2 ^ p = (n / d : ℝ) ^ (2 * k + 1) * 2 ^ p * (n / d) ^ 2 := by ring
      have hsq : (n / d : ℝ) ^ 2 ≤ 1 / 4 := by
        have := pow_le_pow_left₀ hx0 hx 2
        norm_num at this ⊢; linarith
      have hsq0 : (0 : ℝ) ≤ (n / d : ℝ) ^ 2 := by positivity
      rw [e1] at q1 q2
      have ih' := ih (k + 1) (power * (n * n) / (d * d)) (by
          rw [e2]; exact q1.trans (mul_le_mul_of_nonneg_right h1 hsq0)) (by
          rw [e2]
          have := mul_le_mul_of_nonneg_right h2 hsq0
          rw [add_mul] at this
          linarith) (by omega)
      have hs := arctanTail_step k (n / d : ℝ)
      have hs2 : arctanTail k (n / d) * 2 ^ p =
          (n / d : ℝ) ^ (2 * k + 1) * 2 ^ p / ((2 * k + 1 : Nat) : ℝ) - arctanTail (k + 1) (n / d) * 2 ^ p := by
        have h3 : (arctanTail k (n / d) + arctanTail (k + 1) (n / d)) * (2 : ℝ) ^ p =
            (n / d : ℝ) ^ (2 * k + 1) / ((2 * k + 1 : Nat) : ℝ) * 2 ^ p := by rw [hs]
        rw [add_mul, div_mul_eq_mul_div] at h3
        linarith
      have hk1 : (1 : ℝ) ≤ ((2 * k + 1 : Nat) : ℝ) := by exact_mod_cast Nat.succ_le_succ (Nat.zero_le _)
      have hk0 : (0 : ℝ) < ((2 * k + 1 : Nat) : ℝ) := by linarith
      have u1 : (power : ℝ) / ((2 * k + 1 : Nat) : ℝ) ≤ (n / d : ℝ) ^ (2 * k + 1) * 2 ^ p / ((2 * k + 1 : Nat) : ℝ) :=
        div_le_div_of_nonneg_right h1 hk0.le
      have u2 : (n / d : ℝ) ^ (2 * k + 1) * 2 ^ p / ((2 * k + 1 : Nat) : ℝ) ≤ power / ((2 * k + 1 : Nat) : ℝ) + 2 := by
        have := div_le_div_of_nonneg_right h2 hk0.le
        rw [add_div] at this
        have h22 : (2 : ℝ) / ((2 * k + 1 : Nat) : ℝ) ≤ 2 := div_le_self (by norm_num) hk1
        linarith
      rw [hs2, Int.cast_sub, Int.cast_natCast, Nat.cast_succ fuel]
      rw [abs_le] at ih' ⊢
      constructor <;> linarith [ih'.1, ih'.2]

theorem arctanSmall_holds (p n d : Nat) (hd : 0 < d) (hnd : 2 * n ≤ d) : (arctanSmall p n d).Holds p (arctan (n / d)) := by
  obtain ⟨q1, q2⟩ := natDiv_bounds (n * 2 ^ p) hd
  have e : ((n * 2 ^ p : Nat) : ℝ) / d = (n / d : ℝ) ^ (2 * 0 + 1) * 2 ^ p := by push_cast; ring
  rw [e] at q1 q2
  have h := arctanSeries_bound p n d hd hnd (p / 2 + 8) 0 _ q1 (by linarith) (by omega)
  rw [arctanTail_zero, abs_le] at h
  have hp : ((p / 2 : Nat) : ℝ) ≤ p / 2 := by exact_mod_cast (Nat.cast_div_le (α := ℝ) (m := p) (n := 2))
  have hp0 : (0 : ℝ) ≤ p := Nat.cast_nonneg _
  obtain ⟨h1, h2⟩ := h
  push_cast at h1 h2
  constructor <;> simp only [arctanSmall, seriesSlack] <;> push_cast <;> linarith

theorem quarterPi_holds (p : Nat) : (quarterPi p).Holds p (π / 4) := by
  have h1 := ((arctanSmall_holds p 1 5 (by norm_num) (by norm_num)).scale 4).sub
    (arctanSmall_holds p 1 239 (by norm_num) (by norm_num))
  have h2 := four_mul_arctan_inv_5_sub_arctan_inv_239
  have e : ((4 : Nat) : ℝ) * arctan (((1 : Nat) : ℝ) / ((5 : Nat) : ℝ)) - arctan (((1 : Nat) : ℝ) / ((239 : Nat) : ℝ)) = π / 4 := by
    push_cast; rw [← h2, one_div, one_div]
  rw [← e]
  exact h1

/-- The arctangent around 1. -/
theorem arctan_around_one {x y : ℝ} (hy : y < 1) (h : x * (1 - y) = 1 + y) : arctan x = π / 4 + arctan y := by
  have h1 : (1 : ℝ) - y ≠ 0 := by linarith
  rw [← arctan_one, arctan_add (by linarith)]
  congr 1
  field_simp
  linarith

theorem arctanRatio_holds (p n d : Nat) (hn : 0 < n) (hd : 0 < d) : (arctanRatio p n d).Holds p (arctan (n / d)) := by
  have hn' : (0 : ℝ) < n := Nat.cast_pos.2 hn
  have hd' : (0 : ℝ) < d := Nat.cast_pos.2 hd
  unfold arctanRatio
  split
  · exact arctanSmall_holds p n d hd ‹_›
  · split
    · have h1 := ((quarterPi_holds p).scale 2).sub (arctanSmall_holds p d n hn ‹_›)
      have e : ((2 : Nat) : ℝ) * (π / 4) - arctan ((d : ℝ) / n) = arctan (n / d) := by
        have := arctan_inv_of_pos (show (0 : ℝ) < d / n by positivity)
        rw [inv_div] at this
        rw [this]; push_cast; ring
      rw [← e]; exact h1
    · split
      · rename_i hdn
        have h1 := (quarterPi_holds p).add (arctanSmall_holds p (n - d) (n + d) (by omega) (by omega))
        rw [Nat.cast_sub hdn, Nat.cast_add] at h1
        have e := arctan_around_one (x := (n : ℝ) / d) (y := ((n : ℝ) - d) / (n + d)) (by rw [div_lt_one (by positivity)]; linarith) (by
          field_simp; ring)
        rw [e]; exact h1
      · rename_i hdn
        have hnd : n ≤ d := by omega
        have h1 := (quarterPi_holds p).sub (arctanSmall_holds p (d - n) (d + n) (by omega) (by omega))
        rw [Nat.cast_sub hnd, Nat.cast_add] at h1
        have e := arctan_around_one (x := (n : ℝ) / d) (y := ((n : ℝ) - d) / (n + d)) (by rw [div_lt_one (by positivity)]; linarith) (by
          field_simp; ring)
        have e2 : ((n : ℝ) - d) / (n + d) = -(((d : ℝ) - n) / (d + n)) := by field_simp; ring
        rw [e2, arctan_neg] at e
        rw [e]; exact h1

/-- The angle of a point above the x axis and right of the y axis. -/
theorem arg_right {x y : ℝ} (hx : 0 < x) : Complex.arg ⟨x, y⟩ = arctan (y / x) := by
  have h1 : Real.tan (Complex.arg ⟨x, y⟩) = y / x := Complex.tan_arg ⟨x, y⟩
  have h2 : |Complex.arg ⟨x, y⟩| < π / 2 := Complex.abs_arg_lt_pi_div_two_iff.2 (.inl hx)
  rw [abs_lt] at h2
  rw [← h1, arctan_tan h2.1 h2.2]

/-- The angle of a point above the x axis and left of the y axis. -/
theorem arg_left {x y : ℝ} (hx : 0 < x) (hy : 0 < y) : Complex.arg ⟨-x, y⟩ = π - arctan (y / x) := by
  have h := Complex.arg_neg_eq_arg_add_pi_of_im_neg (x := ⟨x, -y⟩) (by simpa using hy)
  have e : -(⟨x, -y⟩ : ℂ) = ⟨-x, y⟩ := by apply Complex.ext <;> simp
  rw [e, arg_right hx, neg_div, arctan_neg] at h
  rw [h]; ring

/-- The enclosure holds the angle of the point (±d, n). -/
theorem angleEnclosure_holds (p : Nat) (xNeg : Bool) {n d : Nat} (hn : 0 < n) (hd : 0 < d) :
    (angleEnclosure p xNeg n d).Holds p (Complex.arg ⟨if xNeg then -(d : ℝ) else d, n⟩) := by
  have hn' : (0 : ℝ) < n := Nat.cast_pos.2 hn
  have hd' : (0 : ℝ) < d := Nat.cast_pos.2 hd
  cases xNeg with
  | false =>
    simp only [angleEnclosure, Bool.false_eq_true, if_false]
    rw [arg_right hd']
    exact arctanRatio_holds p n d hn hd
  | true =>
    simp only [angleEnclosure, if_true]
    rw [arg_left hd' hn']
    have h := ((quarterPi_holds p).scale 4).sub (arctanRatio_holds p n d hn hd)
    have e : ((4 : Nat) : ℝ) * (π / 4) - arctan ((n : ℝ) / d) = π - arctan (n / d) := by push_cast; ring
    rw [← e]; exact h

end Sys2Proof.Machine
end

