-- ==== Sys2Proof/Laws/Encoding.lean ====
section
/-! SUPPORT. The fields of a command word as numbers, the encoder's word, and the match and mask of a row as conditions on the
fields (30_encoding.md R70, R71). -/

namespace Sys2Proof

theorem opField_toNat (w : Word) : (opField w).toNat = w.toNat % 256 := by simp [opField, BitVec.extractLsb'_toNat]

theorem aField_toNat (w : Word) : (aField w).toNat = w.toNat / 256 % 256 := by simp [aField, Nat.shiftRight_eq_div_pow]

theorem bField_toNat (w : Word) : (bField w).toNat = w.toNat / 65536 % 256 := by
  simp [bField, Nat.shiftRight_eq_div_pow]

theorem rsvField_toNat (w : Word) : (rsvField w).toNat = w.toNat / 16777216 := by
  have := w.isLt
  simp only [rsvField, BitVec.extractLsb'_toNat, Nat.shiftRight_eq_div_pow]; omega

/-- The encoder's word as a number. -/
theorem encode_toNat (i : Instr) :
    (encode i).toNat = ((operandB i).toNat * 256 + (operandA i).toNat) * 256 + (opcode i).toNat := by
  have h (b a o : Byte) :
      BitVec.toNat (w := 40 + 8 + 8 + 8) (0#40 ++ b ++ a ++ o) = (b.toNat * 256 + a.toNat) * 256 + o.toNat := by
    have e1 := Nat.two_pow_add_eq_or_of_lt a.isLt b.toNat
    have e2 := Nat.two_pow_add_eq_or_of_lt o.isLt (2 ^ 8 * b.toNat + a.toNat)
    simp only [BitVec.toNat_append, Nat.shiftLeft_eq, BitVec.toNat_ofNat, Nat.zero_mod,
      Nat.mul_comm _ (2 ^ 8), Nat.mul_zero, Nat.zero_or]
    rw [← e1, ← e2]
    omega
  exact h _ _ _

theorem opField_encode (i : Instr) : opField (encode i) = opcode i := by
  apply BitVec.eq_of_toNat_eq
  have := (opcode i).isLt
  rw [opField_toNat, encode_toNat]; omega

theorem aField_encode (i : Instr) : aField (encode i) = operandA i := by
  apply BitVec.eq_of_toNat_eq
  have := (opcode i).isLt; have := (operandA i).isLt
  rw [aField_toNat, encode_toNat]; omega

theorem bField_encode (i : Instr) : bField (encode i) = operandB i := by
  apply BitVec.eq_of_toNat_eq
  have := (opcode i).isLt; have := (operandA i).isLt; have := (operandB i).isLt
  rw [bField_toNat, encode_toNat]; omega

theorem rsvField_encode (i : Instr) : rsvField (encode i) = 0 := by
  apply BitVec.eq_of_toNat_eq
  have := (opcode i).isLt; have := (operandA i).isLt; have := (operandB i).isLt
  rw [rsvField_toNat, encode_toNat]; simp; omega

/-- A word is fixed by its four fields. -/
theorem word_ext {v w : Word} (ho : opField v = opField w) (ha : aField v = aField w) (hb : bField v = bField w)
    (hr : rsvField v = rsvField w) : v = w := by
  apply BitVec.eq_of_toNat_eq
  have h1 := congrArg BitVec.toNat ho
  have h2 := congrArg BitVec.toNat ha
  have h3 := congrArg BitVec.toNat hb
  have h4 := congrArg BitVec.toNat hr
  simp only [opField_toNat, aField_toNat, bField_toNat, rsvField_toNat] at h1 h2 h3 h4
  omega

/-- DECODE's mask leaves OP and RSV to be compared. -/
theorem decodeMask_iff (w : Word) : w &&& 0xFFFFFFFFFF0000FF = 1 ↔ opField w = 1 ∧ rsvField w = 0 := by
  constructor
  · intro h
    have hb (k : Nat) := congrArg (·.getLsbD k) h
    constructor
    · ext k hk
      have := hb k
      interval_cases k <;> simpa [opField] using this
    · ext k hk
      have := hb (k + 24)
      interval_cases k <;> simpa [rsvField] using this
  · rintro ⟨h1, h2⟩
    ext k hk
    by_cases hk1 : k < 8
    · have := congrArg (·.getLsbD k) h1
      simp [opField] at this
      interval_cases k <;> simp_all
    · by_cases hk2 : k < 24
      · interval_cases k <;> simp
      · have := congrArg (·.getLsbD (k - 24)) h2
        simp [rsvField] at this
        interval_cases k <;> simp_all

/-- A row other than DECODE's selects the one word of its command. -/
theorem fullMask_iff (w m : Word) : w &&& 0xFFFFFFFFFFFFFFFF = m ↔ w = m := by
  have : (0xFFFFFFFFFFFFFFFF : Word) = BitVec.allOnes 64 := by decide
  rw [this, BitVec.and_allOnes]

/-- Which words a command's row selects. -/
theorem selects_iff (w : Word) (i : Instr) :
    selects w i = true ↔
      opField w = opcode i ∧ rsvField w = 0 ∧ (opcode i ≠ 0x01 → aField w = 0 ∧ bField w = 0) := by
  have plain (j : Instr) (hrow : opcodeRow j = (encode j, 0xFFFFFFFFFFFFFFFF)) (h1 : opcode j ≠ 0x01)
      (ha : operandA j = 0) (hb : operandB j = 0) :
      selects w j = true ↔
        opField w = opcode j ∧ rsvField w = 0 ∧ (opcode j ≠ 0x01 → aField w = 0 ∧ bField w = 0) := by
    simp only [selects, hrow, beq_iff_eq, fullMask_iff]
    constructor
    · rintro rfl
      exact ⟨opField_encode j, rsvField_encode j, fun _ => ⟨by rw [aField_encode, ha], by rw [bField_encode, hb]⟩⟩
    · rintro ⟨ho, hr, h2⟩
      exact word_ext (by rw [ho, opField_encode]) (by rw [(h2 h1).1, aField_encode, ha])
        (by rw [(h2 h1).2, bField_encode, hb]) (by rw [hr, rsvField_encode])
  cases i with
  | decode lo hi => simpa [selects, opcodeRow, opcode] using decodeMask_iff w
  | nop => exact plain .nop (by decide) (by decide) rfl rfl
  | readAxes => exact plain .readAxes (by decide) (by decide) rfl rfl
  | setDecl => exact plain .setDecl (by decide) (by decide) rfl rfl
  | heading => exact plain .heading (by decide) (by decide) rfl rfl
  | calibrate => exact plain .calibrate (by decide) (by decide) rfl rfl
  | abort => exact plain .abort (by decide) (by decide) rfl rfl
  | setup => exact plain .setup (by decide) (by decide) rfl rfl
  | clrErr => exact plain .clrErr (by decide) (by decide) rfl rfl

end Sys2Proof
end

