-- ==== Sys2Proof/Laws/Float.lean ====
section
/-! SUPPORT. The rounding of Machine/Float.lean, once: what it can give, that it is nearest and monotone, and that register patterns
and values correspond (00_scope.md R12, 20_memory.md R52). -/

namespace Sys2Proof.Machine.F64

/-! ### Whole-number rounding -/

theorem divHalfEven_bounds {n d : Nat} (hd : 0 < d) :
    2 * (divHalfEven n d * d) ≤ 2 * n + d ∧ 2 * n ≤ 2 * (divHalfEven n d * d) + d := by
  have h1 : n / d * d + n % d = n := Nat.div_add_mod' n d
  have h2 := Nat.mod_lt n hd
  have h3 : (n / d + 1) * d = n / d * d + d := Nat.succ_mul _ _
  have h4 : n / d % 2 = 0 ∨ n / d % 2 = 1 := by omega
  simp only [divHalfEven]
  split
  · omega
  · split
    · omega
    · rcases h4 with h | h <;> rw [h]
      · rw [Nat.add_zero]; omega
      · omega

/-- A whole number at most `n / d` is at most its rounding. -/
theorem le_divHalfEven {n d k : Nat} (hd : 0 < d) (h : k * d ≤ n) : k ≤ divHalfEven n d := by
  have : k ≤ n / d := (Nat.le_div_iff_mul_le hd).2 h
  simp only [divHalfEven]
  split
  · exact this
  · split <;> omega

/-- A whole number at least `n / d` is at least its rounding. -/
theorem divHalfEven_le {n d k : Nat} (hd : 0 < d) (h : n ≤ k * d) : divHalfEven n d ≤ k := by
  have hb := (divHalfEven_bounds (n := n) hd).1
  by_contra hlt
  have h3 : (k + 1) * d ≤ divHalfEven n d * d := Nat.mul_le_mul_right d (by omega)
  rw [Nat.succ_mul] at h3
  have hn : n = k * d := by omega
  have : divHalfEven n d = k := by
    simp only [divHalfEven, hn, Nat.mul_div_cancel _ hd, Nat.mul_mod_left]
    split <;> omega
  omega

theorem divHalfEven_mul {k d : Nat} (hd : 0 < d) : divHalfEven (k * d) d = k :=
  Nat.le_antisymm (divHalfEven_le hd (Nat.le_refl _)) (le_divHalfEven hd (Nat.le_refl _))

/-- Rounding to a whole number is monotone. -/
theorem divHalfEven_mono {n d n' d' : Nat} (hd : 0 < d) (hd' : 0 < d') (h : n * d' ≤ n' * d) :
    divHalfEven n d ≤ divHalfEven n' d' := by
  have hq : n / d ≤ n' / d' := by
    rw [Nat.le_div_iff_mul_le hd']
    refine Nat.le_of_mul_le_mul_right ?_ hd
    calc n / d * d' * d = n / d * d * d' := by ring
      _ ≤ n * d' := Nat.mul_le_mul_right _ (Nat.div_mul_le_self n d)
      _ ≤ n' * d := h
  have up : divHalfEven n d ≤ n / d + 1 := by simp only [divHalfEven]; split <;> [omega; (split <;> omega)]
  have down : n' / d' ≤ divHalfEven n' d' := by simp only [divHalfEven]; split <;> [omega; (split <;> omega)]
  by_contra hlt
  have hqq : n / d = n' / d' := by omega
  have h1 : n / d * d + n % d = n := Nat.div_add_mod' n d
  have h2 : n' / d' * d' + n' % d' = n' := Nat.div_add_mod' n' d'
  rw [← hqq] at h2
  have hr : n % d * d' ≤ n' % d' * d := by
    have e1 : n * d' = n / d * d * d' + n % d * d' := by rw [← Nat.add_mul, h1]
    have e2 : n' * d = n / d * d * d' + n' % d' * d := by
      conv_lhs => rw [← h2]
      ring
    omega
  have hdd : d * d' = d' * d := Nat.mul_comm _ _
  simp only [divHalfEven] at hlt
  rw [← hqq] at hlt
  have key : d ≤ 2 * (n % d) ∧ 2 * (n' % d') ≤ d' := by
    constructor
    · by_contra hc
      rw [if_pos (by omega)] at hlt
      split at hlt <;> [omega; (split at hlt <;> omega)]
    · by_contra hc
      rw [if_neg (by omega : ¬ 2 * (n' % d') < d'), if_pos (by omega : d' < 2 * (n' % d'))] at hlt
      split at hlt <;> [omega; (split at hlt <;> omega)]
  have k1 : d * d' ≤ 2 * (n % d) * d' := Nat.mul_le_mul_right _ key.1
  have k2 : 2 * (n' % d') * d ≤ d' * d := Nat.mul_le_mul_right _ key.2
  have k3 : 2 * (n % d) * d' ≤ 2 * (n' % d') * d := by
    rw [Nat.mul_assoc, Nat.mul_assoc]; exact Nat.mul_le_mul_left _ hr
  have e1 : d = 2 * (n % d) := Nat.eq_of_mul_eq_mul_right hd' (by omega)
  have e2 : 2 * (n' % d') = d' := Nat.eq_of_mul_eq_mul_right hd (by omega)
  rw [if_neg (by omega), if_neg (by omega), if_neg (by omega), if_neg (by omega)] at hlt
  omega

/-- No whole number is nearer to `n / d` than its rounding. -/
theorem divHalfEven_nearest {n d : Nat} (hd : 0 < d) (k : Nat) :
    |((divHalfEven n d * d : Nat) : Int) - n| ≤ |((k * d : Nat) : Int) - n| := by
  obtain ⟨h1, h2⟩ := divHalfEven_bounds (n := n) hd
  rcases Nat.lt_trichotomy k (divHalfEven n d) with h | rfl | h
  · have h3 : (k + 1) * d ≤ divHalfEven n d * d := Nat.mul_le_mul_right d h
    rw [Nat.succ_mul] at h3
    rw [abs_le]
    have h4 := neg_abs_le (((k * d : Nat) : Int) - n)
    have h5 := neg_le_abs (((k * d : Nat) : Int) - n)
    constructor <;> omega
  · exact le_refl _
  · have h3 : (divHalfEven n d + 1) * d ≤ k * d := Nat.mul_le_mul_right d h
    rw [Nat.succ_mul] at h3
    rw [abs_le]
    have h5 := le_abs_self (((k * d : Nat) : Int) - n)
    constructor <;> omega

/-- On a tie the rounding is even. -/
theorem divHalfEven_even_of_tie {n d k : Nat} (hd : 0 < d) (hk : k ≠ divHalfEven n d)
    (h : |((k * d : Nat) : Int) - n| = |((divHalfEven n d * d : Nat) : Int) - n|) : divHalfEven n d % 2 = 0 := by
  obtain ⟨h1, h2⟩ := divHalfEven_bounds (n := n) hd
  have h3 : n / d * d + n % d = n := Nat.div_add_mod' n d
  have h4 := Nat.mod_lt n hd
  have hs : (n / d + 1) * d = n / d * d + d := Nat.succ_mul _ _
  have apart : 2 * (divHalfEven n d * d) = 2 * n + d ∨ 2 * n = 2 * (divHalfEven n d * d) + d := by
    rcases Nat.lt_or_gt_of_ne hk with h5 | h5
    · have h6 : (k + 1) * d ≤ divHalfEven n d * d := Nat.mul_le_mul_right d h5
      rw [Nat.succ_mul] at h6
      rcases abs_eq_abs.1 h with h | h <;> omega
    · have h6 : (divHalfEven n d + 1) * d ≤ k * d := Nat.mul_le_mul_right d h5
      rw [Nat.succ_mul] at h6
      rcases abs_eq_abs.1 h with h | h <;> omega
  have tie : 2 * (n % d) = d := by
    by_contra hc
    simp only [divHalfEven] at apart
    split at apart
    · omega
    · split at apart <;> omega
  simp only [divHalfEven]
  rw [if_neg (by omega), if_neg (by omega)]
  omega

/-! ### Significands -/

/-- A number of units that 53 binary digits and a power of two make. -/
def Significand (u : Nat) : Prop := ∃ m e, m ≤ 2 ^ 53 ∧ u = m * 2 ^ e

/-- A number of units that a finite binary64 value can have. -/
def Representable (u : Nat) : Prop := Significand u ∧ magnitudeBits u < infBits

/-- The exponent that `round` takes for `n / d`. -/
def exponentOf (n d : Nat) : Nat := (n / d).log2 - 52

/-- What `round` gives before the test for overflow. -/
def roundedUnits (n d : Nat) : Nat := divHalfEven n (d * 2 ^ exponentOf n d) * 2 ^ exponentOf n d

theorem round_eq (neg : Bool) (n d : Nat) :
    round neg n d =
      if infBits ≤ exponentOf n d * 2 ^ 52 + divHalfEven n (d * 2 ^ exponentOf n d) then .inf neg
      else .fin neg (roundedUnits n d) := rfl

/-- Below the exponent's range: `n < 2^53 · d · 2^e`. -/
theorem lt_exponentOf {n d : Nat} (hd : 0 < d) : n < 2 ^ 53 * (d * 2 ^ exponentOf n d) := by
  have h1 : n / d < 2 ^ ((n / d).log2 + 1) := Nat.lt_log2_self
  have h2 : n / d < 2 ^ (53 + exponentOf n d) :=
    Nat.lt_of_lt_of_le h1 (Nat.pow_le_pow_right (by decide) (by simp only [exponentOf]; omega))
  rw [Nat.div_lt_iff_lt_mul hd, Nat.pow_add] at h2
  calc n < 2 ^ 53 * 2 ^ exponentOf n d * d := h2
    _ = 2 ^ 53 * (d * 2 ^ exponentOf n d) := by ring

/-- Above it, when the exponent is not 0. -/
theorem exponentOf_le {n d : Nat} (hd : 0 < d) (he : exponentOf n d ≠ 0) : 2 ^ 52 * (d * 2 ^ exponentOf n d) ≤ n := by
  have hne : n / d ≠ 0 := by
    intro h
    simp [exponentOf, h] at he
  have h1 : 2 ^ (n / d).log2 ≤ n / d := Nat.log2_self_le hne
  have h2 : 52 + exponentOf n d = (n / d).log2 := by simp only [exponentOf] at he ⊢; omega
  rw [← h2, Nat.pow_add, Nat.le_div_iff_mul_le hd] at h1
  calc 2 ^ 52 * (d * 2 ^ exponentOf n d) = 2 ^ 52 * 2 ^ exponentOf n d * d := by ring
    _ ≤ n := h1

theorem scaled_pos {n d : Nat} (hd : 0 < d) : 0 < d * 2 ^ exponentOf n d := Nat.mul_pos hd (by positivity)

theorem rounded_le {n d : Nat} (hd : 0 < d) : divHalfEven n (d * 2 ^ exponentOf n d) ≤ 2 ^ 53 :=
  divHalfEven_le (scaled_pos hd) (Nat.le_of_lt (lt_exponentOf hd))

theorem le_rounded {n d : Nat} (hd : 0 < d) (he : exponentOf n d ≠ 0) :
    2 ^ 52 ≤ divHalfEven n (d * 2 ^ exponentOf n d) :=
  le_divHalfEven (scaled_pos hd) (exponentOf_le hd he)

theorem roundedUnits_significand {n d : Nat} (hd : 0 < d) : Significand (roundedUnits n d) :=
  ⟨_, _, rounded_le hd, rfl⟩

/-- A significand with a lower exponent than `round` takes lies below the grid's first point. -/
theorem significand_cases {v e : Nat} (hv : Significand v) (_ : e ≠ 0) : v ≤ 2 ^ 52 * 2 ^ e ∨ ∃ k, v = k * 2 ^ e := by
  obtain ⟨m, e', hm, rfl⟩ := hv
  by_cases h : e ≤ e'
  · refine .inr ⟨m * 2 ^ (e' - e), ?_⟩
    rw [Nat.mul_assoc, ← Nat.pow_add, Nat.sub_add_cancel h]
  · refine .inl ?_
    have h1 : m * 2 ^ e' ≤ 2 ^ 53 * 2 ^ (e - 1) := Nat.mul_le_mul hm (Nat.pow_le_pow_right (by decide) (by omega))
    have h2 : 2 ^ e = 2 * 2 ^ (e - 1) := by rw [← Nat.pow_succ']; congr 1; omega
    omega

/-- A significand at most `n / d` is at most its rounding. -/
theorem le_roundedUnits {n d v : Nat} (hd : 0 < d) (hv : Significand v) (h : v * d ≤ n) : v ≤ roundedUnits n d := by
  have grid : ∀ k, k * 2 ^ exponentOf n d * d ≤ n → k * 2 ^ exponentOf n d ≤ roundedUnits n d := fun k hk =>
    Nat.mul_le_mul_right _ (le_divHalfEven (scaled_pos hd) (by linarith [Nat.mul_assoc k (2 ^ exponentOf n d) d, Nat.mul_comm d (2 ^ exponentOf n d)]))
  by_cases he : exponentOf n d = 0
  · have := grid v (by simpa [he] using h)
    simpa [he] using this
  · rcases significand_cases hv he with h1 | ⟨k, rfl⟩
    · exact Nat.le_trans h1 (Nat.mul_le_mul_right _ (le_rounded hd he))
    · exact grid k h

/-- A significand at least `n / d` is at least its rounding. -/
theorem roundedUnits_le {n d v : Nat} (hd : 0 < d) (hv : Significand v) (h : n ≤ v * d) : roundedUnits n d ≤ v := by
  have grid : ∀ k, n ≤ k * 2 ^ exponentOf n d * d → roundedUnits n d ≤ k * 2 ^ exponentOf n d := fun k hk =>
    Nat.mul_le_mul_right _ (divHalfEven_le (scaled_pos hd) (by linarith [Nat.mul_assoc k (2 ^ exponentOf n d) d, Nat.mul_comm d (2 ^ exponentOf n d)]))
  by_cases he : exponentOf n d = 0
  · have := grid v (by simpa [he] using h)
    simpa [he] using this
  · rcases significand_cases hv he with h1 | ⟨k, rfl⟩
    · have h2 := exponentOf_le hd he
      have h3 : v * d ≤ 2 ^ 52 * 2 ^ exponentOf n d * d := Nat.mul_le_mul_right d h1
      have h4 : 2 ^ 52 * (d * 2 ^ exponentOf n d) = 2 ^ 52 * 2 ^ exponentOf n d * d := by ring
      have h5 : v * d = 2 ^ 52 * 2 ^ exponentOf n d * d := by omega
      have h6 : v = 2 ^ 52 * 2 ^ exponentOf n d := Nat.eq_of_mul_eq_mul_right hd h5
      rw [h6]
      exact grid _ (by omega)
    · exact grid k h

/-- A significand is its own rounding. -/
theorem roundedUnits_exact {u d : Nat} (hd : 0 < d) (hu : Significand u) : roundedUnits (u * d) d = u :=
  Nat.le_antisymm (roundedUnits_le hd hu (Nat.le_refl _)) (le_roundedUnits hd hu (Nat.le_refl _))

/-- Rounding is monotone. -/
theorem roundedUnits_mono {n d n' d' : Nat} (hd : 0 < d) (hd' : 0 < d') (h : n * d' ≤ n' * d) :
    roundedUnits n d ≤ roundedUnits n' d' := by
  have hq : n / d ≤ n' / d' := by
    rw [Nat.le_div_iff_mul_le hd']
    refine Nat.le_of_mul_le_mul_right ?_ hd
    calc n / d * d' * d = n / d * d * d' := by ring
      _ ≤ n * d' := Nat.mul_le_mul_right _ (Nat.div_mul_le_self n d)
      _ ≤ n' * d := h
  have he : exponentOf n d ≤ exponentOf n' d' := by
    simp only [exponentOf, Nat.log2_eq_log_two]
    exact Nat.sub_le_sub_right (Nat.log_mono_right hq) 52
  rcases Nat.eq_or_lt_of_le he with he | he
  · refine Nat.mul_le_mul ?_ (Nat.le_of_eq (by rw [he]))
    refine divHalfEven_mono (scaled_pos hd) (scaled_pos hd') ?_
    rw [he]
    calc n * (d' * 2 ^ exponentOf n' d') = n * d' * 2 ^ exponentOf n' d' := by ring
      _ ≤ n' * d * 2 ^ exponentOf n' d' := Nat.mul_le_mul_right _ h
      _ = n' * (d * 2 ^ exponentOf n' d') := by ring
  · calc roundedUnits n d ≤ 2 ^ 53 * 2 ^ exponentOf n d := Nat.mul_le_mul_right _ (rounded_le hd)
      _ = 2 ^ 52 * 2 ^ (exponentOf n d + 1) := by rw [Nat.pow_succ]; ring
      _ ≤ 2 ^ 52 * 2 ^ exponentOf n' d' := Nat.mul_le_mul_left _ (Nat.pow_le_pow_right (by decide) he)
      _ ≤ roundedUnits n' d' := Nat.mul_le_mul_right _ (le_rounded hd' (by omega))

/-- No significand is nearer to `n / d` than its rounding. -/
theorem roundedUnits_nearest {n d v : Nat} (hd : 0 < d) (hv : Significand v) :
    |((roundedUnits n d * d : Nat) : Int) - n| ≤ |((v * d : Nat) : Int) - n| := by
  have e0 : ∀ k, k * 2 ^ exponentOf n d * d = k * (d * 2 ^ exponentOf n d) := fun k => by ring
  have grid : ∀ k, |((roundedUnits n d * d : Nat) : Int) - n| ≤ |((k * 2 ^ exponentOf n d * d : Nat) : Int) - n| := by
    intro k
    rw [roundedUnits, e0, e0]
    exact divHalfEven_nearest (scaled_pos hd) k
  by_cases he : exponentOf n d = 0
  · have := grid v
    simpa [he] using this
  · rcases significand_cases hv he with h1 | ⟨k, rfl⟩
    · refine le_trans (grid (2 ^ 52)) ?_
      have h2 := exponentOf_le hd he
      have h3 : v * d ≤ 2 ^ 52 * 2 ^ exponentOf n d * d := Nat.mul_le_mul_right d h1
      rw [← e0] at h2
      rw [abs_sub_comm, abs_sub_comm _ (n : Int), abs_of_nonneg (by omega), abs_of_nonneg (by omega)]
      omega
    · exact grid k

/-! ### Magnitudes and register patterns -/

theorem magnitudeBits_small {u : Nat} (h : u < 2 ^ 53) : magnitudeBits u = u := by
  have : u.log2 - 52 = 0 := by
    by_cases h0 : u = 0
    · simp [h0]
    · have := (Nat.log2_lt h0).2 h
      omega
  simp [magnitudeBits, this]

theorem magnitudeBits_normal {q e : Nat} (h1 : 2 ^ 52 ≤ q) (h2 : q < 2 ^ 53) :
    magnitudeBits (q * 2 ^ e) = e * 2 ^ 52 + q := by
  have hl : (q * 2 ^ e).log2 = 52 + e := by
    rw [Nat.log2_eq_iff (by positivity)]
    rw [Nat.pow_add _ _ 1, Nat.pow_add]
    constructor
    · exact Nat.mul_le_mul_right _ h1
    · calc q * 2 ^ e < 2 ^ 53 * 2 ^ e := Nat.mul_lt_mul_of_pos_right h2 (by positivity)
        _ = 2 ^ 52 * 2 ^ e * 2 := by ring
  simp only [magnitudeBits, hl, Nat.add_sub_cancel_left, Nat.mul_div_cancel _ (Nat.two_pow_pos e)]

/-- Every significand is small or normal. -/
theorem Significand_cases {u : Nat} (h : Significand u) :
    u < 2 ^ 52 ∨ ∃ q e, 2 ^ 52 ≤ q ∧ q < 2 ^ 53 ∧ u = q * 2 ^ e := by
  obtain ⟨m, e, hm, rfl⟩ := h
  induction e generalizing m with
  | zero =>
    rcases Nat.lt_or_ge m (2 ^ 52) with h | h
    · exact .inl (by simpa using h)
    · rcases Nat.eq_or_lt_of_le hm with rfl | h2
      · exact .inr ⟨2 ^ 52, 1, by decide, by decide, by decide⟩
      · exact .inr ⟨m, 0, h, h2, rfl⟩
  | succ e ih =>
    rcases Nat.lt_or_ge m (2 ^ 52) with h | h
    · have := ih (m * 2) (by omega)
      rwa [Nat.mul_assoc, Nat.mul_comm 2, ← Nat.pow_succ] at this
    · rcases Nat.eq_or_lt_of_le hm with rfl | h2
      · exact .inr ⟨2 ^ 52, e + 2, by decide, by decide, by rw [Nat.pow_succ, Nat.pow_succ, Nat.pow_succ]; ring⟩
      · exact .inr ⟨m, e + 1, h, h2, rfl⟩

theorem significand_one : Significand 1 := ⟨1, 0, by decide, rfl⟩

/-- Nothing of at least one unit rounds to 0. -/
theorem roundedUnits_pos {n d : Nat} (hd : 0 < d) (h : d ≤ n) : 0 < roundedUnits n d :=
  le_roundedUnits hd significand_one (by omega)

/-- The magnitude that `round` compares is the rounded number's. -/
theorem magnitudeBits_rounded {n d : Nat} (hd : 0 < d) :
    magnitudeBits (roundedUnits n d) = exponentOf n d * 2 ^ 52 + divHalfEven n (d * 2 ^ exponentOf n d) := by
  have h1 := rounded_le (n := n) hd
  simp only [roundedUnits]
  by_cases he : exponentOf n d = 0
  · simp only [he, Nat.pow_zero, Nat.mul_one, Nat.zero_mul, Nat.zero_add] at h1 ⊢
    rcases Nat.eq_or_lt_of_le h1 with h | h
    · rw [h]; decide
    · exact magnitudeBits_small h
  · have h2 := le_rounded hd he
    rcases Nat.eq_or_lt_of_le h1 with h | h
    · rw [h]
      have h3 := magnitudeBits_normal (q := 2 ^ 52) (e := exponentOf n d + 1) (by decide) (by decide)
      have h4 : 2 ^ 53 * 2 ^ exponentOf n d = 2 ^ 52 * 2 ^ (exponentOf n d + 1) := by ring
      rw [h4, h3]
      omega
    · exact magnitudeBits_normal h2 h

/-- On a tie the rounded number's pattern is even. -/
theorem magnitudeBits_rounded_even_of_tie {n d v : Nat} (hd : 0 < d) (hv : Significand v) (hne : v ≠ roundedUnits n d)
    (h : |((v * d : Nat) : Int) - n| = |((roundedUnits n d * d : Nat) : Int) - n|) :
    magnitudeBits (roundedUnits n d) % 2 = 0 := by
  have e0 : ∀ k, k * 2 ^ exponentOf n d * d = k * (d * 2 ^ exponentOf n d) := fun k => by ring
  have grid : ∀ k, v = k * 2 ^ exponentOf n d → divHalfEven n (d * 2 ^ exponentOf n d) % 2 = 0 := by
    rintro k rfl
    refine divHalfEven_even_of_tie (k := k) (scaled_pos hd) (fun hk => hne (by rw [hk, roundedUnits])) ?_
    rwa [roundedUnits, e0, e0] at h
  rw [magnitudeBits_rounded hd]
  by_cases he : exponentOf n d = 0
  · have := grid v (by simp [he])
    omega
  · rcases significand_cases hv he with h1 | ⟨k, hk⟩
    · have h2 := exponentOf_le hd he
      rw [← e0] at h2
      rcases Nat.eq_or_lt_of_le h1 with h3 | h3
      · have := grid _ h3
        omega
      · have h4 := roundedUnits_nearest (n := n) hd (v := 2 ^ 52 * 2 ^ exponentOf n d) ⟨_, _, by decide, rfl⟩
        have h5 : v * d < 2 ^ 52 * 2 ^ exponentOf n d * d := Nat.mul_lt_mul_of_pos_right h3 hd
        rw [← h, abs_sub_comm, abs_sub_comm _ (n : Int), abs_of_nonneg (by omega), abs_of_nonneg (by omega)] at h4
        omega
    · have := grid k hk
      omega

/-- `round`, by whether the rounded number is one that a finite value can have. -/
theorem round_cases (neg : Bool) {n d : Nat} (hd : 0 < d) :
    (round neg n d = .inf neg ∧ infBits ≤ magnitudeBits (roundedUnits n d)) ∨
      (round neg n d = .fin neg (roundedUnits n d) ∧ Representable (roundedUnits n d)) := by
  rw [round_eq, ← magnitudeBits_rounded hd]
  split
  · exact .inl ⟨rfl, ‹_›⟩
  · exact .inr ⟨rfl, roundedUnits_significand hd, Nat.lt_of_not_le ‹_›⟩

/-- Larger significands have larger magnitudes. -/
theorem magnitudeBits_mono {u v : Nat} (hu : Significand u) (hv : Significand v) (h : u ≤ v) :
    magnitudeBits u ≤ magnitudeBits v := by
  rcases Significand_cases hu with h1 | ⟨q, e, h1, h2, rfl⟩
  · rw [magnitudeBits_small (by omega)]
    rcases Significand_cases hv with h3 | ⟨q, e, h3, h4, rfl⟩
    · rw [magnitudeBits_small (by omega)]; exact h
    · rw [magnitudeBits_normal h3 h4]; omega
  · rw [magnitudeBits_normal h1 h2]
    rcases Significand_cases hv with h3 | ⟨q', e', h3, h4, rfl⟩
    · have : 2 ^ 52 * 1 ≤ q * 2 ^ e := Nat.mul_le_mul h1 (Nat.one_le_two_pow)
      omega
    · rw [magnitudeBits_normal h3 h4]
      rcases Nat.lt_trichotomy e e' with he | rfl | he
      · have : (e + 1) * 2 ^ 52 ≤ e' * 2 ^ 52 := Nat.mul_le_mul_right _ he
        omega
      · have := Nat.le_of_mul_le_mul_right h (Nat.two_pow_pos e)
        omega
      · exfalso
        have h5 : q' * 2 ^ e' < 2 ^ 53 * 2 ^ e' := Nat.mul_lt_mul_of_pos_right h4 (Nat.two_pow_pos _)
        have h6 : 2 ^ 52 * 2 ^ (e' + 1) ≤ q * 2 ^ e := Nat.mul_le_mul h1 (Nat.pow_le_pow_right (by decide) he)
        rw [Nat.pow_succ] at h6
        omega

/-- What a value from a register, or one that an operation made, may be. -/
inductive Valid : F64 → Prop where
  | nan (w : Word) : Valid (.nan w)
  | inf (neg : Bool) : Valid (.inf neg)
  | fin (neg : Bool) {u : Nat} (h : Representable u) : Valid (.fin neg u)

theorem toNat_withSign (neg : Bool) {m : Nat} (h : m < 2 ^ 63) : (withSign neg m).toNat = neg.toNat * 2 ^ 63 + m := by
  have h1 : BitVec.toNat (w := 1 + 63) (BitVec.ofBool neg ++ BitVec.ofNat 63 m) = neg.toNat <<< 63 ||| m % 2 ^ 63 := by
    rw [BitVec.toNat_append]; cases neg <;> rfl
  have h2 : (withSign neg m).toNat = neg.toNat <<< 63 ||| m % 2 ^ 63 := h1
  rw [h2, Nat.mod_eq_of_lt h, Nat.shiftLeft_eq, Nat.mul_comm, ← Nat.two_pow_add_eq_or_of_lt h]

theorem exponent_toNat (w : Word) : (w.extractLsb' 52 11).toNat = w.toNat / 2 ^ 52 % 2048 := by
  simp [BitVec.extractLsb'_toNat, Nat.shiftRight_eq_div_pow]

theorem fraction_toNat (w : Word) : (w.extractLsb' 0 52).toNat = w.toNat % 2 ^ 52 := by
  simp [BitVec.extractLsb'_toNat]

theorem msb_eq (w : Word) : w.msb = decide (2 ^ 63 ≤ w.toNat) := BitVec.msb_eq_decide w

/-- The value of a pattern, by its exponent field. -/
theorem ofBits_eq (w : Word) :
    ofBits w =
      if w.toNat / 2 ^ 52 % 2048 = 2047 then (if w.toNat % 2 ^ 52 = 0 then .inf w.msb else .nan w)
      else if w.toNat / 2 ^ 52 % 2048 = 0 then .fin w.msb (w.toNat % 2 ^ 52)
      else .fin w.msb ((2 ^ 52 + w.toNat % 2 ^ 52) * 2 ^ (w.toNat / 2 ^ 52 % 2048 - 1)) := by
  simp only [ofBits, exponent_toNat, fraction_toNat]

/-- The value of a pattern with a magnitude below infinity's. -/
theorem ofBits_finite {w : Word} (h : w.toNat % 2 ^ 63 < infBits) :
    ∃ u, ofBits w = .fin w.msb u ∧ Representable u ∧ magnitudeBits u = w.toNat % 2 ^ 63 := by
  have hw := w.isLt
  rw [ofBits_eq]
  simp only [infBits] at h
  rw [if_neg (by omega)]
  split
  · refine ⟨_, rfl, ⟨⟨w.toNat % 2 ^ 52, 0, by omega, by simp⟩, ?_⟩, ?_⟩ <;> rw [magnitudeBits_small (by omega)]
    · simp only [infBits]; omega
    · omega
  · have hm := magnitudeBits_normal (q := 2 ^ 52 + w.toNat % 2 ^ 52) (e := w.toNat / 2 ^ 52 % 2048 - 1) (by omega) (by omega)
    refine ⟨_, rfl, ⟨⟨_, _, ?_, rfl⟩, ?_⟩, ?_⟩
    · omega
    · rw [hm]; simp only [infBits]; omega
    · rw [hm]; omega

theorem isNanPattern_eq (w : Word) :
    isNanPattern w = decide (w.toNat / 2 ^ 52 % 2048 = 2047 ∧ w.toNat % 2 ^ 52 ≠ 0) := by
  rw [Bool.eq_iff_iff, decide_eq_true_iff]
  simp only [isNanPattern, Bool.and_eq_true, beq_iff_eq, bne_iff_ne]
  rw [← BitVec.toNat_inj, ne_eq, ← BitVec.toNat_inj, exponent_toNat, fraction_toNat]
  rfl

/-- Every pattern is a NaN's, an infinity's or a finite value's. -/
theorem ofBits_cases (w : Word) :
    (isNanPattern w = true ∧ ofBits w = .nan w) ∨
      (isNanPattern w = false ∧ w = withSign w.msb infBits ∧ ofBits w = .inf w.msb) ∨
      (isNanPattern w = false ∧ w.toNat % 2 ^ 63 < infBits ∧
        ∃ u, ofBits w = .fin w.msb u ∧ Representable u ∧ magnitudeBits u = w.toNat % 2 ^ 63) := by
  have hw := w.isLt
  have hn := isNanPattern_eq w
  by_cases h : w.toNat % 2 ^ 63 < infBits
  · refine .inr (.inr ⟨?_, h, ofBits_finite h⟩)
    rw [hn, decide_eq_false_iff_not]; simp only [infBits] at h; omega
  · have he : w.toNat / 2 ^ 52 % 2048 = 2047 := by simp only [infBits] at h; omega
    by_cases hf : w.toNat % 2 ^ 52 = 0
    · refine .inr (.inl ⟨by rw [hn, decide_eq_false_iff_not]; exact fun hc => hc.2 hf, ?_, by rw [ofBits_eq, if_pos he, if_pos hf]⟩)
      apply BitVec.eq_of_toNat_eq
      rw [toNat_withSign _ (by decide), msb_eq]
      simp only [infBits]
      by_cases hs : 2 ^ 63 ≤ w.toNat
      · rw [decide_eq_true hs, Bool.toNat_true]; omega
      · rw [decide_eq_false hs, Bool.toNat_false]; omega
    · exact .inl ⟨by rw [hn]; exact decide_eq_true ⟨he, hf⟩, by rw [ofBits_eq, if_pos he, if_neg hf]⟩

theorem ofBits_valid (w : Word) : (ofBits w).Valid := by
  rcases ofBits_cases w with ⟨-, h⟩ | ⟨-, -, h⟩ | ⟨-, -, u, h, hu, -⟩ <;> rw [h]
  · exact .nan _
  · exact .inf _
  · exact .fin _ hu

/-- A register's value has the register's pattern. -/
theorem toBits_ofBits (w : Word) : (ofBits w).toBits = w := by
  rcases ofBits_cases w with ⟨hn, h⟩ | ⟨-, hw, h⟩ | ⟨-, hlt, u, h, -, hm⟩ <;> rw [h]
  · simp [toBits, hn]
  · exact hw.symm
  · simp only [toBits, hm]
    apply BitVec.eq_of_toNat_eq
    simp only [infBits] at hlt
    rw [toNat_withSign _ (by omega), msb_eq]
    have hw := w.isLt
    by_cases hs : 2 ^ 63 ≤ w.toNat
    · rw [decide_eq_true hs, Bool.toNat_true]; omega
    · rw [decide_eq_false hs, Bool.toNat_false]; omega

theorem magnitudeBits_inj {u v : Nat} (hu : Significand u) (hv : Significand v) (h : magnitudeBits u = magnitudeBits v) :
    u = v := by
  rcases Significand_cases hu with h1 | ⟨q, e, h1, h2, rfl⟩ <;>
    rcases Significand_cases hv with h3 | ⟨q', e', h3, h4, rfl⟩
  · rwa [magnitudeBits_small (by omega), magnitudeBits_small (by omega)] at h
  · rw [magnitudeBits_small (by omega), magnitudeBits_normal h3 h4] at h; omega
  · rw [magnitudeBits_small (by omega : v < 2 ^ 53), magnitudeBits_normal h1 h2] at h; omega
  · rw [magnitudeBits_normal h1 h2, magnitudeBits_normal h3 h4] at h
    have : e = e' := by omega
    subst this
    rw [show q = q' by omega]

/-- Half a unit in the last place above the largest finite value, in units of 2^-1074: 2^1024 − 2^970. -/
def overflowUnits : Nat := (2 ^ 54 - 1) * 2 ^ 2044

/-- `round` gives an infinity from `overflowUnits` on. -/
theorem infBits_le_rounded {n d : Nat} (hd : 0 < d) :
    infBits ≤ magnitudeBits (roundedUnits n d) ↔ overflowUnits * d ≤ n := by
  have top : Significand (2 ^ 53 * 2 ^ 2045) := ⟨_, _, Nat.le_refl _, rfl⟩
  have topBits : magnitudeBits (2 ^ 53 * 2 ^ 2045) = infBits := by decide +kernel
  have max : Significand ((2 ^ 53 - 1) * 2 ^ 2045) := ⟨_, _, by decide, rfl⟩
  have half : overflowUnits * 2 = (2 ^ 53 - 1) * 2 ^ 2045 + 2 ^ 53 * 2 ^ 2045 := by decide +kernel
  have order : (2 ^ 53 - 1) * 2 ^ 2045 < 2 ^ 53 * 2 ^ 2045 := by decide +kernel
  have up : roundedUnits overflowUnits 1 = 2 ^ 53 * 2 ^ 2045 := by decide +kernel
  generalize (2 ^ 53 : Nat) * 2 ^ 2045 = T at top topBits half order up
  generalize ((2 ^ 53 - 1 : Nat)) * 2 ^ 2045 = M at max half order
  constructor
  · intro h
    by_contra hc
    have hge : T ≤ roundedUnits n d := by
      by_contra hlt
      have h1 := magnitudeBits_mono (roundedUnits_significand hd) top (by omega : roundedUnits n d ≤ T)
      have := magnitudeBits_inj (roundedUnits_significand (n := n) hd) top (by omega)
      omega
    have near := roundedUnits_nearest (n := n) hd max
    have h1 : T * d ≤ roundedUnits n d * d := Nat.mul_le_mul_right d hge
    have h2 : M * d < T * d := Nat.mul_lt_mul_of_pos_right order hd
    have h3 : overflowUnits * d * 2 = M * d + T * d := by rw [← Nat.add_mul, ← half]; ring
    rw [abs_of_nonneg (by omega), le_abs] at near
    omega
  · intro h
    rw [← topBits, ← up]
    exact magnitudeBits_mono (roundedUnits_significand Nat.one_pos) (roundedUnits_significand hd)
      (roundedUnits_mono Nat.one_pos hd (by omega))

/-- A finite value that an operation made is the value of its pattern. -/
theorem ofBits_toBits_fin (neg : Bool) {u : Nat} (hu : Representable u) : ofBits (toBits (.fin neg u)) = .fin neg u := by
  have hlt : magnitudeBits u < 2 ^ 63 := Nat.lt_trans hu.2 (by decide)
  have hn := toNat_withSign neg hlt
  have hs : (withSign neg (magnitudeBits u)).msb = neg := by
    rw [msb_eq, hn]
    cases neg
    · simp; omega
    · simp
  have hm : (withSign neg (magnitudeBits u)).toNat % 2 ^ 63 = magnitudeBits u := by
    rw [hn]; cases neg <;> simp <;> omega
  obtain ⟨v, h1, h2, h3⟩ := ofBits_finite (w := withSign neg (magnitudeBits u)) (by rw [hm]; exact hu.2)
  simp only [toBits]
  rw [h1, hs, magnitudeBits_inj h2.1 hu.1 (h3.trans hm)]

theorem ofBits_toBits_inf (neg : Bool) : ofBits (toBits (.inf neg)) = .inf neg := by cases neg <;> decide

theorem isNanPattern_toBits_nan (w : Word) : isNanPattern (toBits (.nan w)) = true := by
  simp only [toBits]
  split
  · assumption
  · rw [isNanPattern]
    have h1 : (w ||| 0x7FF8000000000000).extractLsb' 52 11 = 0x7FF#11 := by
      ext k hk; interval_cases k <;> simp
    have h2 : (w ||| 0x7FF8000000000000).extractLsb' 0 52 ≠ 0#52 := by
      intro h
      have := congrArg (·.getLsbD 51) h
      simp at this
    rw [Bool.and_eq_true, beq_iff_eq, bne_iff_ne]
    exact ⟨h1, h2⟩

/-- Finiteness survives a register. -/
theorem finite_ofBits_toBits {v : F64} (h : v.Valid) : (ofBits v.toBits).finite = v.finite := by
  cases h with
  | nan w =>
    rcases ofBits_cases (toBits (.nan w)) with ⟨-, h⟩ | ⟨hn, -⟩ | ⟨hn, -⟩
    · rw [h]; rfl
    · rw [isNanPattern_toBits_nan] at hn; cases hn
    · rw [isNanPattern_toBits_nan] at hn; cases hn
  | inf neg => rw [ofBits_toBits_inf]
  | fin neg h => rw [ofBits_toBits_fin neg h]

/-- A value that is no NaN survives a register. -/
theorem ofBits_toBits {v : F64} (h : v.Valid) (hn : ∀ w, v ≠ .nan w) : ofBits v.toBits = v := by
  cases h with
  | nan w => exact absurd rfl (hn w)
  | inf neg => exact ofBits_toBits_inf neg
  | fin neg h => exact ofBits_toBits_fin neg h

/-- Only a NaN is written with a NaN's pattern. -/
theorem isNanPattern_toBits_fin (neg : Bool) {u : Nat} (hu : Representable u) : isNanPattern (toBits (.fin neg u)) = false := by
  rcases ofBits_cases (toBits (.fin neg u)) with ⟨-, h⟩ | ⟨h, -⟩ | ⟨h, -⟩
  · rw [ofBits_toBits_fin neg hu] at h; cases h
  · exact h
  · exact h

/-! ### What the operations give -/

theorem round_valid (neg : Bool) {n d : Nat} (hd : 0 < d) : (round neg n d).Valid := by
  rcases round_cases neg (n := n) hd with ⟨h, -⟩ | ⟨h, hr⟩ <;> rw [h]
  · exact .inf _
  · exact .fin _ hr

theorem representable_zero : Representable 0 := ⟨⟨0, 0, by decide, rfl⟩, by decide⟩

theorem units_pos : 0 < one := by unfold one; positivity

theorem addFinite_valid (na : Bool) (ua : Nat) (nb : Bool) (ub : Nat) : (addFinite na ua nb ub).Valid := by
  unfold addFinite
  split
  · exact round_valid _ Nat.one_pos
  · split
    · exact round_valid _ Nat.one_pos
    · split
      · exact round_valid _ Nat.one_pos
      · exact .fin _ representable_zero

theorem addAs_valid (op : FloatOp) (a b b' : F64) : (addAs op a b b').Valid := by
  unfold addAs
  split
  · exact .nan _
  · exact .nan _
  · split <;> constructor
  · exact .inf _
  · exact .inf _
  · exact addFinite_valid _ _ _ _

theorem fadd_valid (a b : F64) : (fadd a b).Valid := addAs_valid _ _ _ _

theorem fsub_valid (a b : F64) : (fsub a b).Valid := addAs_valid _ _ _ _

theorem fmul_valid (a b : F64) : (fmul a b).Valid := by
  unfold fmul
  split
  · exact .nan _
  · exact .nan _
  · exact .inf _
  · split <;> constructor
  · split <;> constructor
  · exact round_valid _ units_pos

theorem fdiv_valid (a b : F64) : (fdiv a b).Valid := by
  unfold fdiv
  split
  · exact .nan _
  · exact .nan _
  · exact .nan _
  · exact .inf _
  · exact .fin _ representable_zero
  · split
    · split <;> constructor
    · exact round_valid _ (Nat.pos_of_ne_zero ‹_›)

theorem significand_units {m : Nat} (h : m ≤ 2 ^ 53) : Significand (m * one) := ⟨m, 1074, h, by rw [one]⟩

theorem magnitudeBits_units_lt : magnitudeBits (2 ^ 53 * one) < infBits := by decide +kernel

/-- An integer of at most 53 bits converts exactly. -/
theorem ofInt_valid {k : Int} (h : k.natAbs ≤ 2 ^ 53) : (ofInt k).Valid :=
  .fin _ ⟨significand_units h, Nat.lt_of_le_of_lt
    (magnitudeBits_mono (significand_units h) (significand_units (Nat.le_refl _)) (Nat.mul_le_mul_right _ h))
    magnitudeBits_units_lt⟩

end Sys2Proof.Machine.F64
end

