-- ==== Sys2Proof/Laws/Heading.lean ====
section
/-! SUPPORT. The angle of HEADING, once (42_heading.md R137, R141 to R144, R146): the constants as numbers of units, what `atan2`
answers within PI64, that the wraps bring a sum within 2 · PI64 into range, and the ranges of degrees and minutes. -/

namespace Sys2Proof.Machine

open F64

/-! ### Values as numbers of units -/

theorem signedUnits_false (u : Nat) : signedUnits false u = u := rfl

theorem signedUnits_true (u : Nat) : signedUnits true u = -u := rfl

theorem signedUnits_true_zero : signedUnits true 0 = 0 := rfl

theorem lt_fin (a b c d) : F64.lt (.fin a b) (.fin c d) = true ↔ signedUnits a b < signedUnits c d := decide_eq_true_iff

theorem eq_fin (a b c d) : F64.eq (.fin a b) (.fin c d) = true ↔ signedUnits a b = signedUnits c d := decide_eq_true_iff

theorem ge_fin (a b c d) : F64.ge (.fin a b) (.fin c d) = true ↔ signedUnits c d ≤ signedUnits a b := by
  rw [F64.ge, Bool.or_eq_true, lt_fin, eq_fin]
  omega

theorem finite_cases {v : F64} (h : v.finite = true) : ∃ n u, v = .fin n u := by
  cases v <;> simp [finite] at h ⊢

/-- A pattern equals zero exactly when it is one of the two zeros. -/
theorem eq_zero_iff (w : Word) : F64.eq (ofBits w) (.fin false 0) = true ↔ (w = 0 ∨ w = 0x8000000000000000) := by
  constructor
  · intro h
    cases hw : ofBits w with
    | nan x => rw [hw] at h; simp [F64.eq] at h
    | inf n => rw [hw] at h; simp [F64.eq] at h
    | fin n u =>
      rw [hw] at h
      simp only [F64.eq, signedUnits] at h
      have hu : u = 0 := by cases n <;> simp at h <;> omega
      have := toBits_ofBits w
      rw [hw, hu] at this
      cases n
      · left; rw [← this]; decide
      · right; rw [← this]; decide
  · rintro (rfl | rfl) <;> decide

theorem round_zero (neg : Bool) {d : Nat} (hd : 0 < d) : round neg 0 d = .fin neg 0 := by
  have : roundedUnits 0 d = 0 := by simp [roundedUnits, divHalfEven]
  rcases round_cases neg (n := 0) hd with ⟨h1, h2⟩ | ⟨h1, -⟩
  · rw [this] at h2; exact absurd h2 (by decide)
  · rw [h1, this]

/-- Rounding below a representable bound is finite. -/
theorem round_fin (neg : Bool) {n d B : Nat} (hd : 0 < d) (hB : Significand B) (h : roundedUnits n d ≤ B) (hlt : magnitudeBits B < infBits) :
    round neg n d = .fin neg (roundedUnits n d) := by
  rcases round_cases neg (n := n) hd with ⟨h1, h2⟩ | ⟨h1, h2⟩
  · have := magnitudeBits_mono (roundedUnits_significand hd) hB h; omega
  · exact h1

theorem fmul_fin' (na ua nb ub) : fmul (.fin na ua) (.fin nb ub) = round (na ^^ nb) (ua * ub) one := rfl

theorem fdiv_fin' (na ua nb ub) (h : ub ≠ 0) : fdiv (.fin na ua) (.fin nb ub) = round (na ^^ nb) (ua * one) ub := by simp [fdiv, h]

/-! ### The constants -/

/-- PI64 as a number of units. -/
@[irreducible] def P0 : Nat := (2 ^ 52 + 0x921FB54442D18) * 2 ^ 0x3FF

/-- The greatest significand below 2 · PI64. -/
def Q0 : Nat := (2 ^ 52 + 0x921FB54442D17) * 2 ^ 0x400

/-- Half of PI64 as a number of units. -/
@[irreducible] def H0 : Nat := (2 ^ 52 + 0x921FB54442D18) * 2 ^ 0x3FE

theorem pi_eq : ofBits 0x400921FB54442D18 = .fin false P0 := by decide +kernel
theorem twopi_eq : ofBits 0x401921FB54442D18 = .fin false (2*P0) := by decide +kernel
theorem npi_eq : ofBits 0xC00921FB54442D18 = .fin true P0 := by decide +kernel
theorem c180_eq : ofBits 0x4066800000000000 = .fin false (180*one) := by decide +kernel
theorem c60_eq : ofBits 0x404E000000000000 = .fin false (60*one) := by decide +kernel
theorem P0_pos : 0 < P0 := by decide +kernel
theorem P0_sig : Significand P0 := by
  unfold P0
  generalize (0x3FF : Nat) = e
  exact ⟨2 ^ 52 + 0x921FB54442D18, e, by norm_num, rfl⟩
theorem two_P0 : 2*P0 = (2^52 + 0x921FB54442D18) * 2^0x400 := by decide +kernel
theorem twoP0_sig : Significand (2*P0) := by
  rw [two_P0]; generalize (0x400 : Nat) = e
  exact ⟨2^52 + 0x921FB54442D18, e, by norm_num, rfl⟩

theorem sig_lt {u : Nat} (hu : Significand u) (h : u < 2*P0) : u ≤ Q0 := by
  have e : 2*P0 = (2^52 + 0x921FB54442D18) * 2^0x400 := two_P0
  rw [e] at h
  rw [Q0]
  have he : (0x400 : Nat) ≠ 0 := by norm_num
  generalize (0x400 : Nat) = e at *
  rcases significand_cases hu he with h1 | ⟨k, rfl⟩
  · refine h1.trans (Nat.mul_le_mul_right _ (by norm_num))
  · have := Nat.lt_of_mul_lt_mul_right h
    exact Nat.mul_le_mul_right _ (by omega)
theorem deg_max : roundedUnits (roundedUnits (Q0 * (180*one)) one * one) P0 < 360 * one := by decide +kernel
theorem c360_lt : magnitudeBits (360*one) < infBits := by decide +kernel
theorem big_lt : magnitudeBits (roundedUnits (Q0 * (180*one)) one) < infBits := by decide +kernel

theorem one_sig : Significand one := by simpa using significand_units (m := 1) (by norm_num)
theorem one_lt : magnitudeBits one < infBits := by decide +kernel
theorem sixty_lt : magnitudeBits (60*one) < infBits := by decide +kernel

theorem P0_lt : magnitudeBits P0 < infBits := by decide +kernel
theorem twoP0_lt : magnitudeBits (2*P0) < infBits := by decide +kernel

theorem half_eq' : ofBits Config.halfPi64 = .fin false H0 := by decide +kernel
theorem H0_le : H0 ≤ P0 := by decide +kernel
theorem H0_pos : 0 < H0 := by decide +kernel

theorem half_spec : ∃ v, ofBits Config.halfPi64 = .fin false v ∧ v ≤ P0 ∧ Representable v ∧ 0 < v := by
  refine ⟨_, half_eq', H0_le, ?_, H0_pos⟩
  have := ofBits_valid Config.halfPi64; rw [half_eq'] at this
  generalize H0 = q at this
  cases this; assumption

/-! ### Degrees and minutes (R143, R144) -/

/-- An angle in range is a finite value from +0 or −0 to below 2 · PI64. -/
theorem inRange {a : F64} (h : angleInRange a = true) : ∃ n u, a = .fin n u ∧ (n = true → u = 0) ∧ u < 2*P0 := by
  simp only [angleInRange, Bool.and_eq_true] at h
  have h2 : F64.lt a (.fin false (2*P0)) = true := by rw [← twopi_eq]; exact h.2
  have h1 := h.1
  cases a with
  | nan w => simp [F64.lt] at h2
  | inf n => cases n <;> simp [F64.lt, F64.ge, F64.eq] at h1 h2
  | fin n u =>
    refine ⟨n, u, rfl, ?_, ?_⟩
    · rintro rfl
      simp [F64.ge, F64.lt, F64.eq, signedUnits] at h1; omega
    · simp only [F64.lt, decide_eq_true_eq] at h2
      cases n with
      | false => simp only [signedUnits, Bool.false_eq_true, if_false] at h2; omega
      | true =>
        simp [F64.ge, F64.lt, F64.eq, signedUnits] at h1
        have := P0_pos; omega

/-- R143: the degrees of an angle in range lie in [0, 360). -/
theorem deg_ok {n : Bool} {u : Nat} (hu : Significand u) (hn : n = true → u = 0) (h : u < 2*P0) :
    ∃ g, angleDegrees (.fin n u) = .fin n g ∧ (n = true → g = 0) ∧ g < 360 * one ∧ Significand g := by
  have hq := sig_lt hu h
  have e1 : roundedUnits (u * (180*one)) one ≤ roundedUnits (Q0 * (180*one)) one :=
    roundedUnits_mono units_pos units_pos (Nat.mul_le_mul_right _ (Nat.mul_le_mul_right _ hq))
  have e2 : roundedUnits (roundedUnits (u * (180*one)) one * one) P0 < 360 * one :=
    Nat.lt_of_le_of_lt (roundedUnits_mono P0_pos P0_pos (Nat.mul_le_mul_right _ (Nat.mul_le_mul_right _ e1))) deg_max
  refine ⟨roundedUnits (roundedUnits (u * (180*one)) one * one) P0, ?_, ?_, e2, roundedUnits_significand P0_pos⟩
  · show fdiv (fmul (.fin n u) (ofBits 0x4066800000000000)) (ofBits 0x400921FB54442D18) = _
    rw [c180_eq, pi_eq, fmul_fin', round_fin _ units_pos (roundedUnits_significand units_pos) e1 big_lt, fdiv_fin' _ _ _ _ P0_pos.ne',
      round_fin _ P0_pos (significand_units (m := 360) (by norm_num)) e2.le c360_lt]
    cases n <;> rfl
  · intro ht
    rw [hn ht]
    have z : ∀ d, roundedUnits 0 d = 0 := fun d => by simp [roundedUnits, divHalfEven]
    rw [Nat.zero_mul, z, Nat.zero_mul, z]

/-- R143, R144: the ranges of degrees and minutes. -/
theorem dm_ok {carry : Bool} {a : F64} (hv : a.Valid) (h : angleInRange a = true) :
    ∃ d m : Int, degreesMinutes carry a = (d, m) ∧ 0 ≤ d ∧ d ≤ 359 ∧ 0 ≤ m ∧ m ≤ 60 ∧ (m = 60 → carry = false) := by
  obtain ⟨n, u, rfl, hn, hlt⟩ := inRange h
  have hu : Significand u := by cases hv with | fin _ h => exact h.1
  obtain ⟨g, hg, hgn, hgl, hgs⟩ := deg_ok hu hn hlt
  have hone := units_pos
  -- floor
  obtain ⟨D, hD, hD1, hD2⟩ : ∃ D : Nat, F64.floor (.fin n g) = D ∧ D * one ≤ g ∧ g < (D+1) * one := by
    refine ⟨g / one, ?_, Nat.div_mul_le_self _ _, ?_⟩
    · simp only [F64.floor]
      cases n with
      | false => rw [signedUnits_false]; exact (Int.natCast_ediv _ _).symm
      | true => rw [hgn rfl, signedUnits_true_zero, Nat.zero_div]; exact Int.zero_ediv _
    · rw [Nat.succ_mul]; exact Nat.lt_div_mul_add hone
  have hD3 : D ≤ 359 := by
    by_contra hc
    have := Nat.mul_le_mul_right one (show 360 ≤ D by omega)
    omega
  -- minutes
  obtain ⟨m, hm, hm60⟩ : ∃ m : Nat, angleMinutes (.fin n g) D = m ∧ m ≤ 60 := by
    have hi : ofInt (D : Int) = .fin false (D * one) := by
      rw [ofInt, Int.natAbs_natCast, decide_eq_false (by omega)]
    obtain ⟨n2, x, hx, hx1, hxn⟩ : ∃ n2 x, fsub (.fin n g) (ofInt D) = .fin n2 x ∧ x ≤ one ∧ (n2 = true → x = 0) := by
      rw [hi]
      simp only [fsub, negate, addAs, addFinite, Bool.not_false]
      cases n with
      | true =>
        have hg0 := hgn rfl
        have hD0 : D = 0 := by
          rcases Nat.eq_zero_or_pos D with h | h
          · exact h
          · have := Nat.mul_le_mul_right one h; omega
        subst hg0; subst hD0
        refine ⟨true, 0, ?_, Nat.zero_le _, fun _ => rfl⟩
        simp only [if_true, Nat.zero_mul, Nat.add_zero]
        exact round_zero _ Nat.one_pos
      | false =>
        simp only [Bool.false_eq_true, if_false]
        split
        · have hle : roundedUnits (g - D*one) 1 ≤ one := roundedUnits_le Nat.one_pos one_sig (by rw [Nat.succ_mul] at hD2; omega)
          exact ⟨false, _, round_fin _ Nat.one_pos one_sig hle one_lt, hle, fun h => by cases h⟩
        · split
          · omega
          · exact ⟨false, 0, rfl, Nat.zero_le _, fun _ => rfl⟩
    have hle : roundedUnits (x * (60*one)) one ≤ 60*one := by
      refine roundedUnits_le units_pos (significand_units (by norm_num)) ?_
      calc x * (60*one) ≤ one * (60*one) := Nat.mul_le_mul_right _ hx1
        _ = 60*one*one := Nat.mul_comm _ _
    refine ⟨divHalfEven (roundedUnits (x * (60*one)) one) one, ?_, divHalfEven_le units_pos hle⟩
    show F64.roundHalfEven (fmul (fsub (.fin n g) (ofInt D)) (ofBits 0x404E000000000000)) = _
    rw [hx, c60_eq, fmul_fin', round_fin _ units_pos (significand_units (by norm_num)) hle sixty_lt]
    simp only [F64.roundHalfEven]
    cases n2 with
    | false => exact signedUnits_false _
    | true =>
      rw [hxn rfl]
      have z : ∀ d, roundedUnits 0 d = 0 := fun d => by simp [roundedUnits, divHalfEven]
      have z2 : ∀ d, divHalfEven 0 d = 0 := fun d => by simp [divHalfEven]
      rw [Nat.zero_mul, z, z2]; exact signedUnits_true_zero
  simp only [degreesMinutes, hg, hD, hm, minuteCarry]
  by_cases hc : (m : Int) = 60 ∧ carry = true
  · rw [if_pos hc]
    refine ⟨_, _, rfl, ?_, ?_, by norm_num, by norm_num, by norm_num⟩ <;> split <;> omega
  · rw [if_neg hc]
    refine ⟨_, _, rfl, by omega, by omega, by omega, by omega, fun h => ?_⟩
    by_contra hx
    exact hc ⟨h, by simpa using hx⟩

theorem wrap_valid {a : F64} (h : a.Valid) : (wrapAngle a).Valid := by
  unfold wrapAngle
  dsimp only
  repeat' split
  all_goals first | exact fsub_valid _ _ | exact fadd_valid _ _ | exact h

/-! ### The arctangent (R137) and the wraps (R141, R146) -/

/-- An enclosure decides where both of its ends round alike. -/
theorem nearest_spec {p : Nat} {a : Enclosure} {r : F64} (h : a.nearest p = some r) :
    F64.round false (a.lo.toNat * F64.one) (2 ^ p) = r ∧ F64.round false (a.hi.toNat * F64.one) (2 ^ p) = r := by
  unfold Enclosure.nearest at h
  generalize F64.round false (a.lo.toNat * F64.one) (2 ^ p) = low at h ⊢
  generalize F64.round false (a.hi.toNat * F64.one) (2 ^ p) = high at h ⊢
  dsimp only at h
  split at h
  · rename_i e; exact ⟨Option.some.inj h, e ▸ Option.some.inj h⟩
  · cases h

/-- An angle the ladder decides comes from an enclosure at one of its precisions. -/
theorem nearestAngle_spec {xNeg : Bool} {n d : Nat} {r : F64} (h : nearestAngle xNeg n d = some r) :
    ∃ p, (angleEnclosure p xNeg n d).nearest p = some r := by
  unfold nearestAngle at h
  exact (List.exists_of_findSome?_eq_some h).elim fun p hp => ⟨p, hp.2⟩

theorem nearestAngle_valid {xNeg : Bool} {n d : Nat} {r : F64} (h : nearestAngle xNeg n d = some r) : r.Valid :=
  (nearestAngle_spec h).elim fun p hp => (nearest_spec hp).1 ▸ round_valid _ (Nat.two_pow_pos p)

/-- The default unit on two finite values: the nearest angle with the sign of y. -/
theorem rawAtan2_correctlyRounded_fin (ny : Bool) (uy : Nat) (nx : Bool) (ux : Nat) :
    rawAtan2 .correctlyRounded (.fin ny uy) (.fin nx ux) =
      signedAngle ny (nearestAngle nx uy ux) (undecidedAngle (.fin ny uy) (.fin nx ux)) := rfl

theorem signedAngle_valid (neg : Bool) {a : Option F64} {v : F64} (ha : ∀ r, a = some r → r.Valid) (hv : v.Valid) :
    (signedAngle neg a v).Valid := by
  unfold signedAngle
  split
  · exact hv
  · exact hv
  · exact hv
  · cases ha _ rfl; rename_i h; exact .fin _ h

theorem correctlyRoundedAtan2_valid (y x : F64) : (correctlyRoundedAtan2 y x).Valid := by
  unfold correctlyRoundedAtan2
  split
  · exact signedAngle_valid _ (fun _ h => nearestAngle_valid h) (ofBits_valid _)
  · exact ofBits_valid _

theorem rawAtan2_valid (unit : Atan2Unit) (y x : F64) : (rawAtan2 unit y x).Valid := by
  cases unit with
  | correctlyRounded => exact correctlyRoundedAtan2_valid y x
  | other n => exact ofBits_valid _

/-- P1 for every unit: a representable angle of at most PI64, and never −0. -/
theorem atan2_spec (unit : Atan2Unit) (y x : Word) (hy : (ofBits y).finite = true) (hx : (ofBits x).finite = true)
    (hne : ¬ (F64.eq (ofBits y) (.fin false 0) = true ∧ F64.eq (ofBits x) (.fin false 0) = true)) :
    ∃ n u, atan2 unit (ofBits y) (ofBits x) = .fin n u ∧ u ≤ P0 ∧ Representable u ∧ (n = true → 0 < u) := by
  obtain ⟨ny, uy, ey⟩ := finite_cases hy
  obtain ⟨nx, ux, ex⟩ := finite_cases hx
  rw [ey, ex] at hne ⊢
  unfold atan2
  dsimp only
  have hpi : ofBits Config.pi64 = .fin false P0 := pi_eq
  by_cases h1 : F64.eq (.fin ny uy) (.fin false 0) = true
  · rw [if_pos h1]
    have h2 : ¬ F64.eq (.fin nx ux) (.fin false 0) = true := fun h => hne ⟨h1, h⟩
    by_cases h3 : F64.lt (.fin false 0) (.fin nx ux) = true
    · rw [if_pos h3]; exact ⟨false, 0, rfl, Nat.zero_le _, representable_zero, by decide⟩
    · rw [if_neg h3]
      have h4 : F64.lt (.fin nx ux) (.fin false 0) = true := by
        rw [lt_fin] at *; rw [eq_fin] at *; omega
      rw [if_pos h4, hpi]; exact ⟨false, P0, rfl, Nat.le_refl _, ⟨P0_sig, P0_lt⟩, by decide⟩
  · rw [if_neg h1]
    by_cases h2 : F64.eq (.fin nx ux) (.fin false 0) = true
    · rw [if_pos h2]
      obtain ⟨v, hv1, hv2, hv3, hv4⟩ := half_spec
      rw [hv1]
      split
      · exact ⟨true, v, rfl, hv2, hv3, fun _ => hv4⟩
      · exact ⟨false, v, rfl, hv2, hv3, fun h => by cases h⟩
    · rw [if_neg h2]
      have hraw := rawAtan2_valid unit (.fin ny uy) (.fin nx ux)
      split
      · rename_i ha
        cases hr : rawAtan2 unit (.fin ny uy) (.fin nx ux) with
        | nan w => rw [hr] at ha; simp [angleAllowed] at ha
        | inf n => rw [hr] at ha; simp [angleAllowed] at ha
        | fin n u =>
          rw [hr] at ha hraw
          rw [angleAllowed, hpi] at ha
          rw [Bool.and_eq_true, Bool.and_eq_true, beq_iff_eq, bne_iff_ne, Bool.not_eq_true', ← Bool.not_eq_true, lt_fin, signedUnits_false, signedUnits_false] at ha
          refine ⟨n, u, rfl, by omega, ?_, fun _ => by omega⟩
          cases hraw; assumption
      · refine ⟨_, 1, rfl, P0_pos, ⟨significand_one, by decide⟩, fun _ => Nat.one_pos⟩

theorem canonicalZero_bits (w : Word) : ∃ w', canonicalZero (ofBits w) = ofBits w' ∧ (ofBits w').finite = (ofBits w).finite ∧
    F64.eq (ofBits w') (.fin false 0) = F64.eq (ofBits w) (.fin false 0) := by
  unfold canonicalZero
  split
  · rename_i h
    refine ⟨0, by decide, ?_, ?_⟩
    · rcases (eq_zero_iff w).1 h with rfl | rfl <;> decide
    · rw [h]; decide
  · exact ⟨w, rfl, rfl, rfl⟩

theorem fadd_within {na ua nb ub} (h1 : ua ≤ P0) (h2 : ub ≤ P0) : ∃ n u, fadd (.fin na ua) (.fin nb ub) = .fin n u ∧ u ≤ 2*P0 := by
  have key : ∀ neg x, x ≤ 2*P0 → ∃ n u, round neg x 1 = .fin n u ∧ u ≤ 2*P0 := by
    intro neg x hx
    have hle : roundedUnits x 1 ≤ 2*P0 := roundedUnits_le Nat.one_pos twoP0_sig (by omega)
    exact ⟨_, _, round_fin neg Nat.one_pos twoP0_sig hle twoP0_lt, hle⟩
  simp only [fadd, addAs, addFinite]
  split
  · exact key _ _ (by omega)
  · split
    · exact key _ _ (by omega)
    · split
      · exact key _ _ (by omega)
      · exact ⟨_, _, rfl, Nat.zero_le _⟩

/-- `atan2` of two finite values, by which of them are zero. -/
theorem atan2_cases (unit : Atan2Unit) (ny uy nx ux) :
    atan2 unit (.fin ny uy) (.fin nx ux) =
      if uy = 0 then (if ux = 0 then rawAtan2 unit (.fin ny uy) (.fin nx ux) else if nx then ofBits Config.pi64 else .fin false 0)
      else if ux = 0 then (if ny then (ofBits Config.halfPi64).negate else ofBits Config.halfPi64)
      else if angleAllowed ny (rawAtan2 unit (.fin ny uy) (.fin nx ux)) then rawAtan2 unit (.fin ny uy) (.fin nx ux) else .fin ny 1 := by
  have e0 : ∀ n u, (F64.eq (.fin n u) (.fin false 0) = true) = (u = 0) := by
    intro n u; rw [eq_iff_iff, eq_fin, signedUnits_false]; cases n <;> simp only [signedUnits_false, signedUnits_true] <;> omega
  have e1 : ∀ n u, (F64.lt (.fin n u) (.fin false 0) = true) = (n = true ∧ u ≠ 0) := by
    intro n u; rw [eq_iff_iff, lt_fin, signedUnits_false]; cases n <;> simp [signedUnits_false, signedUnits_true]; omega
  have e2 : ∀ n u, (F64.lt (.fin false 0) (.fin n u) = true) = (n = false ∧ u ≠ 0) := by
    intro n u; rw [eq_iff_iff, lt_fin, signedUnits_false]; cases n <;> simp [signedUnits_false, signedUnits_true]; omega
  unfold atan2
  generalize rawAtan2 unit (.fin ny uy) (.fin nx ux) = raw
  simp only [e0, e1, e2]
  by_cases hy : uy = 0
  · rw [if_pos hy, if_pos hy]
    by_cases hx : ux = 0
    · simp [hx]
    · cases nx <;> simp [hx]
  · rw [if_neg hy, if_neg hy]
    have : F64.lt (.fin ny uy) (.fin false 0) = ny := by
      rw [Bool.eq_iff_iff, e1]; simp [hy]
    simp only [this, hy, ne_eq, not_false_eq_true, and_true]

/-- R146: a sum within 2 · PI64 is in range after the two wraps. -/
theorem wrap_inRange {n u} (hu : u ≤ 2*P0) : angleInRange (wrapAngle (.fin n u)) = true := by
  have tp : ofBits Config.twoPi64 = .fin false (2*P0) := twopi_eq
  have hp := P0_pos
  -- second stage
  have st2 : ∀ v, v ≤ 2*P0 → ∀ n2 : Bool, (n2 = true → v = 0) → angleInRange (if F64.ge (.fin n2 v) (ofBits Config.twoPi64) then fsub (.fin n2 v) (ofBits Config.twoPi64) else .fin n2 v) = true := by
    intro v hv n2 hn2
    rw [tp]
    simp only [ge_fin]
    have sv : signedUnits n2 v = v := by cases n2 with | false => rfl | true => rw [hn2 rfl]; rfl
    rw [sv, signedUnits_false]
    by_cases h : ((2*P0 : Nat) : Int) ≤ v
    · rw [if_pos h]
      have e : v = 2*P0 := by omega
      have en : n2 = false := by cases n2 with | false => rfl | true => have := hn2 rfl; omega
      subst e; subst en
      have : fsub (.fin false (2*P0)) (.fin false (2*P0)) = .fin false 0 := by
        simp only [fsub, negate, addAs, addFinite, Bool.not_false, Bool.false_eq_true, if_false, Nat.lt_irrefl]
      rw [this]; 
      rw [angleInRange, tp, Bool.and_eq_true, ge_fin, lt_fin, signedUnits_false, signedUnits_false]; omega
    · rw [if_neg h]
      rw [angleInRange, tp, Bool.and_eq_true, ge_fin, lt_fin, sv, signedUnits_false, signedUnits_false]; omega
  unfold wrapAngle
  dsimp only
  by_cases h : F64.lt (.fin n u) (.fin false 0) = true
  · rw [if_pos h]
    have hn : n = true := by
      cases n with
      | true => rfl
      | false => rw [lt_fin, signedUnits_false, signedUnits_false] at h; omega
    subst hn
    have : ∃ n2 v, fadd (.fin true u) (ofBits Config.twoPi64) = .fin n2 v ∧ v ≤ 2*P0 ∧ (n2 = true → v = 0) := by
      rw [tp]
      simp only [fadd, addAs, addFinite, Bool.true_eq_false, if_false]
      split
      · omega
      · split
        · have hle : roundedUnits (2*P0 - u) 1 ≤ 2*P0 := roundedUnits_le Nat.one_pos twoP0_sig (by omega)
          exact ⟨_, _, round_fin false Nat.one_pos twoP0_sig hle twoP0_lt, hle, fun h => by cases h⟩
        · exact ⟨_, _, rfl, Nat.zero_le _, fun _ => rfl⟩
    obtain ⟨n2, v, e, hv, hn2⟩ := this
    rw [e]
    exact st2 v hv n2 hn2
  · rw [if_neg h]
    refine st2 u hu n ?_
    rintro rfl
    by_contra hc
    apply h
    rw [lt_fin, signedUnits_false, signedUnits_true]; omega

/-- A whole number that both ends of an enclosure of `θ` round to is a significand nearest to `θ`. -/
theorem rounded_nearest_of_enclosed {L H D r : Nat} {θ : ℝ} (hD : 0 < D) (hL : (L : ℝ) / D ≤ θ) (hH : θ ≤ (H : ℝ) / D)
    (h1 : roundedUnits L D = r) (h2 : roundedUnits H D = r) {v : Nat} (hv : Significand v) : |(r : ℝ) - θ| ≤ |(v : ℝ) - θ| := by
  have n1 := roundedUnits_nearest (n := L) hD hv
  have n2 := roundedUnits_nearest (n := H) hD hv
  rw [h1] at n1; rw [h2] at n2
  have hD' : (0:ℝ) < D := Nat.cast_pos.2 hD
  have c (x n : Nat) : |(((x * D : Nat) : Int) - (n : Int) : Int)| = |(x : ℝ) - n / D| * D := by
    push_cast
    rw [← abs_of_pos hD', ← abs_mul, sub_mul, abs_of_pos hD', div_mul_cancel₀ _ hD'.ne']
  have m1 : |(r : ℝ) - L / D| ≤ |(v : ℝ) - L / D| := by
    have : ((|(((r * D : Nat) : Int) - (L : Int))| : Int) : ℝ) ≤ ((|(((v * D : Nat) : Int) - (L : Int))| : Int) : ℝ) := by exact_mod_cast n1
    rw [c, c] at this
    exact le_of_mul_le_mul_right this hD'
  have m2 : |(r : ℝ) - H / D| ≤ |(v : ℝ) - H / D| := by
    have : ((|(((r * D : Nat) : Int) - (H : Int))| : Int) : ℝ) ≤ ((|(((v * D : Nat) : Int) - (H : Int))| : Int) : ℝ) := by exact_mod_cast n2
    rw [c, c] at this
    exact le_of_mul_le_mul_right this hD'
  rcases lt_trichotomy (v:ℝ) r with h | h | h
  · -- v < r : use L
    rw [abs_le] 
    have k : (v : ℝ) + r ≤ 2 * (L / D) := by
      by_contra hc
      push Not at hc
      have e1 : (v:ℝ) - L/D < r - L/D := by linarith
      rw [abs_of_pos (by linarith : (0:ℝ) < r - L/D)] at m1
      have := abs_lt.2 (⟨by linarith, e1⟩ : -(r - (L:ℝ)/D) < (v:ℝ) - L/D ∧ _)
      linarith
    have : |(v:ℝ) - θ| = θ - v := by rw [abs_sub_comm, abs_of_nonneg]; linarith
    rw [this]; constructor <;> linarith
  · rw [h]
  · rw [abs_le]
    have k : 2 * ((H:ℝ) / D) ≤ (v : ℝ) + r := by
      by_contra hc
      push Not at hc
      have e1 : (r:ℝ) - H/D < v - H/D := by linarith
      have e2 : |(r:ℝ) - H / D| = H/D - r := by rw [abs_sub_comm, abs_of_nonneg]; linarith
      rw [e2] at m2
      have := abs_lt.2 (⟨by linarith, by linarith⟩ : -((H:ℝ)/D - r) < (v:ℝ) - H/D ∧ (v:ℝ) - H/D < (H:ℝ)/D - r)
      linarith
    have : |(v:ℝ) - θ| = v - θ := by rw [abs_of_nonneg]; linarith
    rw [this]; constructor <;> linarith

end Sys2Proof.Machine
end

