-- ==== Sys2Proof/Laws/Memory.lean ====
section
/-! SUPPORT. The sample window's columns: a store keeps the canonical form, the stored entry reads back, and every other entry
reads as before. -/

namespace Sys2Proof.Machine

namespace Memory

@[simp] theorem read_nil (ix : Nat) : Memory.read [] ix = 0 := rfl

@[simp] theorem wf_nil : Memory.wf [] = true := rfl

@[simp] theorem within_nil (n : Nat) : Memory.within n [] = true := rfl

@[simp] theorem above_nil (n : Nat) : Memory.above n [] = true := rfl

theorem above_cons (n j : Nat) (v : Word) (m : Memory) :
    Memory.above n ((j, v) :: m) = true ↔ n < j ∧ Memory.above n m = true := by
  simp [Memory.above]

theorem above_mono {n k : Nat} (h : n ≤ k) {m : Memory} (hk : Memory.above k m = true) : Memory.above n m = true := by
  simp only [Memory.above, List.all_eq_true, decide_eq_true_eq] at *
  exact fun e he => Nat.lt_of_le_of_lt h (hk e he)

/-- An entry at or below the least listed index reads as unlisted. -/
theorem read_of_above {n k : Nat} (hk : k ≤ n) {m : Memory} (h : Memory.above n m = true) : m.read k = 0 := by
  induction m with
  | nil => rfl
  | cons e rest ih =>
    obtain ⟨j, v⟩ := e
    rw [above_cons] at h
    have : j ≠ k := by omega
    simp [Memory.read, this, ih h.2]

theorem put_read {ix : Nat} {m : Memory} (h : Memory.above ix m = true) (v : Word) (k : Nat) :
    (Memory.put ix v m).read k = if k = ix then v else m.read k := by
  unfold Memory.put
  by_cases hk : k = ix
  · subst hk
    split <;> simp_all [Memory.read, read_of_above (Nat.le_refl _) h]
  · have : ¬ ix = k := fun h => hk h.symm
    split <;> simp [Memory.read, this]

theorem put_above {n ix : Nat} (h : n < ix) {v : Word} {m : Memory} (hm : Memory.above n m = true) :
    Memory.above n (Memory.put ix v m) = true := by
  unfold Memory.put
  split
  · exact hm
  · exact (above_cons ..).2 ⟨h, hm⟩

theorem put_wf {ix : Nat} {v : Word} {m : Memory} (ha : Memory.above ix m = true) (hm : m.wf = true) :
    (Memory.put ix v m).wf = true := by
  unfold Memory.put
  split <;> simp_all [Memory.wf]

theorem write_above {n ix : Nat} (h : n < ix) (v : Word) {m : Memory} (hm : Memory.above n m = true) :
    Memory.above n (m.write ix v) = true := by
  induction m with
  | nil => exact put_above h hm
  | cons e rest ih =>
    obtain ⟨j, w⟩ := e
    have hj := (above_cons ..).1 hm
    simp only [Memory.write]
    split
    · exact (above_cons ..).2 ⟨hj.1, ih hj.2⟩
    · split
      · exact put_above h hj.2
      · exact put_above h hm

/-- A store keeps the canonical form. -/
theorem write_wf (ix : Nat) (v : Word) {m : Memory} (hm : m.wf = true) : (m.write ix v).wf = true := by
  induction m with
  | nil => exact put_wf rfl rfl
  | cons e rest ih =>
    obtain ⟨j, w⟩ := e
    have hp : (¬ w = 0#64 ∧ Memory.above j rest = true) ∧ Memory.wf rest = true := by simpa [Memory.wf] using hm
    simp only [Memory.write]
    split
    · have := ih hp.2
      simp [Memory.wf, hp.1.1, this, write_above ‹_› v hp.1.2]
    · split
      · subst ix; exact put_wf hp.1.2 hp.2
      · have hlt : ix < j := by omega
        exact put_wf ((above_cons ..).2 ⟨hlt, above_mono (Nat.le_of_lt hlt) hp.1.2⟩) hm

/-- Read after write, at the written entry and at every other one. -/
theorem write_read (ix : Nat) (v : Word) {m : Memory} (hm : m.wf = true) (k : Nat) :
    (m.write ix v).read k = if k = ix then v else m.read k := by
  induction m with
  | nil => exact put_read rfl v k
  | cons e rest ih =>
    obtain ⟨j, w⟩ := e
    have hp : (¬ w = 0#64 ∧ Memory.above j rest = true) ∧ Memory.wf rest = true := by simpa [Memory.wf] using hm
    simp only [Memory.write]
    split
    · by_cases hjk : j = k
      · have : k ≠ ix := by omega
        simp [Memory.read, hjk, this]
      · simp [Memory.read, hjk, ih hp.2]
    · split
      · subst ix
        rw [put_read hp.1.2]
        by_cases hk : k = j
        · simp [hk]
        · have : ¬ j = k := fun h => hk h.symm
          simp [Memory.read, hk, this]
      · have hlt : ix < j := by omega
        exact put_read ((above_cons ..).2 ⟨hlt, above_mono (Nat.le_of_lt hlt) hp.1.2⟩) v k

/-- What a store leaves listed was listed before or is the stored entry. -/
theorem mem_write {ix : Nat} {v : Word} {m : Memory} {e : Nat × Word} (h : e ∈ m.write ix v) : e ∈ m ∨ e = (ix, v) := by
  have hput : ∀ m' : Memory, e ∈ Memory.put ix v m' → e ∈ m' ∨ e = (ix, v) := by
    intro m' h
    unfold Memory.put at h
    split at h
    · exact .inl h
    · rcases List.mem_cons.1 h with h | h
      · exact .inr h
      · exact .inl h
  induction m with
  | nil => exact hput [] h
  | cons f rest ih =>
    obtain ⟨j, w⟩ := f
    simp only [Memory.write] at h
    split at h
    · rcases List.mem_cons.1 h with h | h
      · exact .inl (h ▸ List.mem_cons_self ..)
      · exact (ih h).imp (List.mem_cons_of_mem _) id
    · split at h
      · exact (hput _ h).imp (List.mem_cons_of_mem _) id
      · exact hput _ h

/-- A store at an index the window has keeps the column within it. -/
theorem write_within {ix limit : Nat} (hix : ix < limit) (v : Word) {m : Memory} (hm : m.within limit = true) :
    (m.write ix v).within limit = true := by
  simp only [Memory.within, List.all_eq_true, decide_eq_true_eq] at *
  intro e he
  rcases mem_write he with h | h
  · exact hm e h
  · exact h ▸ hix

end Memory

end Sys2Proof.Machine
end

