-- ==== Sys2Proof/Laws/State.lean ====
section
/-! SUPPORT. One lemma for each field of State and each shared update: what the update leaves in the field. -/

namespace Sys2Proof.Machine

/-! ### complete -/

@[simp] theorem complete_params (e : ErrCode) (s : State) : (complete e s).params = s.params := rfl
@[simp] theorem complete_status (e : ErrCode) (s : State) : (complete e s).status = { s.status with err := e, abortReq := false, busy := false } := rfl
@[simp] theorem complete_arg0 (e : ErrCode) (s : State) : (complete e s).arg0 = s.arg0 := rfl
@[simp] theorem complete_decResult (e : ErrCode) (s : State) : (complete e s).decResult = s.decResult := rfl
@[simp] theorem complete_vecX (e : ErrCode) (s : State) : (complete e s).vecX = s.vecX := rfl
@[simp] theorem complete_vecY (e : ErrCode) (s : State) : (complete e s).vecY = s.vecY := rfl
@[simp] theorem complete_vecZ (e : ErrCode) (s : State) : (complete e s).vecZ = s.vecZ := rfl
@[simp] theorem complete_hdg (e : ErrCode) (s : State) : (complete e s).hdg = s.hdg := rfl
@[simp] theorem complete_decl (e : ErrCode) (s : State) : (complete e s).decl = s.decl := rfl
@[simp] theorem complete_xOff (e : ErrCode) (s : State) : (complete e s).xOff = s.xOff := rfl
@[simp] theorem complete_yOff (e : ErrCode) (s : State) : (complete e s).yOff = s.yOff := rfl
@[simp] theorem complete_zDev (e : ErrCode) (s : State) : (complete e s).zDev = s.zDev := rfl
@[simp] theorem complete_calN (e : ErrCode) (s : State) : (complete e s).calN = s.calN := rfl
@[simp] theorem complete_winIdx (e : ErrCode) (s : State) : (complete e s).winIdx = s.winIdx := rfl
@[simp] theorem complete_portErr (e : ErrCode) (s : State) : (complete e s).portErr = s.portErr := rfl
@[simp] theorem complete_wx (e : ErrCode) (s : State) : (complete e s).wx = s.wx := rfl
@[simp] theorem complete_wy (e : ErrCode) (s : State) : (complete e s).wy = s.wy := rfl
@[simp] theorem complete_seq (e : ErrCode) (s : State) : (complete e s).seq = .idle := rfl
@[simp] theorem complete_sample (e : ErrCode) (s : State) : (complete e s).sample = .status := rfl
@[simp] theorem complete_setupNext (e : ErrCode) (s : State) : (complete e s).setupNext = .resetPeriod := rfl
@[simp] theorem complete_droppedInRun (e : ErrCode) (s : State) : (complete e s).droppedInRun = s.droppedInRun := rfl
@[simp] theorem complete_degrees (e : ErrCode) (s : State) : (complete e s).degrees = s.degrees := rfl
@[simp] theorem complete_sampleCount (e : ErrCode) (s : State) : (complete e s).sampleCount = s.sampleCount := rfl
@[simp] theorem complete_interval (e : ErrCode) (s : State) : (complete e s).interval = s.interval := rfl
@[simp] theorem complete_ticks (e : ErrCode) (s : State) : (complete e s).ticks = s.ticks := rfl
@[simp] theorem complete_extrema (e : ErrCode) (s : State) : (complete e s).extrema = s.extrema := rfl
@[simp] theorem complete_transcript (e : ErrCode) (s : State) : (complete e s).transcript = s.transcript := rfl
@[simp] theorem complete_schedule (e : ErrCode) (s : State) : (complete e s).schedule = s.schedule := rfl
@[simp] theorem complete_host (e : ErrCode) (s : State) : (complete e s).host = s.host := rfl
@[simp] theorem complete_readData (e : ErrCode) (s : State) : (complete e s).readData = s.readData := rfl
@[simp] theorem complete_answers (e : ErrCode) (s : State) : (complete e s).answers = s.answers := rfl
@[simp] theorem complete_drawIx (e : ErrCode) (s : State) : (complete e s).drawIx = s.drawIx := rfl

/-! ### raiseTransport -/

@[simp] theorem raiseTransport_params (c r : Byte) (w : Bool) (s : State) : (raiseTransport c r w s).params = s.params := rfl
@[simp] theorem raiseTransport_status (c r : Byte) (w : Bool) (s : State) : (raiseTransport c r w s).status = { s.status with err := .transport, abortReq := false, busy := false } := rfl
@[simp] theorem raiseTransport_arg0 (c r : Byte) (w : Bool) (s : State) : (raiseTransport c r w s).arg0 = s.arg0 := rfl
@[simp] theorem raiseTransport_decResult (c r : Byte) (w : Bool) (s : State) : (raiseTransport c r w s).decResult = s.decResult := rfl
@[simp] theorem raiseTransport_vecX (c r : Byte) (w : Bool) (s : State) : (raiseTransport c r w s).vecX = s.vecX := rfl
@[simp] theorem raiseTransport_vecY (c r : Byte) (w : Bool) (s : State) : (raiseTransport c r w s).vecY = s.vecY := rfl
@[simp] theorem raiseTransport_vecZ (c r : Byte) (w : Bool) (s : State) : (raiseTransport c r w s).vecZ = s.vecZ := rfl
@[simp] theorem raiseTransport_hdg (c r : Byte) (w : Bool) (s : State) : (raiseTransport c r w s).hdg = s.hdg := rfl
@[simp] theorem raiseTransport_decl (c r : Byte) (w : Bool) (s : State) : (raiseTransport c r w s).decl = s.decl := rfl
@[simp] theorem raiseTransport_xOff (c r : Byte) (w : Bool) (s : State) : (raiseTransport c r w s).xOff = s.xOff := rfl
@[simp] theorem raiseTransport_yOff (c r : Byte) (w : Bool) (s : State) : (raiseTransport c r w s).yOff = s.yOff := rfl
@[simp] theorem raiseTransport_zDev (c r : Byte) (w : Bool) (s : State) : (raiseTransport c r w s).zDev = s.zDev := rfl
@[simp] theorem raiseTransport_calN (c r : Byte) (w : Bool) (s : State) : (raiseTransport c r w s).calN = s.calN := rfl
@[simp] theorem raiseTransport_winIdx (c r : Byte) (w : Bool) (s : State) : (raiseTransport c r w s).winIdx = s.winIdx := rfl
@[simp] theorem raiseTransport_portErr (c r : Byte) (w : Bool) (s : State) : (raiseTransport c r w s).portErr = portErrWord c r w := rfl
@[simp] theorem raiseTransport_wx (c r : Byte) (w : Bool) (s : State) : (raiseTransport c r w s).wx = s.wx := rfl
@[simp] theorem raiseTransport_wy (c r : Byte) (w : Bool) (s : State) : (raiseTransport c r w s).wy = s.wy := rfl
@[simp] theorem raiseTransport_seq (c r : Byte) (w : Bool) (s : State) : (raiseTransport c r w s).seq = .idle := rfl
@[simp] theorem raiseTransport_sample (c r : Byte) (w : Bool) (s : State) : (raiseTransport c r w s).sample = .status := rfl
@[simp] theorem raiseTransport_setupNext (c r : Byte) (w : Bool) (s : State) : (raiseTransport c r w s).setupNext = .resetPeriod := rfl
@[simp] theorem raiseTransport_droppedInRun (c r : Byte) (w : Bool) (s : State) : (raiseTransport c r w s).droppedInRun = s.droppedInRun := rfl
@[simp] theorem raiseTransport_degrees (c r : Byte) (w : Bool) (s : State) : (raiseTransport c r w s).degrees = s.degrees := rfl
@[simp] theorem raiseTransport_sampleCount (c r : Byte) (w : Bool) (s : State) : (raiseTransport c r w s).sampleCount = s.sampleCount := rfl
@[simp] theorem raiseTransport_interval (c r : Byte) (w : Bool) (s : State) : (raiseTransport c r w s).interval = s.interval := rfl
@[simp] theorem raiseTransport_ticks (c r : Byte) (w : Bool) (s : State) : (raiseTransport c r w s).ticks = s.ticks := rfl
@[simp] theorem raiseTransport_extrema (c r : Byte) (w : Bool) (s : State) : (raiseTransport c r w s).extrema = s.extrema := rfl
@[simp] theorem raiseTransport_transcript (c r : Byte) (w : Bool) (s : State) : (raiseTransport c r w s).transcript = s.transcript := rfl
@[simp] theorem raiseTransport_schedule (c r : Byte) (w : Bool) (s : State) : (raiseTransport c r w s).schedule = s.schedule := rfl
@[simp] theorem raiseTransport_host (c r : Byte) (w : Bool) (s : State) : (raiseTransport c r w s).host = s.host := rfl
@[simp] theorem raiseTransport_readData (c r : Byte) (w : Bool) (s : State) : (raiseTransport c r w s).readData = s.readData := rfl
@[simp] theorem raiseTransport_answers (c r : Byte) (w : Bool) (s : State) : (raiseTransport c r w s).answers = s.answers := rfl
@[simp] theorem raiseTransport_drawIx (c r : Byte) (w : Bool) (s : State) : (raiseTransport c r w s).drawIx = s.drawIx := rfl

/-! ### setValid -/

@[simp] theorem setValid_params (v : Bool) (s : State) : (setValid v s).params = s.params := rfl
@[simp] theorem setValid_status (v : Bool) (s : State) : (setValid v s).status = { s.status with valid := v } := rfl
@[simp] theorem setValid_arg0 (v : Bool) (s : State) : (setValid v s).arg0 = s.arg0 := rfl
@[simp] theorem setValid_decResult (v : Bool) (s : State) : (setValid v s).decResult = s.decResult := rfl
@[simp] theorem setValid_vecX (v : Bool) (s : State) : (setValid v s).vecX = s.vecX := rfl
@[simp] theorem setValid_vecY (v : Bool) (s : State) : (setValid v s).vecY = s.vecY := rfl
@[simp] theorem setValid_vecZ (v : Bool) (s : State) : (setValid v s).vecZ = s.vecZ := rfl
@[simp] theorem setValid_hdg (v : Bool) (s : State) : (setValid v s).hdg = s.hdg := rfl
@[simp] theorem setValid_decl (v : Bool) (s : State) : (setValid v s).decl = s.decl := rfl
@[simp] theorem setValid_xOff (v : Bool) (s : State) : (setValid v s).xOff = s.xOff := rfl
@[simp] theorem setValid_yOff (v : Bool) (s : State) : (setValid v s).yOff = s.yOff := rfl
@[simp] theorem setValid_zDev (v : Bool) (s : State) : (setValid v s).zDev = s.zDev := rfl
@[simp] theorem setValid_calN (v : Bool) (s : State) : (setValid v s).calN = s.calN := rfl
@[simp] theorem setValid_winIdx (v : Bool) (s : State) : (setValid v s).winIdx = s.winIdx := rfl
@[simp] theorem setValid_portErr (v : Bool) (s : State) : (setValid v s).portErr = s.portErr := rfl
@[simp] theorem setValid_wx (v : Bool) (s : State) : (setValid v s).wx = s.wx := rfl
@[simp] theorem setValid_wy (v : Bool) (s : State) : (setValid v s).wy = s.wy := rfl
@[simp] theorem setValid_seq (v : Bool) (s : State) : (setValid v s).seq = s.seq := rfl
@[simp] theorem setValid_sample (v : Bool) (s : State) : (setValid v s).sample = s.sample := rfl
@[simp] theorem setValid_setupNext (v : Bool) (s : State) : (setValid v s).setupNext = s.setupNext := rfl
@[simp] theorem setValid_droppedInRun (v : Bool) (s : State) : (setValid v s).droppedInRun = s.droppedInRun := rfl
@[simp] theorem setValid_degrees (v : Bool) (s : State) : (setValid v s).degrees = s.degrees := rfl
@[simp] theorem setValid_sampleCount (v : Bool) (s : State) : (setValid v s).sampleCount = s.sampleCount := rfl
@[simp] theorem setValid_interval (v : Bool) (s : State) : (setValid v s).interval = s.interval := rfl
@[simp] theorem setValid_ticks (v : Bool) (s : State) : (setValid v s).ticks = s.ticks := rfl
@[simp] theorem setValid_extrema (v : Bool) (s : State) : (setValid v s).extrema = s.extrema := rfl
@[simp] theorem setValid_transcript (v : Bool) (s : State) : (setValid v s).transcript = s.transcript := rfl
@[simp] theorem setValid_schedule (v : Bool) (s : State) : (setValid v s).schedule = s.schedule := rfl
@[simp] theorem setValid_host (v : Bool) (s : State) : (setValid v s).host = s.host := rfl
@[simp] theorem setValid_readData (v : Bool) (s : State) : (setValid v s).readData = s.readData := rfl
@[simp] theorem setValid_answers (v : Bool) (s : State) : (setValid v s).answers = s.answers := rfl
@[simp] theorem setValid_drawIx (v : Bool) (s : State) : (setValid v s).drawIx = s.drawIx := rfl

/-! ### appendTranscript -/

@[simp] theorem appendTranscript_params (e : Transaction) (s : State) : (appendTranscript e s).params = s.params := rfl
@[simp] theorem appendTranscript_status (e : Transaction) (s : State) : (appendTranscript e s).status = s.status := rfl
@[simp] theorem appendTranscript_arg0 (e : Transaction) (s : State) : (appendTranscript e s).arg0 = s.arg0 := rfl
@[simp] theorem appendTranscript_decResult (e : Transaction) (s : State) : (appendTranscript e s).decResult = s.decResult := rfl
@[simp] theorem appendTranscript_vecX (e : Transaction) (s : State) : (appendTranscript e s).vecX = s.vecX := rfl
@[simp] theorem appendTranscript_vecY (e : Transaction) (s : State) : (appendTranscript e s).vecY = s.vecY := rfl
@[simp] theorem appendTranscript_vecZ (e : Transaction) (s : State) : (appendTranscript e s).vecZ = s.vecZ := rfl
@[simp] theorem appendTranscript_hdg (e : Transaction) (s : State) : (appendTranscript e s).hdg = s.hdg := rfl
@[simp] theorem appendTranscript_decl (e : Transaction) (s : State) : (appendTranscript e s).decl = s.decl := rfl
@[simp] theorem appendTranscript_xOff (e : Transaction) (s : State) : (appendTranscript e s).xOff = s.xOff := rfl
@[simp] theorem appendTranscript_yOff (e : Transaction) (s : State) : (appendTranscript e s).yOff = s.yOff := rfl
@[simp] theorem appendTranscript_zDev (e : Transaction) (s : State) : (appendTranscript e s).zDev = s.zDev := rfl
@[simp] theorem appendTranscript_calN (e : Transaction) (s : State) : (appendTranscript e s).calN = s.calN := rfl
@[simp] theorem appendTranscript_winIdx (e : Transaction) (s : State) : (appendTranscript e s).winIdx = s.winIdx := rfl
@[simp] theorem appendTranscript_portErr (e : Transaction) (s : State) : (appendTranscript e s).portErr = s.portErr := rfl
@[simp] theorem appendTranscript_wx (e : Transaction) (s : State) : (appendTranscript e s).wx = s.wx := rfl
@[simp] theorem appendTranscript_wy (e : Transaction) (s : State) : (appendTranscript e s).wy = s.wy := rfl
@[simp] theorem appendTranscript_seq (e : Transaction) (s : State) : (appendTranscript e s).seq = s.seq := rfl
@[simp] theorem appendTranscript_sample (e : Transaction) (s : State) : (appendTranscript e s).sample = s.sample := rfl
@[simp] theorem appendTranscript_setupNext (e : Transaction) (s : State) : (appendTranscript e s).setupNext = s.setupNext := rfl
@[simp] theorem appendTranscript_droppedInRun (e : Transaction) (s : State) : (appendTranscript e s).droppedInRun = s.droppedInRun := rfl
@[simp] theorem appendTranscript_degrees (e : Transaction) (s : State) : (appendTranscript e s).degrees = s.degrees := rfl
@[simp] theorem appendTranscript_sampleCount (e : Transaction) (s : State) : (appendTranscript e s).sampleCount = s.sampleCount := rfl
@[simp] theorem appendTranscript_interval (e : Transaction) (s : State) : (appendTranscript e s).interval = s.interval := rfl
@[simp] theorem appendTranscript_ticks (e : Transaction) (s : State) : (appendTranscript e s).ticks = s.ticks := rfl
@[simp] theorem appendTranscript_extrema (e : Transaction) (s : State) : (appendTranscript e s).extrema = s.extrema := rfl
@[simp] theorem appendTranscript_transcript (e : Transaction) (s : State) : (appendTranscript e s).transcript = s.transcript ++ [e] := rfl
@[simp] theorem appendTranscript_schedule (e : Transaction) (s : State) : (appendTranscript e s).schedule = s.schedule := rfl
@[simp] theorem appendTranscript_host (e : Transaction) (s : State) : (appendTranscript e s).host = s.host := rfl
@[simp] theorem appendTranscript_readData (e : Transaction) (s : State) : (appendTranscript e s).readData = s.readData := rfl
@[simp] theorem appendTranscript_answers (e : Transaction) (s : State) : (appendTranscript e s).answers = s.answers := rfl
@[simp] theorem appendTranscript_drawIx (e : Transaction) (s : State) : (appendTranscript e s).drawIx = s.drawIx := rfl

/-! ### beginCommand -/

@[simp] theorem beginCommand_params (s : State) : (beginCommand s).params = s.params := rfl
@[simp] theorem beginCommand_status (s : State) : (beginCommand s).status = { s.status with busy := true, err := .ok } := rfl
@[simp] theorem beginCommand_arg0 (s : State) : (beginCommand s).arg0 = s.arg0 := rfl
@[simp] theorem beginCommand_decResult (s : State) : (beginCommand s).decResult = s.decResult := rfl
@[simp] theorem beginCommand_vecX (s : State) : (beginCommand s).vecX = s.vecX := rfl
@[simp] theorem beginCommand_vecY (s : State) : (beginCommand s).vecY = s.vecY := rfl
@[simp] theorem beginCommand_vecZ (s : State) : (beginCommand s).vecZ = s.vecZ := rfl
@[simp] theorem beginCommand_hdg (s : State) : (beginCommand s).hdg = s.hdg := rfl
@[simp] theorem beginCommand_decl (s : State) : (beginCommand s).decl = s.decl := rfl
@[simp] theorem beginCommand_xOff (s : State) : (beginCommand s).xOff = s.xOff := rfl
@[simp] theorem beginCommand_yOff (s : State) : (beginCommand s).yOff = s.yOff := rfl
@[simp] theorem beginCommand_zDev (s : State) : (beginCommand s).zDev = s.zDev := rfl
@[simp] theorem beginCommand_calN (s : State) : (beginCommand s).calN = s.calN := rfl
@[simp] theorem beginCommand_winIdx (s : State) : (beginCommand s).winIdx = s.winIdx := rfl
@[simp] theorem beginCommand_portErr (s : State) : (beginCommand s).portErr = s.portErr := rfl
@[simp] theorem beginCommand_wx (s : State) : (beginCommand s).wx = s.wx := rfl
@[simp] theorem beginCommand_wy (s : State) : (beginCommand s).wy = s.wy := rfl
@[simp] theorem beginCommand_seq (s : State) : (beginCommand s).seq = s.seq := rfl
@[simp] theorem beginCommand_sample (s : State) : (beginCommand s).sample = .status := rfl
@[simp] theorem beginCommand_setupNext (s : State) : (beginCommand s).setupNext = .resetPeriod := rfl
@[simp] theorem beginCommand_droppedInRun (s : State) : (beginCommand s).droppedInRun = false := rfl
@[simp] theorem beginCommand_degrees (s : State) : (beginCommand s).degrees = s.degrees := rfl
@[simp] theorem beginCommand_sampleCount (s : State) : (beginCommand s).sampleCount = s.sampleCount := rfl
@[simp] theorem beginCommand_interval (s : State) : (beginCommand s).interval = s.interval := rfl
@[simp] theorem beginCommand_ticks (s : State) : (beginCommand s).ticks = s.ticks := rfl
@[simp] theorem beginCommand_extrema (s : State) : (beginCommand s).extrema = s.extrema := rfl
@[simp] theorem beginCommand_transcript (s : State) : (beginCommand s).transcript = s.transcript := rfl
@[simp] theorem beginCommand_schedule (s : State) : (beginCommand s).schedule = s.schedule := rfl
@[simp] theorem beginCommand_host (s : State) : (beginCommand s).host = s.host := rfl
@[simp] theorem beginCommand_readData (s : State) : (beginCommand s).readData = s.readData := rfl
@[simp] theorem beginCommand_answers (s : State) : (beginCommand s).answers = s.answers := rfl
@[simp] theorem beginCommand_drawIx (s : State) : (beginCommand s).drawIx = s.drawIx := rfl

/-! ### beginCalibration -/

@[simp] theorem beginCalibration_params (s : State) : (beginCalibration s).params = s.params := rfl
@[simp] theorem beginCalibration_status (s : State) : (beginCalibration s).status = s.status := rfl
@[simp] theorem beginCalibration_arg0 (s : State) : (beginCalibration s).arg0 = s.arg0 := rfl
@[simp] theorem beginCalibration_decResult (s : State) : (beginCalibration s).decResult = s.decResult := rfl
@[simp] theorem beginCalibration_vecX (s : State) : (beginCalibration s).vecX = s.vecX := rfl
@[simp] theorem beginCalibration_vecY (s : State) : (beginCalibration s).vecY = s.vecY := rfl
@[simp] theorem beginCalibration_vecZ (s : State) : (beginCalibration s).vecZ = s.vecZ := rfl
@[simp] theorem beginCalibration_hdg (s : State) : (beginCalibration s).hdg = s.hdg := rfl
@[simp] theorem beginCalibration_decl (s : State) : (beginCalibration s).decl = s.decl := rfl
@[simp] theorem beginCalibration_xOff (s : State) : (beginCalibration s).xOff = s.xOff := rfl
@[simp] theorem beginCalibration_yOff (s : State) : (beginCalibration s).yOff = s.yOff := rfl
@[simp] theorem beginCalibration_zDev (s : State) : (beginCalibration s).zDev = s.zDev := rfl
@[simp] theorem beginCalibration_calN (s : State) : (beginCalibration s).calN = 0 := rfl
@[simp] theorem beginCalibration_winIdx (s : State) : (beginCalibration s).winIdx = s.winIdx := rfl
@[simp] theorem beginCalibration_portErr (s : State) : (beginCalibration s).portErr = s.portErr := rfl
@[simp] theorem beginCalibration_wx (s : State) : (beginCalibration s).wx = s.wx := rfl
@[simp] theorem beginCalibration_wy (s : State) : (beginCalibration s).wy = s.wy := rfl
@[simp] theorem beginCalibration_seq (s : State) : (beginCalibration s).seq = .cal .attempt 0 0 := rfl
@[simp] theorem beginCalibration_sample (s : State) : (beginCalibration s).sample = s.sample := rfl
@[simp] theorem beginCalibration_setupNext (s : State) : (beginCalibration s).setupNext = s.setupNext := rfl
@[simp] theorem beginCalibration_droppedInRun (s : State) : (beginCalibration s).droppedInRun = s.droppedInRun := rfl
@[simp] theorem beginCalibration_degrees (s : State) : (beginCalibration s).degrees = s.degrees := rfl
@[simp] theorem beginCalibration_sampleCount (s : State) : (beginCalibration s).sampleCount = s.sampleCount := rfl
@[simp] theorem beginCalibration_interval (s : State) : (beginCalibration s).interval = s.interval := rfl
@[simp] theorem beginCalibration_ticks (s : State) : (beginCalibration s).ticks = s.ticks := rfl
@[simp] theorem beginCalibration_extrema (s : State) : (beginCalibration s).extrema = s.extrema := rfl
@[simp] theorem beginCalibration_transcript (s : State) : (beginCalibration s).transcript = s.transcript := rfl
@[simp] theorem beginCalibration_schedule (s : State) : (beginCalibration s).schedule = s.schedule := rfl
@[simp] theorem beginCalibration_host (s : State) : (beginCalibration s).host = s.host := rfl
@[simp] theorem beginCalibration_readData (s : State) : (beginCalibration s).readData = s.readData := rfl
@[simp] theorem beginCalibration_answers (s : State) : (beginCalibration s).answers = s.answers := rfl
@[simp] theorem beginCalibration_drawIx (s : State) : (beginCalibration s).drawIx = s.drawIx := rfl

/-! ### writeVector -/

@[simp] theorem writeVector_params (v : Vec) (s : State) : (writeVector v s).params = s.params := rfl
@[simp] theorem writeVector_status (v : Vec) (s : State) : (writeVector v s).status = s.status := rfl
@[simp] theorem writeVector_arg0 (v : Vec) (s : State) : (writeVector v s).arg0 = s.arg0 := rfl
@[simp] theorem writeVector_decResult (v : Vec) (s : State) : (writeVector v s).decResult = s.decResult := rfl
@[simp] theorem writeVector_vecX (v : Vec) (s : State) : (writeVector v s).vecX = v.x := rfl
@[simp] theorem writeVector_vecY (v : Vec) (s : State) : (writeVector v s).vecY = v.y := rfl
@[simp] theorem writeVector_vecZ (v : Vec) (s : State) : (writeVector v s).vecZ = v.z := rfl
@[simp] theorem writeVector_hdg (v : Vec) (s : State) : (writeVector v s).hdg = s.hdg := rfl
@[simp] theorem writeVector_decl (v : Vec) (s : State) : (writeVector v s).decl = s.decl := rfl
@[simp] theorem writeVector_xOff (v : Vec) (s : State) : (writeVector v s).xOff = s.xOff := rfl
@[simp] theorem writeVector_yOff (v : Vec) (s : State) : (writeVector v s).yOff = s.yOff := rfl
@[simp] theorem writeVector_zDev (v : Vec) (s : State) : (writeVector v s).zDev = s.zDev := rfl
@[simp] theorem writeVector_calN (v : Vec) (s : State) : (writeVector v s).calN = s.calN := rfl
@[simp] theorem writeVector_winIdx (v : Vec) (s : State) : (writeVector v s).winIdx = s.winIdx := rfl
@[simp] theorem writeVector_portErr (v : Vec) (s : State) : (writeVector v s).portErr = s.portErr := rfl
@[simp] theorem writeVector_wx (v : Vec) (s : State) : (writeVector v s).wx = s.wx := rfl
@[simp] theorem writeVector_wy (v : Vec) (s : State) : (writeVector v s).wy = s.wy := rfl
@[simp] theorem writeVector_seq (v : Vec) (s : State) : (writeVector v s).seq = s.seq := rfl
@[simp] theorem writeVector_sample (v : Vec) (s : State) : (writeVector v s).sample = s.sample := rfl
@[simp] theorem writeVector_setupNext (v : Vec) (s : State) : (writeVector v s).setupNext = s.setupNext := rfl
@[simp] theorem writeVector_droppedInRun (v : Vec) (s : State) : (writeVector v s).droppedInRun = s.droppedInRun := rfl
@[simp] theorem writeVector_degrees (v : Vec) (s : State) : (writeVector v s).degrees = s.degrees := rfl
@[simp] theorem writeVector_sampleCount (v : Vec) (s : State) : (writeVector v s).sampleCount = s.sampleCount := rfl
@[simp] theorem writeVector_interval (v : Vec) (s : State) : (writeVector v s).interval = s.interval := rfl
@[simp] theorem writeVector_ticks (v : Vec) (s : State) : (writeVector v s).ticks = s.ticks := rfl
@[simp] theorem writeVector_extrema (v : Vec) (s : State) : (writeVector v s).extrema = s.extrema := rfl
@[simp] theorem writeVector_transcript (v : Vec) (s : State) : (writeVector v s).transcript = s.transcript := rfl
@[simp] theorem writeVector_schedule (v : Vec) (s : State) : (writeVector v s).schedule = s.schedule := rfl
@[simp] theorem writeVector_host (v : Vec) (s : State) : (writeVector v s).host = s.host := rfl
@[simp] theorem writeVector_readData (v : Vec) (s : State) : (writeVector v s).readData = s.readData := rfl
@[simp] theorem writeVector_answers (v : Vec) (s : State) : (writeVector v s).answers = s.answers := rfl
@[simp] theorem writeVector_drawIx (v : Vec) (s : State) : (writeVector v s).drawIx = s.drawIx := rfl

/-! ### enterPacing -/

@[simp] theorem enterPacing_params (p : CalPhase) (i r : Nat) (s : State) : (enterPacing p i r s).params = s.params := rfl
@[simp] theorem enterPacing_status (p : CalPhase) (i r : Nat) (s : State) : (enterPacing p i r s).status = s.status := rfl
@[simp] theorem enterPacing_arg0 (p : CalPhase) (i r : Nat) (s : State) : (enterPacing p i r s).arg0 = s.arg0 := rfl
@[simp] theorem enterPacing_decResult (p : CalPhase) (i r : Nat) (s : State) : (enterPacing p i r s).decResult = s.decResult := rfl
@[simp] theorem enterPacing_vecX (p : CalPhase) (i r : Nat) (s : State) : (enterPacing p i r s).vecX = s.vecX := rfl
@[simp] theorem enterPacing_vecY (p : CalPhase) (i r : Nat) (s : State) : (enterPacing p i r s).vecY = s.vecY := rfl
@[simp] theorem enterPacing_vecZ (p : CalPhase) (i r : Nat) (s : State) : (enterPacing p i r s).vecZ = s.vecZ := rfl
@[simp] theorem enterPacing_hdg (p : CalPhase) (i r : Nat) (s : State) : (enterPacing p i r s).hdg = s.hdg := rfl
@[simp] theorem enterPacing_decl (p : CalPhase) (i r : Nat) (s : State) : (enterPacing p i r s).decl = s.decl := rfl
@[simp] theorem enterPacing_xOff (p : CalPhase) (i r : Nat) (s : State) : (enterPacing p i r s).xOff = s.xOff := rfl
@[simp] theorem enterPacing_yOff (p : CalPhase) (i r : Nat) (s : State) : (enterPacing p i r s).yOff = s.yOff := rfl
@[simp] theorem enterPacing_zDev (p : CalPhase) (i r : Nat) (s : State) : (enterPacing p i r s).zDev = s.zDev := rfl
@[simp] theorem enterPacing_calN (p : CalPhase) (i r : Nat) (s : State) : (enterPacing p i r s).calN = s.calN := rfl
@[simp] theorem enterPacing_winIdx (p : CalPhase) (i r : Nat) (s : State) : (enterPacing p i r s).winIdx = s.winIdx := rfl
@[simp] theorem enterPacing_portErr (p : CalPhase) (i r : Nat) (s : State) : (enterPacing p i r s).portErr = s.portErr := rfl
@[simp] theorem enterPacing_wx (p : CalPhase) (i r : Nat) (s : State) : (enterPacing p i r s).wx = s.wx := rfl
@[simp] theorem enterPacing_wy (p : CalPhase) (i r : Nat) (s : State) : (enterPacing p i r s).wy = s.wy := rfl
@[simp] theorem enterPacing_seq (p : CalPhase) (i r : Nat) (s : State) : (enterPacing p i r s).seq = .cal p i r := rfl
@[simp] theorem enterPacing_sample (p : CalPhase) (i r : Nat) (s : State) : (enterPacing p i r s).sample = s.sample := rfl
@[simp] theorem enterPacing_setupNext (p : CalPhase) (i r : Nat) (s : State) : (enterPacing p i r s).setupNext = s.setupNext := rfl
@[simp] theorem enterPacing_droppedInRun (p : CalPhase) (i r : Nat) (s : State) : (enterPacing p i r s).droppedInRun = s.droppedInRun := rfl
@[simp] theorem enterPacing_degrees (p : CalPhase) (i r : Nat) (s : State) : (enterPacing p i r s).degrees = s.degrees := rfl
@[simp] theorem enterPacing_sampleCount (p : CalPhase) (i r : Nat) (s : State) : (enterPacing p i r s).sampleCount = s.sampleCount := rfl
@[simp] theorem enterPacing_interval (p : CalPhase) (i r : Nat) (s : State) : (enterPacing p i r s).interval = s.interval := rfl
@[simp] theorem enterPacing_ticks (p : CalPhase) (i r : Nat) (s : State) : (enterPacing p i r s).ticks = 0 := rfl
@[simp] theorem enterPacing_extrema (p : CalPhase) (i r : Nat) (s : State) : (enterPacing p i r s).extrema = s.extrema := rfl
@[simp] theorem enterPacing_transcript (p : CalPhase) (i r : Nat) (s : State) : (enterPacing p i r s).transcript = s.transcript := rfl
@[simp] theorem enterPacing_schedule (p : CalPhase) (i r : Nat) (s : State) : (enterPacing p i r s).schedule = s.schedule := rfl
@[simp] theorem enterPacing_host (p : CalPhase) (i r : Nat) (s : State) : (enterPacing p i r s).host = s.host := rfl
@[simp] theorem enterPacing_readData (p : CalPhase) (i r : Nat) (s : State) : (enterPacing p i r s).readData = s.readData := rfl
@[simp] theorem enterPacing_answers (p : CalPhase) (i r : Nat) (s : State) : (enterPacing p i r s).answers = s.answers := rfl
@[simp] theorem enterPacing_drawIx (p : CalPhase) (i r : Nat) (s : State) : (enterPacing p i r s).drawIx = s.drawIx := rfl

/-! ### storeSample -/

@[simp] theorem storeSample_params (i : Nat) (v : Vec) (s : State) : (storeSample i v s).params = s.params := rfl
@[simp] theorem storeSample_status (i : Nat) (v : Vec) (s : State) : (storeSample i v s).status = s.status := rfl
@[simp] theorem storeSample_arg0 (i : Nat) (v : Vec) (s : State) : (storeSample i v s).arg0 = s.arg0 := rfl
@[simp] theorem storeSample_decResult (i : Nat) (v : Vec) (s : State) : (storeSample i v s).decResult = s.decResult := rfl
@[simp] theorem storeSample_vecX (i : Nat) (v : Vec) (s : State) : (storeSample i v s).vecX = s.vecX := rfl
@[simp] theorem storeSample_vecY (i : Nat) (v : Vec) (s : State) : (storeSample i v s).vecY = s.vecY := rfl
@[simp] theorem storeSample_vecZ (i : Nat) (v : Vec) (s : State) : (storeSample i v s).vecZ = s.vecZ := rfl
@[simp] theorem storeSample_hdg (i : Nat) (v : Vec) (s : State) : (storeSample i v s).hdg = s.hdg := rfl
@[simp] theorem storeSample_decl (i : Nat) (v : Vec) (s : State) : (storeSample i v s).decl = s.decl := rfl
@[simp] theorem storeSample_xOff (i : Nat) (v : Vec) (s : State) : (storeSample i v s).xOff = s.xOff := rfl
@[simp] theorem storeSample_yOff (i : Nat) (v : Vec) (s : State) : (storeSample i v s).yOff = s.yOff := rfl
@[simp] theorem storeSample_zDev (i : Nat) (v : Vec) (s : State) : (storeSample i v s).zDev = s.zDev := rfl
@[simp] theorem storeSample_calN (i : Nat) (v : Vec) (s : State) : (storeSample i v s).calN = BitVec.ofNat 64 (i + 1) := rfl
@[simp] theorem storeSample_winIdx (i : Nat) (v : Vec) (s : State) : (storeSample i v s).winIdx = s.winIdx := rfl
@[simp] theorem storeSample_portErr (i : Nat) (v : Vec) (s : State) : (storeSample i v s).portErr = s.portErr := rfl
@[simp] theorem storeSample_wx (i : Nat) (v : Vec) (s : State) : (storeSample i v s).wx = s.wx.write i v.x := rfl
@[simp] theorem storeSample_wy (i : Nat) (v : Vec) (s : State) : (storeSample i v s).wy = s.wy.write i v.y := rfl
@[simp] theorem storeSample_seq (i : Nat) (v : Vec) (s : State) : (storeSample i v s).seq = s.seq := rfl
@[simp] theorem storeSample_sample (i : Nat) (v : Vec) (s : State) : (storeSample i v s).sample = s.sample := rfl
@[simp] theorem storeSample_setupNext (i : Nat) (v : Vec) (s : State) : (storeSample i v s).setupNext = s.setupNext := rfl
@[simp] theorem storeSample_droppedInRun (i : Nat) (v : Vec) (s : State) : (storeSample i v s).droppedInRun = s.droppedInRun := rfl
@[simp] theorem storeSample_degrees (i : Nat) (v : Vec) (s : State) : (storeSample i v s).degrees = s.degrees := rfl
@[simp] theorem storeSample_sampleCount (i : Nat) (v : Vec) (s : State) : (storeSample i v s).sampleCount = s.sampleCount := rfl
@[simp] theorem storeSample_interval (i : Nat) (v : Vec) (s : State) : (storeSample i v s).interval = s.interval := rfl
@[simp] theorem storeSample_ticks (i : Nat) (v : Vec) (s : State) : (storeSample i v s).ticks = s.ticks := rfl
@[simp] theorem storeSample_extrema (i : Nat) (v : Vec) (s : State) : (storeSample i v s).extrema = s.extrema.update i v := rfl
@[simp] theorem storeSample_transcript (i : Nat) (v : Vec) (s : State) : (storeSample i v s).transcript = s.transcript := rfl
@[simp] theorem storeSample_schedule (i : Nat) (v : Vec) (s : State) : (storeSample i v s).schedule = s.schedule := rfl
@[simp] theorem storeSample_host (i : Nat) (v : Vec) (s : State) : (storeSample i v s).host = s.host := rfl
@[simp] theorem storeSample_readData (i : Nat) (v : Vec) (s : State) : (storeSample i v s).readData = s.readData := rfl
@[simp] theorem storeSample_answers (i : Nat) (v : Vec) (s : State) : (storeSample i v s).answers = s.answers := rfl
@[simp] theorem storeSample_drawIx (i : Nat) (v : Vec) (s : State) : (storeSample i v s).drawIx = s.drawIx := rfl

/-! ### finishSetup -/

@[simp] theorem finishSetup_params (s : State) : (finishSetup s).params = s.params := rfl
@[simp] theorem finishSetup_status (s : State) : (finishSetup s).status = { s.status with setupDone := true, err := .ok, abortReq := false, busy := false } := rfl
@[simp] theorem finishSetup_arg0 (s : State) : (finishSetup s).arg0 = s.arg0 := rfl
@[simp] theorem finishSetup_decResult (s : State) : (finishSetup s).decResult = s.decResult := rfl
@[simp] theorem finishSetup_vecX (s : State) : (finishSetup s).vecX = s.vecX := rfl
@[simp] theorem finishSetup_vecY (s : State) : (finishSetup s).vecY = s.vecY := rfl
@[simp] theorem finishSetup_vecZ (s : State) : (finishSetup s).vecZ = s.vecZ := rfl
@[simp] theorem finishSetup_hdg (s : State) : (finishSetup s).hdg = s.hdg := rfl
@[simp] theorem finishSetup_decl (s : State) : (finishSetup s).decl = s.decl := rfl
@[simp] theorem finishSetup_xOff (s : State) : (finishSetup s).xOff = s.xOff := rfl
@[simp] theorem finishSetup_yOff (s : State) : (finishSetup s).yOff = s.yOff := rfl
@[simp] theorem finishSetup_zDev (s : State) : (finishSetup s).zDev = s.zDev := rfl
@[simp] theorem finishSetup_calN (s : State) : (finishSetup s).calN = s.calN := rfl
@[simp] theorem finishSetup_winIdx (s : State) : (finishSetup s).winIdx = s.winIdx := rfl
@[simp] theorem finishSetup_portErr (s : State) : (finishSetup s).portErr = s.portErr := rfl
@[simp] theorem finishSetup_wx (s : State) : (finishSetup s).wx = s.wx := rfl
@[simp] theorem finishSetup_wy (s : State) : (finishSetup s).wy = s.wy := rfl
@[simp] theorem finishSetup_seq (s : State) : (finishSetup s).seq = .idle := rfl
@[simp] theorem finishSetup_sample (s : State) : (finishSetup s).sample = .status := rfl
@[simp] theorem finishSetup_setupNext (s : State) : (finishSetup s).setupNext = .resetPeriod := rfl
@[simp] theorem finishSetup_droppedInRun (s : State) : (finishSetup s).droppedInRun = s.droppedInRun := rfl
@[simp] theorem finishSetup_degrees (s : State) : (finishSetup s).degrees = s.degrees := rfl
@[simp] theorem finishSetup_sampleCount (s : State) : (finishSetup s).sampleCount = s.sampleCount := rfl
@[simp] theorem finishSetup_interval (s : State) : (finishSetup s).interval = s.interval := rfl
@[simp] theorem finishSetup_ticks (s : State) : (finishSetup s).ticks = s.ticks := rfl
@[simp] theorem finishSetup_extrema (s : State) : (finishSetup s).extrema = s.extrema := rfl
@[simp] theorem finishSetup_transcript (s : State) : (finishSetup s).transcript = s.transcript := rfl
@[simp] theorem finishSetup_schedule (s : State) : (finishSetup s).schedule = s.schedule := rfl
@[simp] theorem finishSetup_host (s : State) : (finishSetup s).host = s.host := rfl
@[simp] theorem finishSetup_readData (s : State) : (finishSetup s).readData = s.readData := rfl
@[simp] theorem finishSetup_answers (s : State) : (finishSetup s).answers = s.answers := rfl
@[simp] theorem finishSetup_drawIx (s : State) : (finishSetup s).drawIx = s.drawIx := rfl

end Sys2Proof.Machine
end

