-- ==== Sys2Proof/Laws/Ops.lean ====
section
/-! SUPPORT. One lemma for each shared operation: everything it can do. Proofs cite these instead of unfolding the operation. -/

namespace Sys2Proof.Machine

/-- A port answer is taken from the named ones or drawn freely; nothing else changes. -/
theorem drawAnswer_spec {s u : State} {a : PortAnswer} (h : drawAnswer s = (a, u)) :
    ∃ ans ix, u = { s with answers := ans, drawIx := ix } := by
  unfold drawAnswer at h
  split at h
  · cases h; exact ⟨_, s.drawIx, rfl⟩
  · cases h; exact ⟨s.answers, _, rfl⟩

/-- `MemRead`: the answer drawn, and one entry at the transcript's end. -/
theorem memRead_spec {s u : State} {r : Byte} {a : PortAnswer} (h : memRead r s = (a, u)) :
    ∃ ans ix, u = { s with answers := ans, drawIx := ix, transcript := s.transcript ++ [readEntry r a] } := by
  obtain ⟨ans, ix, hu⟩ := drawAnswer_spec (s := s) (a := (drawAnswer s).1) (u := (drawAnswer s).2) rfl
  simp only [memRead, Prod.mk.injEq] at h
  obtain ⟨rfl, rfl⟩ := h
  exact ⟨ans, ix, by rw [hu]; rfl⟩

/-- `MemWrite`: the answer drawn, and one entry at the transcript's end. -/
theorem memWrite_spec {s u : State} {r v : Byte} {a : PortAnswer} (h : memWrite r v s = (a, u)) :
    ∃ ans ix, u = { s with answers := ans, drawIx := ix, transcript := s.transcript ++ [writeEntry r v a] } := by
  obtain ⟨ans, ix, hu⟩ := drawAnswer_spec (s := s) (a := (drawAnswer s).1) (u := (drawAnswer s).2) rfl
  simp only [memWrite, Prod.mk.injEq] at h
  obtain ⟨rfl, rfl⟩ := h
  exact ⟨ans, ix, by rw [hu]; rfl⟩

/-- What a `MemRead` gives when the next answer is known. -/
theorem memRead_of_draw {s u : State} {a : PortAnswer} (h : drawAnswer s = (a, u)) (r : Byte) :
    memRead r s = (a, appendTranscript (readEntry r a) u) := by simp [memRead, h]

/-- What a `MemWrite` gives when the next answer is known. -/
theorem memWrite_of_draw {s u : State} {a : PortAnswer} (h : drawAnswer s = (a, u)) (r v : Byte) :
    memWrite r v s = (a, appendTranscript (writeEntry r v a) u) := by simp [memWrite, h]

/-- What the outcome of a port read of SAMPLE says, from state `s`, about the place `p` in the sample afterwards and the transcript
entry `e`. -/
def SampleStep.Says (s : State) (e : Transaction) (p : SampleProgress) : SampleStep → Prop
  | .more => True
  | .notReady => s.sample = .status ∧ p = .status
  | .failed c r => e = .readFail r c ∧ p = s.sample
  | .done v => p = .status ∧ ∃ xl xh yl yh zl zh, s.sample = .zHigh xl xh yl yh zl ∧
      v = scaleOff (dec16 xl xh) (dec16 yl yh) (dec16 zl zh) s

theorem readAxisByte_spec {s u : State} {o : SampleStep} {r : Byte} {next : Byte → SampleProgress} (hr : r ≤ 0x06)
    (h : readAxisByte r next s = (o, u)) :
    ∃ ans ix e p, u = { s with answers := ans, drawIx := ix, transcript := s.transcript ++ [e], sample := p } ∧
      transactionInMap e = true ∧ o.Says s e p := by
  unfold readAxisByte at h
  split at h
  · rename_i c s' hm
    obtain ⟨ans, ix, hs⟩ := memRead_spec hm
    cases h
    exact ⟨ans, ix, _, s.sample, hs, by simpa [readEntry, transactionInMap] using hr, rfl, rfl⟩
  · rename_i b s' hm
    obtain ⟨ans, ix, hs⟩ := memRead_spec hm
    cases h
    exact ⟨ans, ix, _, _, by rw [hs], by simpa [readEntry, transactionInMap] using hr, trivial⟩

/-- One port read of SAMPLE: the answer drawn, one transcript entry of the sensor's map, and the place in the sample. -/
theorem sampleStep_spec {s u : State} {o : SampleStep} (h : sampleStep s = (o, u)) :
    ∃ ans ix e p, u = { s with answers := ans, drawIx := ix, transcript := s.transcript ++ [e], sample := p } ∧
      transactionInMap e = true ∧ o.Says s e p := by
  unfold sampleStep at h
  split at h
  · rename_i hs0
    split at h
    · rename_i c s' hm
      obtain ⟨ans, ix, hs⟩ := memRead_spec hm
      cases h
      exact ⟨ans, ix, _, s.sample, hs, rfl, rfl, rfl⟩
    · rename_i b s' hm
      obtain ⟨ans, ix, hs⟩ := memRead_spec hm
      split at h <;> cases h
      · exact ⟨ans, ix, _, _, by rw [hs], rfl, trivial⟩
      · exact ⟨ans, ix, _, .status, by rw [hs, ← hs0], rfl, hs0, rfl⟩
  all_goals try exact readAxisByte_spec (by decide) h
  rename_i xl xh yl yh zl hs0
  split at h
  · rename_i c s' hm
    obtain ⟨ans, ix, hs⟩ := memRead_spec hm
    cases h
    exact ⟨ans, ix, _, s.sample, hs, rfl, rfl, rfl⟩
  · rename_i zh s' hm
    obtain ⟨ans, ix, hs⟩ := memRead_spec hm
    cases h
    exact ⟨ans, ix, _, _, by rw [hs], rfl, rfl, xl, xh, yl, yh, zl, zh, hs0, by rw [hs]; rfl⟩

/-- The acceptance of a word: its status, and the only other fields it can change. -/
theorem accept_spec (w : Word) (s : State) :
    ∃ q d n t c, accept w s = { s with
      status := { s.status with busy := true, err := .ok }, sample := .status, setupNext := .resetPeriod, droppedInRun := false
      seq := q, degrees := d, sampleCount := n, interval := t, calN := c } ∧
      ((∃ k, q = .run k ∧ c = s.calN ∧ (k = .legal .calibrate → countLegal s.params n = false)) ∨
        (q = .cal .attempt 0 0 ∧ c = 0 ∧ countLegal s.params n = true)) := by
  unfold accept
  dsimp only
  split
  · exact ⟨_, s.degrees, s.sampleCount, s.interval, s.calN, rfl, .inl ⟨.illegal, rfl, rfl, by simp⟩⟩
  · unfold acceptCalibrate
    dsimp only
    split
    · rename_i h
      exact ⟨_, s.degrees, _, _, _, rfl, .inr ⟨rfl, rfl, h⟩⟩
    · rename_i h
      exact ⟨_, s.degrees, _, _, s.calN, rfl, .inl ⟨_, rfl, rfl, fun _ => by simpa using h⟩⟩
  · exact ⟨_, _, s.sampleCount, s.interval, s.calN, rfl, .inl ⟨_, rfl, rfl, by simp⟩⟩
  · rename_i i hcal hdecl hw
    exact ⟨_, s.degrees, s.sampleCount, s.interval, s.calN, rfl, .inl ⟨_, rfl, rfl, by
      intro h
      cases h
      exact absurd rfl hcal⟩⟩

/-- A host write: an acceptance, a register of the host's, nothing, or a bit of STATUS while busy. -/
theorem hostWrite_spec (addr : Byte) (v : Word) (s : State) :
    (s.seq = .idle ∧ hostWrite addr v s = accept v s) ∨
    (s.seq = .idle ∧ ∃ a x y z w, hostWrite addr v s = { s with arg0 := a, vecX := x, vecY := y, vecZ := z, winIdx := w }) ∨
    (s.seq ≠ .idle ∧ hostWrite addr v s = { s with status := { s.status with abortReq := true } }) ∨
    (s.seq ≠ .idle ∧ hostWrite addr v s = { s with status := { s.status with overrun := true }, droppedInRun := true }) := by
  unfold hostWrite
  split
  · rename_i h
    unfold writeIdle
    split
    · exact .inl ⟨h, rfl⟩
    · refine .inr (.inl ⟨h, ?_⟩)
      split
      · exact ⟨v, s.vecX, s.vecY, s.vecZ, s.winIdx, rfl⟩
      split
      · exact ⟨s.arg0, v, s.vecY, s.vecZ, s.winIdx, rfl⟩
      split
      · exact ⟨s.arg0, s.vecX, v, s.vecZ, s.winIdx, rfl⟩
      split
      · exact ⟨s.arg0, s.vecX, s.vecY, v, s.winIdx, rfl⟩
      split
      · exact ⟨s.arg0, s.vecX, s.vecY, s.vecZ, v, rfl⟩
      · exact ⟨s.arg0, s.vecX, s.vecY, s.vecZ, s.winIdx, rfl⟩
  · rename_i h
    unfold writeBusy
    split
    · exact .inr (.inr (.inl ⟨h, rfl⟩))
    · exact .inr (.inr (.inr ⟨h, rfl⟩))

/-- A host move: a write with the line taken, or only the host's own lines and read value. -/
theorem hostMove_spec (s : State) :
    (∃ addr v rest, hostMove s = hostWrite addr v { s with host := rest }) ∨
    (∃ lines d, hostMove s = { s with host := lines, readData := d }) := by
  unfold hostMove
  split
  · exact .inr ⟨s.host, s.readData, rfl⟩
  · exact .inl ⟨_, _, _, rfl⟩
  · exact .inr ⟨_, _, rfl⟩
  · exact .inr ⟨_, _, rfl⟩

/-- One write of SETUP that the port refuses: TRANSPORT. -/
theorem setupWrite_spec (r v : Byte) (next : State → State) (s : State) :
    ∃ ans ix e, let u := { s with answers := ans, drawIx := ix, transcript := s.transcript ++ [e] }
      (∃ c, e = .writeFail r v c ∧ setupWrite r v next s = raiseTransport c r true u) ∨
      (e = .writeOk r v ∧ setupWrite r v next s = next u) := by
  unfold setupWrite
  split
  · rename_i c s' hm
    obtain ⟨ans, ix, hs⟩ := memWrite_spec hm
    exact ⟨ans, ix, _, .inl ⟨c, rfl, by rw [hs]; rfl⟩⟩
  · rename_i b s' hm
    obtain ⟨ans, ix, hs⟩ := memWrite_spec hm
    exact ⟨ans, ix, _, .inr ⟨rfl, by rw [hs]; rfl⟩⟩

end Sys2Proof.Machine
end

