-- ==== Sys2Proof/Laws/PerInstr.lean ====
section
/-! SUPPORT. Statements made for each command of the opcode table. Family `TableRow`: the word of a command is one that its own
row of 30_encoding.md R71 selects, with OP from 0x00 to 0x08 and RSV 0 (R70). -/

namespace Sys2Proof.Laws.TableRow

/-- The command's word is selected by the command's row, and it is none of the illegal kinds of R74. -/
def Statement (i : Instr) : Prop :=
  selects (encode i) i = true ∧ opField (encode i) = opcode i ∧ (opcode i).toNat ≤ 8 ∧ rsvField (encode i) = 0 ∧
    aField (encode i) = operandA i ∧ bField (encode i) = operandB i

theorem of_opcode (i : Instr) (h : (opcode i).toNat ≤ 8) (h0 : opcode i ≠ 0x01 → operandA i = 0 ∧ operandB i = 0) :
    Statement i :=
  ⟨(selects_iff _ _).2 ⟨opField_encode i, rsvField_encode i, fun hn => by rw [aField_encode, bField_encode]; exact h0 hn⟩,
    opField_encode i, h, rsvField_encode i, aField_encode i, bField_encode i⟩

theorem nop : Statement .nop := of_opcode _ (by decide) (by decide)

theorem decode (lo hi : Byte) : Statement (.decode lo hi) := of_opcode _ (by simp [opcode]) (fun h => absurd rfl h)

theorem readAxes : Statement .readAxes := of_opcode _ (by decide) (by decide)

theorem setDecl : Statement .setDecl := of_opcode _ (by decide) (by decide)

theorem heading : Statement .heading := of_opcode _ (by decide) (by decide)

theorem calibrate : Statement .calibrate := of_opcode _ (by decide) (by decide)

theorem abort : Statement .abort := of_opcode _ (by decide) (by decide)

theorem setup : Statement .setup := of_opcode _ (by decide) (by decide)

theorem clrErr : Statement .clrErr := of_opcode _ (by decide) (by decide)

end Sys2Proof.Laws.TableRow
end

