-- ==== Sys2Proof/Laws/Step.lean ====
section
/-! SUPPORT. What one engine step of each command can do, and what one step of the machine can do (inversion lemmas). -/

namespace Sys2Proof.Machine

/-- An engine step of READ_AXES, by the outcome of its port read. -/
theorem execReadAxes_spec {s t : State} (h : exec .readAxes s = .next t) :
    ∃ ans ix e p, transactionInMap e = true ∧
      let u := { s with answers := ans, drawIx := ix, transcript := s.transcript ++ [e], sample := p }
      t = u ∨ t = complete .notReady (setValid false u) ∨ (∃ c r, t = raiseTransport c r false (setValid false u)) ∨
      (∃ v, t = complete .ok (setValid true (writeVector v u))) := by
  have ht : readAxesStep s = t := by simpa [exec, execReadAxes] using h
  subst ht
  obtain ⟨ans, ix, e, p, hu, he, -⟩ := sampleStep_spec (s := s) (o := (sampleStep s).1) (u := (sampleStep s).2) rfl
  refine ⟨ans, ix, e, p, he, ?_⟩
  simp only [← hu]
  unfold readAxesStep
  split <;> rename_i hs <;> rw [hs]
  · exact .inl rfl
  · exact .inr (.inl rfl)
  · exact .inr (.inr (.inl ⟨_, _, rfl⟩))
  · exact .inr (.inr (.inr ⟨_, rfl⟩))

/-- An engine step of SET_DECL (R131). -/
theorem execSetDecl_spec {s t : State} (h : exec .setDecl s = .next t) :
    t = complete .arg s ∨
      ((deg2rad (F64.ofBits s.degrees)).finite = true ∧
        t = complete .ok { s with decl := (deg2rad (F64.ofBits s.degrees)).toBits }) := by
  have ht : setDeclStep s = t := by simpa [exec, execSetDecl] using h
  subst ht
  unfold setDeclStep
  dsimp only
  split
  · rename_i hf
    simp only [Bool.and_eq_true] at hf
    exact .inr ⟨hf.2, rfl⟩
  · exact .inl rfl

/-- An engine step of HEADING (R136): an error, or a heading made from an angle in range. -/
theorem execHeading_spec {s t : State} (h : exec .heading s = .next t) :
    (∃ e, t = complete e s) ∨
      ∃ a, a = wrapAngle (F64.fadd (atan2 s.params.atan2 (canonicalZero (F64.ofBits s.vecY))
          (canonicalZero (F64.ofBits s.vecX))) (F64.ofBits s.decl)) ∧ angleInRange a = true ∧
        t = complete .ok { s with
          hdg := headingWord (degreesMinutes s.params.minuteCarry a).1 (degreesMinutes s.params.minuteCarry a).2 } := by
  have ht : headingStep s = t := by simpa [exec, execHeading] using h
  subst ht
  unfold headingStep
  split
  · exact .inl ⟨_, rfl⟩
  · rename_i d m hh
    unfold headingOf at hh
    split at hh
    · cases hh
    · split at hh
      · cases hh
      · dsimp only at hh
        split at hh
        · rename_i ha
          rw [Except.ok.injEq, Prod.ext_iff] at hh
          refine .inr ⟨_, rfl, ha, ?_⟩
          rw [hh.1, hh.2]
        · cases hh

/-- An engine step of SETUP (R191, R193). -/
theorem execSetup_spec {s t : State} (h : exec .setup s = .next t) :
    ∃ ans ix e, transactionInMap e = true ∧
      let u := { s with answers := ans, drawIx := ix, transcript := s.transcript ++ [e] }
      (∃ c r, t = raiseTransport c r true u) ∨ (∃ q, s.setupNext ≠ .control1 ∧ t = { u with setupNext := q }) ∨
      (s.setupNext = .control1 ∧ t = finishSetup u) := by
  have ht : setupStep s = t := by simpa [exec, execSetup] using h
  subst ht
  unfold setupStep
  split <;> rename_i hn
  · obtain ⟨ans, ix, e, ⟨c, he, hw⟩ | ⟨he, hw⟩⟩ :=
      setupWrite_spec 0x0B Config.resetPeriodByte (fun s => { s with setupNext := .control2 }) s
    · exact ⟨ans, ix, e, by rw [he]; rfl, .inl ⟨_, _, hw⟩⟩
    · exact ⟨ans, ix, e, by rw [he]; rfl, .inr (.inl ⟨.control2, by simp [hn], hw⟩)⟩
  · obtain ⟨ans, ix, e, ⟨c, he, hw⟩ | ⟨he, hw⟩⟩ :=
      setupWrite_spec 0x0A Config.control2Byte (fun s => { s with setupNext := .control1 }) s
    · exact ⟨ans, ix, e, by rw [he]; rfl, .inl ⟨_, _, hw⟩⟩
    · exact ⟨ans, ix, e, by rw [he]; rfl, .inr (.inl ⟨.control1, by simp [hn], hw⟩)⟩
  · obtain ⟨ans, ix, e, ⟨c, he, hw⟩ | ⟨he, hw⟩⟩ := setupWrite_spec 0x09 Config.modeByte finishSetup s
    · exact ⟨ans, ix, e, by rw [he]; rfl, .inl ⟨_, _, hw⟩⟩
    · exact ⟨ans, ix, e, by rw [he]; rfl, .inr (.inr ⟨hn, hw⟩)⟩

/-- What an engine step of a calibration's attempt can do (R164). -/
def AttemptResult (s t : State) (i r : Nat) : Prop :=
  ∃ ans ix e p, transactionInMap e = true ∧
    let u := { s with answers := ans, drawIx := ix, transcript := s.transcript ++ [e], sample := p }
    t = u ∨ (p = .status ∧ t = afterNotReady i r u) ∨ (∃ c reg, t = raiseTransport c reg false u) ∨
    (p = .status ∧ i < s.params.calMax.toNat ∧ ∃ dx dy dz v, v = scaleOff dx dy dz s ∧
      (∃ lo hi, dx = dec16 lo hi) ∧ (∃ lo hi, dy = dec16 lo hi) ∧ (∃ lo hi, dz = dec16 lo hi) ∧
      t = afterSample i (storeSample i v u))

theorem attemptStep_spec {s t : State} {i r : Nat} (h : attemptStep i r s = .next t) : AttemptResult s t i r := by
  obtain ⟨ans, ix, e, p, hu, he, ho⟩ := sampleStep_spec (s := s) (o := (sampleStep s).1) (u := (sampleStep s).2) rfl
  refine ⟨ans, ix, e, p, he, ?_⟩
  simp only [← hu]
  unfold attemptStep at h
  split at h <;> rename_i hs <;> rw [hs] at ho ⊢
  · cases h; exact .inl rfl
  · cases h; exact .inr (.inl ⟨ho.2, rfl⟩)
  · cases h; exact .inr (.inr (.inl ⟨_, _, rfl⟩))
  · split at h
    · rename_i hlt
      cases h
      obtain ⟨hp, xl, xh, yl, yh, zl, zh, -, hv⟩ := ho
      rw [hs] at hu; dsimp only at hu
      exact .inr (.inr (.inr ⟨hp, by rw [hu] at hlt; exact hlt, _, _, _, _, hv, ⟨_, _, rfl⟩, ⟨_, _, rfl⟩, ⟨_, _, rfl⟩, rfl⟩))
    · cases h

/-- An engine step of CALIBRATE, by phase. -/
theorem execCalibrate_spec {s t : State} (h : exec .calibrate s = .next t) :
    (∃ i r, s.seq = .cal .attempt i r ∧ AttemptResult s t i r) ∨
    (∃ i r r', (s.seq = .cal .paceNext i r ∧ r' = 0 ∨ s.seq = .cal .paceRetry i r ∧ r' = r) ∧
      (t = s ∨ (s.status.abortReq = true ∧ t = complete .aborted s) ∨
        (s.status.abortReq = false ∧ s.interval.toNat ≤ s.ticks ∧ t = { s with seq := .cal .attempt i r' }))) ∨
    (∃ i r, s.seq = .cal .finish i r ∧ t = finishStep s) ∨
    ((s.seq = .idle ∨ ∃ c, s.seq = .run c) ∧
      (t = complete .arg s ∨ (countLegal s.params s.sampleCount = true ∧ t = beginCalibration s))) := by
  have hpace : ∀ i r, paceStep i r s = s ∨ (s.status.abortReq = true ∧ paceStep i r s = complete .aborted s) ∨
      (s.status.abortReq = false ∧ s.interval.toNat ≤ s.ticks ∧ paceStep i r s = { s with seq := .cal .attempt i r }) := by
    intro i r
    unfold paceStep
    by_cases ha : s.status.abortReq = true
    · exact .inr (.inl ⟨ha, by simp [paceOver, ha]⟩)
    · by_cases hk : s.interval.toNat ≤ s.ticks
      · exact .inr (.inr ⟨by simpa using ha, hk, by simp [paceOver, ha, hk]⟩)
      · exact .inl (by simp [paceOver, ha, hk])
  have hstart : calibrateStart s = complete .arg s ∨
      (countLegal s.params s.sampleCount = true ∧ calibrateStart s = beginCalibration s) := by
    unfold calibrateStart
    split
    · exact .inr ⟨‹_›, rfl⟩
    · exact .inl rfl
  simp only [exec, execCalibrate] at h
  split at h <;> rename_i hq
  · exact .inl ⟨_, _, hq, attemptStep_spec h⟩
  · cases h; exact .inr (.inl ⟨_, _, 0, .inl ⟨hq, rfl⟩, hpace _ _⟩)
  · cases h; exact .inr (.inl ⟨_, _, _, .inr ⟨hq, rfl⟩, hpace _ _⟩)
  · cases h; exact .inr (.inr (.inl ⟨_, _, hq, rfl⟩))
  · cases h; exact .inr (.inr (.inr ⟨.inl hq, hstart⟩))
  · cases h; exact .inr (.inr (.inr ⟨.inr ⟨_, hq⟩, hstart⟩))

/-- The finish of a calibration (R168). -/
theorem finishStep_spec (s : State) :
    finishStep s = complete .overflow s ∨
      ((midpoint s.extrema.xmax s.extrema.xmin).finite = true ∧ (midpoint s.extrema.ymax s.extrema.ymin).finite = true ∧
        (deviation s.extrema.zmax s.extrema.zmin).finite = true ∧
        finishStep s = complete .ok { s with
          xOff := (midpoint s.extrema.xmax s.extrema.xmin).toBits
          yOff := (midpoint s.extrema.ymax s.extrema.ymin).toBits
          zDev := (deviation s.extrema.zmax s.extrema.zmin).toBits }) := by
  unfold finishStep
  dsimp only
  split
  · rename_i h
    simp only [Bool.and_eq_true] at h
    exact .inr ⟨h.1.1, h.1.2, h.2, rfl⟩
  · exact .inl rfl

/-- Taking the schedule's head changes the schedule only. -/
theorem nextAgent_spec (s : State) : ∃ sch, (nextAgent s).2 = { s with schedule := sch } := by
  unfold nextAgent
  split
  · exact ⟨_, rfl⟩
  · exact ⟨s.schedule, rfl⟩

/-- An engine step, by what is running. -/
theorem engineMove_spec {s t : State} (h : engineMove s = .next t) :
    (running s = none ∧ t = s) ∨ (running s = some .illegal ∧ t = complete .illegal s) ∨
      ∃ i, running s = some (.legal i) ∧ exec i s = .next t := by
  unfold engineMove at h
  split at h <;> rename_i hr
  · cases h; exact .inl ⟨hr, rfl⟩
  · cases h; exact .inr (.inl ⟨hr, rfl⟩)
  · exact .inr (.inr ⟨_, hr, h⟩)

/-- A step of the machine: one move of the agent that is next, from the state with the schedule's head taken. -/
theorem step_spec {s t : State} (h : step s = .next t) :
    ∃ sch, let u := { s with schedule := sch }
      ((nextAgent s).1 = .engine ∧ engineMove u = .next t) ∨ ((nextAgent s).1 = .host ∧ t = hostMove u) ∨
      ((nextAgent s).1 = .timebase ∧ t = tickMove u) ∨ ((nextAgent s).1 = .reset ∧ t = resetMove u) := by
  obtain ⟨sch, hs⟩ := nextAgent_spec s
  refine ⟨sch, ?_⟩
  unfold step at h
  simp only [← hs]
  split at h <;> rename_i hn <;> rw [hn]
  · exact .inl ⟨rfl, h⟩
  · cases h; exact .inr (.inl ⟨rfl, rfl⟩)
  · cases h; exact .inr (.inr (.inl ⟨rfl, rfl⟩))
  · cases h; exact .inr (.inr (.inr ⟨rfl, rfl⟩))

/-- The state after an attempt's sample is stored, by whether it was the last one (R164). -/
theorem afterSample_spec (i : Nat) (s : State) :
    (i + 1 < s.sampleCount.toNat ∧ afterSample i s = { s with seq := .cal .paceNext (i + 1) 0, ticks := 0 }) ∨
      (s.sampleCount.toNat ≤ i + 1 ∧ afterSample i s = { s with seq := .cal .finish (i + 1) 0 }) := by
  unfold afterSample
  split
  · rename_i h; exact .inl ⟨h, rfl⟩
  · rename_i h; exact .inr ⟨Nat.le_of_not_lt h, rfl⟩

/-- The state after a not-ready status, by whether the retry limit is reached (R164, R174). -/
theorem afterNotReady_spec (i r : Nat) (s : State) :
    (s.params.calRetryLimit ≠ 0 ∧ s.params.calRetryLimit.toNat ≤ r + 1 ∧ afterNotReady i r s = complete .calTimeout s) ∨
      (retryBelowLimit s.params (r + 1) = true ∧
        afterNotReady i r s = { s with seq := .cal .paceRetry i (r + 1), ticks := 0 }) := by
  unfold afterNotReady
  split
  · rename_i h; exact .inl ⟨h.1, h.2, rfl⟩
  · rename_i h
    refine .inr ⟨?_, rfl⟩
    simp only [retryBelowLimit, Bool.or_eq_true, beq_iff_eq, decide_eq_true_eq]
    by_cases h0 : s.params.calRetryLimit = 0
    · exact .inl h0
    · exact .inr (Nat.lt_of_not_le fun hle => h ⟨h0, hle⟩)

/-- What a running command is, by `seq`. -/
theorem seq_of_running {s : State} {i : Instr} (h : running s = some (.legal i)) :
    s.seq = .run (.legal i) ∨ (i = .calibrate ∧ ∃ p k r, s.seq = .cal p k r) := by
  unfold running at h
  split at h
  · cases h
  · cases h; exact .inl ‹_›
  · cases h; exact .inr ⟨rfl, _, _, _, ‹_›⟩

/-- Preservation, once for every invariant: what has to be shown of a property for each kind of move. -/
theorem step_preserves (P : State → Prop)
    (schedule : ∀ s sch, P s → P { s with schedule := sch })
    (host : ∀ s h d, P s → P { s with host := h, readData := d })
    (accepts : ∀ s w, s.seq = .idle → P s → P (accept w s))
    (writes : ∀ s a x y z w, s.seq = .idle → P s → P { s with arg0 := a, vecX := x, vecY := y, vecZ := z, winIdx := w })
    (aborts : ∀ s, s.seq ≠ .idle → P s → P { s with status := { s.status with abortReq := true } })
    (overruns : ∀ s, s.seq ≠ .idle → P s → P { s with status := { s.status with overrun := true }, droppedInRun := true })
    (ticks : ∀ s n, P s → P { s with ticks := n })
    (resets : ∀ s, P s → P (resetMove s))
    (illegal : ∀ s, s.seq = .run .illegal → P s → P (complete .illegal s))
    (executes : ∀ i s t, running s = some (.legal i) → P s → exec i s = .next t → P t) :
    ∀ s t, P s → step s = .next t → P t := by
  intro s t hp h
  obtain ⟨sch, ⟨-, h⟩ | ⟨-, h⟩ | ⟨-, h⟩ | ⟨-, h⟩⟩ := step_spec h
  · rcases engineMove_spec h with ⟨-, rfl⟩ | ⟨hr, rfl⟩ | ⟨i, hr, he⟩
    · exact schedule _ _ hp
    · refine illegal _ ?_ (schedule _ _ hp)
      unfold running at hr; split at hr <;> simp_all
    · exact executes i _ _ hr (schedule _ _ hp) he
  · subst h
    rcases hostMove_spec { s with schedule := sch } with ⟨a, v, r, h⟩ | ⟨l, d, h⟩ <;> rw [h]
    · have hp' : P { s with schedule := sch, host := r } := host _ r s.readData (schedule _ sch hp)
      rcases hostWrite_spec a v { s with schedule := sch, host := r } with
        ⟨hi, h⟩ | ⟨hi, _, _, _, _, _, h⟩ | ⟨hi, h⟩ | ⟨hi, h⟩ <;> rw [h]
      · exact accepts _ _ hi hp'
      · exact writes _ _ _ _ _ _ hi hp'
      · exact aborts _ hi hp'
      · exact overruns _ hi hp'
    · exact host _ l d (schedule _ sch hp)
  · subst h
    unfold tickMove
    split
    · exact ticks _ _ (schedule _ _ hp)
    · exact schedule _ _ hp
  · subst h; exact resets _ (schedule _ _ hp)

/-! ### Runs with an empty schedule -/

theorem run_one {s t : State} (h : step s = .next t) : core.run 1 s = .next t := by
  simp [core, Host.Core.run, h]

theorem run_succ {s t : State} {k : Nat} (h : step s = .next t) : core.run (k + 1) s = core.run k t := by
  simp [core, Host.Core.run, h]

theorem step_engine {s : State} (h : s.schedule = []) (he : engineEnabled s = true) : step s = engineMove s := by
  simp [step, nextAgent, h, defaultAgent, he]

/-- With nothing scheduled, a command other than a calibration in its phases steps at once. -/
theorem step_run {s : State} {c : Command} (h : s.schedule = []) (hq : s.seq = .run c) : step s = engineMove s :=
  step_engine h (by simp [engineEnabled, hq, pacing])

end Sys2Proof.Machine
end

