-- ==== Sys2Proof/Laws/Premises.lean ====
section
/-! SUPPORT. The launch premises over runs (70_reset_and_hazards.md R250): how the issued transactions unfold, and a condition on the
port's answers that is enough for NOFAIL. -/

namespace Sys2Proof.Machine

theorem issued_zero (s : State) : s.issued 0 = [] := rfl

theorem issued_succ {s t : State} (h : step s = .next t) (k : Nat) : s.issued (k + 1) = newEntries s t ++ t.issued k := by
  simp [State.issued, h]

theorem newEntries_of_same {s t : State} (h : t.transcript = s.transcript) : newEntries s t = [] := by
  simp [newEntries, h]

theorem newEntries_of_append {s t : State} {e : Transaction} (h : t.transcript = s.transcript ++ [e]) :
    newEntries s t = [e] := by simp [newEntries, h]

/-- A state that steps to itself issues nothing. -/
theorem issued_of_fixed {s : State} (h : step s = .next s) (k : Nat) : s.issued k = [] := by
  induction k with
  | zero => rfl
  | succ k ih => rw [issued_succ h, ih, newEntries_of_same rfl, List.append_nil]

/-- What `j + k` steps issue: what `j` steps issue, then what `k` steps issue from where they lead. -/
theorem issued_add (s : State) (j k : Nat) :
    s.issued (j + k) = s.issued j ++
      (match core.run j s with
      | .next t => t.issued k
      | .fault _ => []
      | .refused _ => []) := by
  induction j generalizing s with
  | zero => simp [issued_zero, core, Host.Core.run]
  | succ j ih =>
    rw [Nat.succ_add]
    cases hs : step s with
    | next t => rw [issued_succ hs, issued_succ hs, ih, run_succ hs, List.append_assoc]
    | fault r => simp [State.issued, hs, core, Host.Core.run]
    | refused r => simp [State.issued, hs, core, Host.Core.run]

/-- Every answer to come, named in advance or free, is no failure. -/
structure State.AnswersGood (s : State) : Prop where
  named : ∀ a ∈ s.answers, ∃ b, a = .byte b
  free : ∀ n, s.drawIx ≤ n → ∃ b, Config.freeAnswer n = .byte b

theorem State.AnswersGood.of_eq {s t : State} (h : s.AnswersGood) (ha : t.answers = s.answers) (hd : t.drawIx = s.drawIx) :
    t.AnswersGood := ⟨ha ▸ h.named, hd ▸ h.free⟩

theorem State.AnswersGood.draw {s : State} (h : s.AnswersGood) :
    ∃ b u, drawAnswer s = (.byte b, u) ∧ u.AnswersGood ∧ u.transcript = s.transcript := by
  unfold drawAnswer
  split
  · rename_i a rest he
    obtain ⟨b, rfl⟩ := h.named a (by rw [he]; exact List.mem_cons_self)
    exact ⟨b, _, rfl, ⟨fun x hx => h.named x (by rw [he]; exact List.mem_cons_of_mem _ hx), h.free⟩, rfl⟩
  · rename_i he
    obtain ⟨b, hb⟩ := h.free _ (Nat.le_refl _)
    exact ⟨b, { s with drawIx := s.drawIx + 1 }, by rw [hb], ⟨h.named, fun n hn => h.free n (Nat.le_of_succ_le hn)⟩, rfl⟩

/-- What a step under good answers keeps and adds. -/
def GoodStep (s t : State) : Prop :=
  t.AnswersGood ∧ (t.transcript = s.transcript ∨ t.transcript = [] ∨
    ∃ e, e.succeeded = true ∧ t.transcript = s.transcript ++ [e])

theorem GoodStep.of_eq {s t u : State} (h : GoodStep s t) (ht : u.transcript = t.transcript) (ha : u.answers = t.answers)
    (hd : u.drawIx = t.drawIx) : GoodStep s u := ⟨State.AnswersGood.of_eq h.1 ha hd, by rw [ht]; exact h.2⟩

theorem GoodStep.refl {s : State} (h : s.AnswersGood) : GoodStep s s := ⟨h, .inl rfl⟩

/-- A read succeeds and adds its entry. -/
theorem State.AnswersGood.memRead {s : State} (h : s.AnswersGood) (r : Byte) : ∃ b u, memRead r s = (.byte b, u) ∧ GoodStep s u := by
  obtain ⟨b, u, hu, hg, ht⟩ := h.draw
  refine ⟨b, _, memRead_of_draw hu r, State.AnswersGood.of_eq hg rfl rfl, .inr (.inr ⟨.readOk r b, rfl, ?_⟩)⟩
  rw [← ht]; rfl

/-- A write succeeds and adds its entry. -/
theorem State.AnswersGood.memWrite {s : State} (h : s.AnswersGood) (r v : Byte) :
    ∃ b u, memWrite r v s = (.byte b, u) ∧ GoodStep s u := by
  obtain ⟨b, u, hu, hg, ht⟩ := h.draw
  refine ⟨b, _, memWrite_of_draw hu r v, State.AnswersGood.of_eq hg rfl rfl, .inr (.inr ⟨.writeOk r v, rfl, ?_⟩)⟩
  rw [← ht]; rfl

theorem State.AnswersGood.readAxisByte {s : State} (h : s.AnswersGood) (r : Byte) (next : Byte → SampleProgress) :
    GoodStep s (readAxisByte r next s).2 ∧ ∀ c reg, (readAxisByte r next s).1 ≠ .failed c reg := by
  obtain ⟨b, u, hu, hg⟩ := h.memRead r
  simp only [Machine.readAxisByte, hu]
  exact ⟨hg.of_eq rfl rfl rfl, fun _ _ => nofun⟩

theorem State.AnswersGood.sampleStep {s : State} (h : s.AnswersGood) :
    GoodStep s (sampleStep s).2 ∧ ∀ c reg, (sampleStep s).1 ≠ .failed c reg := by
  unfold Machine.sampleStep
  split
  · obtain ⟨b, u, hu, hg⟩ := h.memRead 0x06
    simp only [hu]
    split
    · exact ⟨hg.of_eq rfl rfl rfl, fun _ _ => nofun⟩
    · exact ⟨hg, fun _ _ => nofun⟩
  iterate 5 · exact h.readAxisByte _ _
  · obtain ⟨b, u, hu, hg⟩ := h.memRead 0x05
    simp only [hu]
    exact ⟨hg.of_eq rfl rfl rfl, fun _ _ => nofun⟩

theorem State.AnswersGood.exec {s t : State} (h : s.AnswersGood) {i : Instr} (he : exec i s = .next t) : GoodStep s t := by
  cases i with
  | readAxes =>
    cases he
    obtain ⟨hg, hf⟩ := h.sampleStep
    unfold readAxesStep
    split <;> rename_i hs <;> rw [hs] at hg hf
    · exact hg
    · exact hg.of_eq rfl rfl rfl
    · exact absurd rfl (hf _ _)
    · exact hg.of_eq rfl rfl rfl
  | setup =>
    cases he
    unfold setupStep
    split
    · obtain ⟨b, u, hu, hg⟩ := h.memWrite 0x0B Config.resetPeriodByte
      simp only [setupWrite, hu]; exact hg.of_eq rfl rfl rfl
    · obtain ⟨b, u, hu, hg⟩ := h.memWrite 0x0A Config.control2Byte
      simp only [setupWrite, hu]; exact hg.of_eq rfl rfl rfl
    · obtain ⟨b, u, hu, hg⟩ := h.memWrite 0x09 Config.modeByte
      simp only [setupWrite, hu]; exact hg.of_eq rfl rfl rfl
  | setDecl => rcases execSetDecl_spec he with h1 | ⟨-, h1⟩ <;> rw [h1] <;> exact (GoodStep.refl h).of_eq rfl rfl rfl
  | heading => rcases execHeading_spec he with ⟨e, h1⟩ | ⟨a, -, -, h1⟩ <;> rw [h1] <;> exact (GoodStep.refl h).of_eq rfl rfl rfl
  | calibrate =>
    simp only [Machine.exec, execCalibrate] at he
    split at he
    · obtain ⟨hg, hf⟩ := h.sampleStep
      unfold attemptStep at he
      split at he <;> rename_i hs <;> rw [hs] at hg hf
      · cases he; exact hg
      · cases he; unfold afterNotReady; split <;> exact hg.of_eq rfl rfl rfl
      · exact absurd rfl (hf _ _)
      · split at he
        · cases he; unfold afterSample; split <;> exact hg.of_eq rfl rfl rfl
        · cases he
    · cases he; unfold paceStep; repeat' split
      all_goals exact (GoodStep.refl h).of_eq rfl rfl rfl
    · cases he; unfold paceStep; repeat' split
      all_goals exact (GoodStep.refl h).of_eq rfl rfl rfl
    · cases he; rcases finishStep_spec s with h1 | ⟨-, -, -, h1⟩ <;> rw [h1] <;> exact (GoodStep.refl h).of_eq rfl rfl rfl
    · cases he; unfold calibrateStart; split <;> exact (GoodStep.refl h).of_eq rfl rfl rfl
    · cases he; unfold calibrateStart; split <;> exact (GoodStep.refl h).of_eq rfl rfl rfl
  | _ => cases he; exact (GoodStep.refl h).of_eq rfl rfl rfl

theorem State.AnswersGood.step {s t : State} (h : s.AnswersGood) (hs : step s = .next t) : GoodStep s t := by
  obtain ⟨sch, ⟨-, hs⟩ | ⟨-, rfl⟩ | ⟨-, rfl⟩ | ⟨-, rfl⟩⟩ := step_spec hs
  · have h' : ({ s with schedule := sch } : State).AnswersGood := State.AnswersGood.of_eq h rfl rfl
    rcases engineMove_spec hs with ⟨-, rfl⟩ | ⟨-, rfl⟩ | ⟨i, -, he⟩
    · exact (GoodStep.refl h).of_eq rfl rfl rfl
    · exact (GoodStep.refl h).of_eq rfl rfl rfl
    · exact h'.exec he
  · rcases hostMove_spec { s with schedule := sch } with ⟨a, v, r, h1⟩ | ⟨l, d, h1⟩ <;> rw [h1]
    · rcases hostWrite_spec a v { s with schedule := sch, host := r } with
        ⟨-, h2⟩ | ⟨-, _, _, _, _, _, h2⟩ | ⟨-, h2⟩ | ⟨-, h2⟩ <;> rw [h2]
      · obtain ⟨q, d, n, t, c, e, -⟩ := accept_spec v { s with schedule := sch, host := r }
        rw [e]; exact (GoodStep.refl h).of_eq rfl rfl rfl
      all_goals exact (GoodStep.refl h).of_eq rfl rfl rfl
    · exact (GoodStep.refl h).of_eq rfl rfl rfl
  · unfold tickMove; split <;> exact (GoodStep.refl h).of_eq rfl rfl rfl
  · exact ⟨State.AnswersGood.of_eq h rfl rfl, .inr (.inl rfl)⟩

/-- Good answers are enough for NOFAIL, in every run. -/
theorem State.AnswersGood.noFail {s : State} (h : s.AnswersGood) : s.NoFail := by
  intro k
  induction k generalizing s with
  | zero => rfl
  | succ k ih =>
    cases hs : Machine.step s with
    | fault r => simp [State.issued, hs]
    | refused r => simp [State.issued, hs]
    | next t =>
      obtain ⟨hg, ht⟩ := h.step hs
      rw [issued_succ hs, List.all_append, ih hg, Bool.and_true]
      rcases ht with ht | ht | ⟨e, he, ht⟩
      · rw [newEntries_of_same ht]; rfl
      · simp [newEntries, ht]
      · rw [newEntries_of_append ht]; simp [he]

end Sys2Proof.Machine
end

