-- ==== Sys2Proof/Laws/Rounding.lean ====
section
/-! SUPPORT. The rounding of Machine/Float.lean beside the real number it rounds (00_scope.md R12): nearest, even on a tie, and where it
overflows. -/

namespace Sys2Proof.Machine.F64

theorem one_cast : (one : ℝ) = 2 ^ 1074 := by rw [one, Nat.cast_pow, Nat.cast_ofNat]

theorem one_cast_pos : (0 : ℝ) < one := Nat.cast_pos.2 units_pos

/-- A distance between whole numbers of units, over `d`. -/
theorem abs_scaled (x n : Nat) {d : Nat} (hd : 0 < d) :
    ((|((x * d : Nat) : Int) - n| : Int) : ℝ) = |(x : ℝ) - n / d| * d := by
  have hD : (0 : ℝ) < d := Nat.cast_pos.2 hd
  push_cast
  conv_rhs => rw [← abs_of_pos hD, ← abs_mul, sub_mul, abs_of_pos hD, div_mul_cancel₀ _ hD.ne']

/-- No number of units that a value can have is nearer to the real `n / d` than the rounded one. -/
theorem roundedUnits_nearest_real {n d v : Nat} (hd : 0 < d) (hv : Significand v) :
    |(roundedUnits n d : ℝ) - n / d| ≤ |(v : ℝ) - n / d| := by
  have h : ((|((roundedUnits n d * d : Nat) : Int) - n| : Int) : ℝ) ≤ ((|((v * d : Nat) : Int) - n| : Int) : ℝ) :=
    Int.cast_le.2 (roundedUnits_nearest hd hv)
  rw [abs_scaled _ _ hd, abs_scaled _ _ hd] at h
  exact le_of_mul_le_mul_right h (Nat.cast_pos.2 hd)

/-- Where another one is as near, the rounded number's pattern is even. -/
theorem roundedUnits_even_of_tie_real {n d v : Nat} (hd : 0 < d) (hv : Significand v) (hne : v ≠ roundedUnits n d)
    (h : |(v : ℝ) - n / d| = |(roundedUnits n d : ℝ) - n / d|) : magnitudeBits (roundedUnits n d) % 2 = 0 := by
  refine magnitudeBits_rounded_even_of_tie hd hv hne (Int.cast_injective (α := ℝ) ?_)
  rw [abs_scaled _ _ hd, abs_scaled _ _ hd, h]

theorem overflowUnits_cast : (overflowUnits : ℝ) = (2 ^ 1024 - 2 ^ 970) * one := by
  have h : overflowUnits + 2 ^ 970 * one = 2 ^ 1024 * one := by decide +kernel
  have h := congrArg (Nat.cast (R := ℝ)) h
  rw [Nat.cast_add, Nat.cast_mul, Nat.cast_mul, Nat.cast_pow, Nat.cast_pow, Nat.cast_ofNat] at h
  rw [sub_mul, ← h, add_sub_cancel_right]

/-- `round` gives an infinity from 2^1024 − 2^970 on. -/
theorem infBits_le_rounded_real {n d : Nat} (hd : 0 < d) :
    infBits ≤ magnitudeBits (roundedUnits n d) ↔ (2 ^ 1024 - 2 ^ 970 : ℝ) ≤ (n : ℝ) / d / one := by
  have hD : (0 : ℝ) < d := Nat.cast_pos.2 hd
  have h1 := overflowUnits_cast
  have h2 := one_cast_pos
  generalize (2 ^ 1024 - 2 ^ 970 : ℝ) = bound at h1 ⊢
  generalize (one : ℝ) = o at h1 h2 ⊢
  rw [infBits_le_rounded hd, le_div_iff₀ h2, le_div_iff₀ hD, ← h1, ← Nat.cast_mul, Nat.cast_le]

/-- Rounding to a whole number, beside the real quotient. -/
theorem divHalfEven_real {n d : Nat} (hd : 0 < d) :
    |(divHalfEven n d : ℝ) - n / d| ≤ 1 / 2 ∧ (|(divHalfEven n d : ℝ) - n / d| = 1 / 2 → divHalfEven n d % 2 = 0) := by
  have hD : (0 : ℝ) < d := Nat.cast_pos.2 hd
  obtain ⟨h1, h2⟩ := divHalfEven_bounds (n := n) hd
  have a : 2 * |((divHalfEven n d * d : Nat) : Int) - n| ≤ d := by
    rcases abs_cases (((divHalfEven n d * d : Nat) : Int) - n) with ⟨h, -⟩ | ⟨h, -⟩ <;> rw [h] <;> omega
  have ar := abs_scaled (divHalfEven n d) n hd
  constructor
  · have := (Int.cast_le (R := ℝ)).2 a
    rw [Int.cast_mul, ar, Int.cast_ofNat, Int.cast_natCast] at this
    nlinarith
  · intro h
    rw [h] at ar
    have tie : 2 * |((divHalfEven n d * d : Nat) : Int) - n| = d := by
      have : (2 : ℝ) * ((|((divHalfEven n d * d : Nat) : Int) - n| : Int) : ℝ) = d := by rw [ar]; ring
      exact_mod_cast this
    by_contra hodd
    rcases abs_cases (((divHalfEven n d * d : Nat) : Int) - n) with ⟨e, -⟩ | ⟨e, -⟩
    · have h6 : (divHalfEven n d - 1) * d + d = divHalfEven n d * d := by rw [← Nat.succ_mul]; congr 1; omega
      exact hodd (divHalfEven_even_of_tie (k := divHalfEven n d - 1) hd (by omega) (abs_eq_abs.2 (.inr (by omega))))
    · have h6 : (divHalfEven n d + 1) * d = divHalfEven n d * d + d := Nat.succ_mul _ _
      exact hodd (divHalfEven_even_of_tie (k := divHalfEven n d + 1) hd (by omega) (abs_eq_abs.2 (.inr (by omega))))

/-- Division of whole numbers toward −∞ is the floor of the real quotient. -/
theorem ediv_eq_floor (i : Int) {d : Nat} (hd : 0 < d) : i / (d : Int) = ⌊(i : ℝ) / d⌋ := by
  have hD : (0 : ℝ) < d := Nat.cast_pos.2 hd
  have h1 := Int.mul_ediv_add_emod i d
  have h2 := Int.emod_nonneg i (Int.natCast_ne_zero.2 hd.ne')
  have h3 := Int.emod_lt_of_pos i (Int.natCast_pos.2 hd)
  symm
  rw [Int.floor_eq_iff, le_div_iff₀ hD, div_lt_iff₀ hD]
  constructor
  · have : i / d * d ≤ i := by nlinarith
    exact_mod_cast this
  · have : i < (i / d + 1) * d := by nlinarith
    exact_mod_cast this

theorem getLsbD_zero_withSign (neg : Bool) (m : Nat) : (withSign neg m).getLsbD 0 = decide (m % 2 = 1) := by
  rw [withSign, BitVec.getLsbD_append]
  simp [BitVec.getLsbD_ofNat, Nat.testBit_zero, -BitVec.getLsbD_eq_getElem]

theorem msb_withSign (neg : Bool) (m : Nat) : (withSign neg m).msb = neg := by
  rw [withSign, BitVec.msb_append]
  simp

end Sys2Proof.Machine.F64
end

