-- ==== Sys2Proof/Tests/Slice0.lean ====
section
/-! SUPPORT. Tests, their expected results from 30_encoding.md R71 and R82 and from the vectors of 95_test_vectors.md (named in each
comment); the smoke tests of well-formedness; and for every statement with hypotheses a state and operands that meet them. -/

namespace Sys2Proof.Tests

open Sys2Proof.Machine

/-! ### Helpers -/

/-- An instance with SCALE 1.0 and a window of four entries. -/
def params : Params := ⟨0x3FF0000000000000, 4, 0, 0x0D, true, .correctlyRounded⟩

/-- The block right after reset, its port about to give `answers`. -/
def clean (answers : List PortAnswer) : State := State.resetWith params [] [] 0 answers 0

/-- A block that runs `c`. -/
def busyWith (c : Instr) (answers : List PortAnswer) : State :=
  { clean answers with status := { Status.reset with busy := true }, seq := .run (.legal c) }

/-- A block in a phase of a calibration of `n` samples, `i` of them stored, each 1.0. -/
def calibrating (phase : CalPhase) (i r n : Nat) (answers : List PortAnswer) : State :=
  { clean answers with
    status := { Status.reset with busy := true }, seq := .cal phase i r, sampleCount := BitVec.ofNat 32 n, interval := 5
    calN := BitVec.ofNat 64 i
    wx := (List.range i).map fun k => (k, 0x3FF0000000000000)
    wy := (List.range i).map fun k => (k, 0x3FF0000000000000)
    extrema := ⟨0x3FF0000000000000, 0x3FF0000000000000, 0x3FF0000000000000, 0x3FF0000000000000, 0x3FF0000000000000,
      0x3FF0000000000000⟩ }

/-- A block with a vector, a declination and a running HEADING. -/
def pointing (x y decl : Word) : State := { busyWith .heading [] with vecX := x, vecY := y, decl := decl }

/-- What `f` shows of the next state, if there is one. -/
def shown {α : Type} (f : State → α) (o : Host.Outcome State Fault Refusal) : Option α :=
  match o with
  | .next t => some (f t)
  | .fault _ => none
  | .refused _ => none

/-! ### Well-formedness: one ill-formed term for each check (00_scope.md R6) -/

theorem smoke_params_legal : params.legal = true := by decide

theorem smoke_scale_infinite_refused :
    { params with scale := 0x7FF0000000000000 }.scaleFinite = false ∧
      { params with scale := 0x7FF0000000000000 }.legal = false := by decide

theorem smoke_scale_negative_refused :
    { params with scale := 0xBFF0000000000000 }.scalePositive = false ∧
      { params with scale := 0xBFF0000000000000 }.legal = false := by decide

theorem smoke_scale_zero_refused :
    { params with scale := 0 }.scalePositive = false ∧ { params with scale := 0 }.legal = false := by decide

theorem smoke_empty_window_refused :
    { params with calMax := 0 }.windowNonempty = false ∧ { params with calMax := 0 }.legal = false := by decide

theorem smoke_every_command_wellformed : (Instr.decode 0xFF 0xFF).wellFormed = true := by decide

/-! ### Decoding: the words of R71 and R82 -/

theorem test_decode_nop : decode 0x0000000000000000 = .ok .nop := by decide
theorem test_decode_decode : decode 0x0000000000123401 = .ok (.decode 0x34 0x12) := by decide
theorem test_decode_read_axes : decode 0x0000000000000002 = .ok .readAxes := by decide
theorem test_decode_set_decl : decode 0x0000000000000003 = .ok .setDecl := by decide
theorem test_decode_heading : decode 0x0000000000000004 = .ok .heading := by decide
theorem test_decode_calibrate : decode 0x0000000000000005 = .ok .calibrate := by decide
theorem test_decode_abort : decode 0x0000000000000006 = .ok .abort := by decide
theorem test_decode_setup : decode 0x0000000000000007 = .ok .setup := by decide
theorem test_decode_clrerr : decode 0x0000000000000008 = .ok .clrErr := by decide
/-- IL-1 -/
theorem test_decode_illegal_words :
    decode 0x0000000000000009 = .error .opcode ∧ decode 0x00000000000000FF = .error .opcode ∧
      decode 0x0000000000000102 = .error .operand ∧ decode 0x0000000000010004 = .error .operand ∧
      decode 0x0000000001000001 = .error .reserved ∧ decode 0x8000000000000002 = .error .reserved := by decide
theorem test_table_word : decodeTableWord 64 0x800001 = some (.decode 0x00 0x80) ∧ decodeTableWord 64 9 = none := by decide

/-! ### One step of each command -/

/-- NP-1 -/
theorem test_nop_status : shown (·.status.word) (step ((clean []).withFetchWord 64 0x0)) = some 0 := by decide +kernel

/-- DEC-5 -/
theorem test_decode_smallest :
    shown (·.decResult) (step ((clean []).withFetchWord 64 0x0000000000800001)) = some 0xFFFFFFFFFFFF8000 := by
  decide +kernel

/-- DEC-11: the low byte's top bit is not a sign. -/
theorem test_decode_low_byte_unsigned :
    shown (·.decResult) (step ((clean []).withFetchWord 64 0x0000000000008001)) = some 0x80 := by decide +kernel

/-- RA-2 and W4: other bits of the status byte do not count. -/
theorem test_read_axes_not_ready :
    shown (fun t => (t.transcript, t.status.word)) (step ((clean [.byte 0xFE]).withFetchWord 64 0x2)) =
      some ([.readOk 0x06 0xFE], 0x100) := by decide +kernel

/-- RA-4: the last of the seven reads, with CAL-3's offsets and the default SCALE. -/
theorem test_read_axes_last_read :
    shown (fun t => (t.vecX, t.vecY, t.vecZ, t.status.valid))
        (step { busyWith .readAxes [.byte 0x80] with
          params := { params with scale := 0x4011666666666666 }, xOff := 0x4065BFFFFFFFFFFF, yOff := 0x4050500000000001
          sample := .zHigh 0x10 0x00 0xF0 0xFF 0x00 }) =
      some (0xC05A199999999998, 0xC060DB3333333334, 0xC101666666666666, true) := by decide +kernel

/-- SD-5 -/
theorem test_set_decl_radians :
    shown (·.decl) (step ({ clean [] with arg0 := 0x4025FF7CED916873 }.withFetchWord 64 0x3)) = some 0x3FC8926EB6888F65 := by
  decide +kernel

/-- SD-13: the product overflows. -/
theorem test_set_decl_overflow :
    shown (fun t => (t.decl, t.status.word)) (step ({ clean [] with arg0 := 0x7FE1CCF385EBC8A0 }.withFetchWord 64 0x3)) =
      some (0, 0x600) := by decide +kernel

/-- HD-18 -/
theorem test_heading_wraps :
    shown (·.hdg) (step (pointing 0xBFF0000000000000 0x3F50624DD2F1A9FC 0x4014F1A6C638D03F)) = some 0x390077 := by
  decide +kernel

/-- HD-17: 360 degrees become 0 with the carry, and stay 359 degrees 60 minutes without. -/
theorem test_heading_carry :
    shown (·.hdg) (step (pointing 0x3FF0000000000000 0 0x401921F6C0FEE4D2)) = some 0 ∧
      shown (·.hdg) (step { pointing 0x3FF0000000000000 0 0x401921F6C0FEE4D2 with
        params := { params with minuteCarry := false } }) = some 0x3C0167 := by decide +kernel

/-- CAL-3: samples 1 and 2 in the accumulators, then the finish. -/
theorem test_calibrate_accumulates_and_finishes :
    let scaled := { params with scale := 0x4011666666666666 }
    shown (·.extrema)
        (step { calibrating .attempt 1 0 3 [.byte 0x00] with
          params := scaled, sample := .zHigh 0xEC 0xFF 0x1E 0x00 0x0C
          extrema := ⟨0x407B2FFFFFFFFFFF, 0x407B2FFFFFFFFFFF, 0xC06B2FFFFFFFFFFF, 0xC06B2FFFFFFFFFFF, 0x4045C00000000000,
            0x4045C00000000000⟩ }) =
      some ⟨0xC055C00000000000, 0x407B2FFFFFFFFFFF, 0xC06B2FFFFFFFFFFF, 0x4060500000000000, 0x4045C00000000000,
        0x404A199999999999⟩ ∧
    shown (·.extrema)
        (step { calibrating .attempt 2 0 3 [.byte 0x00] with
          params := scaled, sample := .zHigh 0x28 0x00 0x50 0x00 0x09
          extrema := ⟨0xC055C00000000000, 0x407B2FFFFFFFFFFF, 0xC06B2FFFFFFFFFFF, 0x4060500000000000, 0x4045C00000000000,
            0x404A199999999999⟩ }) =
      some ⟨0xC055C00000000000, 0x407B2FFFFFFFFFFF, 0xC06B2FFFFFFFFFFF, 0x4075C00000000000, 0x4043933333333333,
        0x404A199999999999⟩ ∧
    shown (fun t => (t.xOff, t.yOff, t.zDev, t.status.word))
        (step { calibrating .finish 3 0 3 [] with
          extrema := ⟨0xC055C00000000000, 0x407B2FFFFFFFFFFF, 0xC06B2FFFFFFFFFFF, 0x4075C00000000000, 0x4043933333333333,
            0x404A199999999999⟩ }) =
      some (0x4065BFFFFFFFFFFF, 0x4050500000000001, 0x402A199999999998, 0) := by decide +kernel

/-- CAL-7: the third not-ready status at a limit of 3. -/
theorem test_calibrate_timeout :
    shown (fun t => (t.transcript, t.status.word))
        (step { calibrating .attempt 0 2 2 [.byte 0x00] with params := { params with calRetryLimit := 3 } }) =
      some ([.readOk 0x06 0x00], 0x900) := by decide +kernel

/-- CAL-12 -/
theorem test_abort_idle : shown (·.status.word) (step ((clean []).withFetchWord 64 0x6)) = some 0 := by decide +kernel

/-- P5: ABORT written while a calibration waits; STATUS reads BUSY and ABORT_REQ. -/
theorem test_abort_busy :
    shown (·.status.word)
        (step { calibrating .paceRetry 0 1 3 [] with schedule := [.host], host := [.wr 0x00 0x6] }) = some 0x11 := by
  decide +kernel

/-- SU-2: the second write fails. -/
theorem test_setup_failed_write :
    shown (fun t => (t.transcript, t.portErr, t.status.word))
        (step { busyWith .setup [.fail 0x05] with setupNext := .control2 }) =
      some ([.writeFail 0x0A 0x20 0x05], 0x10A05, 0x200) := by decide +kernel

/-- SU-1: the last write. -/
theorem test_setup_done :
    shown (fun t => (t.transcript, t.status.word)) (step { busyWith .setup [.byte 0] with setupNext := .control1 }) =
      some ([.writeOk 0x09 0x1D], 0x8) := by decide +kernel

/-- CE-1; the overrun was in an earlier command's run. -/
theorem test_clrerr :
    shown (·.status.word)
        (step ({ clean [] with
          status := { Status.reset with overrun := true, valid := true }, droppedInRun := true }.withFetchWord 64 0x8)) =
      some 0x2 := by decide +kernel

/-- BZ-1, in CLRERR's run: the dropped write sets OVERRUN and is noted. -/
theorem test_drop_in_clrerr_run :
    shown (fun t => (t.vecX, t.status.word, t.droppedInRun))
        (step { busyWith .clrErr [] with schedule := [.host], host := [.wr 0x20 0x3FF0000000000000] }) =
      some (0, 0x5, true) := by decide +kernel

/-! ### Witnesses: what the hypotheses of each statement ask for, met together -/

theorem witness_decode_of_encode : (Instr.decode 0x00 0x80).wellFormed = true := by decide

theorem witness_encode_of_decode : decode 0x0000000000FFFF01 = .ok (.decode 0xFF 0xFF) := by decide

theorem witness_match_and_mask :
    decode 0x0000000000FFFF01 = .ok (.decode 0xFF 0xFF) ∧ selects 0x0000000000FFFF01 (.decode 0 0) = true ∧
      selects 0x0000000000FFFF01 (.decode 0xFF 0xFF) = true ∧ selects 0x0000000000000008 .clrErr = true := by decide

theorem witness_step_runs_placed : decode 0x2 = .ok .readAxes ∧ decode 0x102 = .error .operand := by decide

theorem witness_step_runs_written :
    let s := { clean [] with schedule := [.host, .engine], host := [.wr 0x00 0x2] }
    decode 0x2 = .ok .readAxes ∧ s.seq = .idle ∧ s.schedule = .host :: .engine :: [] ∧ s.host = .wr 0x00 0x2 :: [] := by decide

theorem witness_acceptance :
    (clean []).seq = .idle ∧ decode 0x9 = .error .opcode ∧ decode 0x3 = .ok .setDecl ∧ decode 0x5 = .ok .calibrate ∧
      decode 0x4 = .ok .heading ∧ Instr.heading ≠ .setDecl ∧ Instr.heading ≠ .calibrate := by decide

theorem witness_illegal_word :
    decode 0x0000000001000001 = .error .reserved ∧ (clean []).seq = .idle ∧ (clean []).StatusAgrees ∧
      (clean []).progressLegal = true ∧ (busyWith .setup []).seq ≠ .idle := by decide

theorem witness_busy_write : (calibrating .attempt 0 0 1 []).seq ≠ .idle := by decide

theorem witness_idle_write :
    (clean []).seq = .idle ∧ (0x68 : Byte) ∈ [0x10, 0x20, 0x28, 0x30, 0x68] ∧
      (0x98 : Byte) ∉ [0x00, 0x10, 0x20, 0x28, 0x30, 0x68] := by decide

theorem witness_host_read :
    let s := { clean [] with schedule := [.host], host := [.rd 0x08] }
    s.schedule = .host :: [] ∧ s.host = .rd 0x08 :: [] := by decide

theorem witness_unmapped_read : (0x04 : Byte).toNat % 8 ≠ 0 ∧ 0x98 ≤ (0x98 : Byte).toNat ∧ (0x00 : Byte) = 0x00 := by decide

theorem witness_window_views :
    let s := { calibrating .finish 2 0 2 [] with winIdx := 1 }
    let u := { calibrating .finish 2 0 2 [] with winIdx := 2 }
    s.winIdx.toNat < s.calN.toNat ∧ u.calN.toNat ≤ u.winIdx.toNat := by decide

theorem witness_nop_and_abort : (Instr.nop = .nop ∨ Instr.nop = .abort) ∧ (Instr.abort = .nop ∨ Instr.abort = .abort) := by
  decide

theorem witness_clrerr :
    let s := { busyWith .clrErr [] with
      status := { Status.reset with busy := true, overrun := true }, droppedInRun := true }
    s.droppedInRun = true ∧ s.status.overrun = true ∧ { s with droppedInRun := false }.droppedInRun = false ∧
      (busyWith .clrErr []).status.overrun = false := by decide

theorem witness_setup_sequence :
    let s := busyWith .setup [.byte 0, .byte 0, .byte 0]
    s.schedule = [] ∧ s.seq = .run (.legal .setup) ∧ s.setupNext = .resetPeriod ∧
      s.answers = .byte 0 :: .byte 0 :: .byte 0 :: [] := by decide

theorem witness_setup_step (p : SetupProgress) :
    ∃ s u, s.setupNext = p ∧ drawAnswer s = (.byte 0, u) := ⟨{ busyWith .setup [.byte 0] with setupNext := p }, _, rfl, rfl⟩

theorem witness_setup_failure (p : SetupProgress) :
    ∃ s u, s.setupNext = p ∧ drawAnswer s = (.fail 5, u) := ⟨{ busyWith .setup [.fail 5] with setupNext := p }, _, rfl, rfl⟩

theorem witness_not_ready :
    let s := busyWith .readAxes [.byte 0xFE]
    s.sample = .status ∧ drawAnswer s = (.byte 0xFE, { s with answers := [] }) ∧ (0xFE : Byte).getLsbD 0 = false := by decide

theorem witness_sample_reads (p : SampleProgress) :
    (∃ s u : State, s.sample = p ∧ drawAnswer s = (.byte 1, u) ∧ (1 : Byte).getLsbD 0 = true) ∧
      (∃ (s u : State) (k r : Nat), s.sample = p ∧ drawAnswer s = (.byte 1, u) ∧ s.seq = .cal .attempt k r) :=
  ⟨⟨{ busyWith .readAxes [.byte 1] with sample := p }, _, rfl, rfl, by decide⟩,
    ⟨{ calibrating .attempt 0 0 1 [.byte 1] with sample := p }, _, 0, 0, rfl, rfl, rfl⟩⟩

theorem witness_last_read :
    let s := { busyWith .readAxes [.byte 0x80] with sample := .zHigh 1 0 2 0 3 }
    s.sample = .zHigh 1 0 2 0 3 ∧ drawAnswer s = (.byte 0x80, { s with answers := [] }) := by decide

theorem witness_ready_sample :
    let s := busyWith .readAxes (sampleAnswers 1 1 0 2 0 3 0)
    s.schedule = [] ∧ s.seq = .run (.legal .readAxes) ∧ s.sample = .status ∧ (1 : Byte).getLsbD 0 = true ∧
      s.answers = sampleAnswers 1 1 0 2 0 3 0 ++ [] := by decide

theorem witness_read_axes_failure :
    ∃ s u, s.sample = .yHigh 0x10 0x00 0x20 ∧ drawAnswer s = (.fail 0x7E, u) :=
  ⟨{ busyWith .readAxes [.fail 0x7E] with sample := .yHigh 0x10 0x00 0x20 }, _, rfl, rfl⟩

theorem witness_read_axes_inputs :
    let a := sampleAnswers 1 1 0 2 0 3 0
    let s := busyWith .readAxes (a ++ [.fail 1])
    let t := { busyWith .readAxes a with hdg := 7, decl := 8 }
    a.length = 7 ∧ s.schedule = [] ∧ t.schedule = [] ∧ s.seq = .run (.legal .readAxes) ∧
      t.seq = .run (.legal .readAxes) ∧ s.sample = .status ∧ t.sample = .status ∧ s.answers = a ++ [.fail 1] ∧
      t.answers = a ++ [] ∧ s.params.scale = t.params.scale ∧ s.xOff = t.xOff ∧ s.yOff = t.yOff := by
  decide

theorem witness_scaled_samples : params.legal = true ∧ (F64.ofBits 0xC060DB3333333334).finite = true := by decide

theorem witness_set_decl :
    let d := F64.ofBits 0x4056800000000000
    let r (d : F64) := F64.fdiv (F64.fmul d (F64.ofBits 0x400921FB54442D18)) (F64.ofBits 0x4066800000000000)
    d.finite = true ∧ (r d).finite = true ∧ (r (F64.ofBits 0x7FE1CCF385EBC8A0)).finite = false ∧
      (F64.ofBits 0x7FF0000000000000).finite = false := by decide +kernel

theorem witness_heading_bad_vectors :
    (F64.ofBits (pointing 0x7FF8000000000000 0 0).vecX).finite = false ∧
      (F64.ofBits (pointing 0x3FF0000000000000 0x7FF0000000000000 0).vecY).finite = false ∧
      (pointing 0x8000000000000000 0 0).vecX = 0x8000000000000000 ∧ (pointing 0x8000000000000000 0 0).vecY = 0 := by decide

theorem witness_atan2 :
    let ok (y x : Word) := (F64.ofBits y).finite = true ∧ (F64.ofBits x).finite = true ∧ ¬ (y = 0 ∧ x = 0) ∧
      y ≠ 0x8000000000000000 ∧ x ≠ 0x8000000000000000
    ok 0 1 ∧ ok 0 0x8000000000000001 ∧ ok 1 0 ∧ ok 0x8000000000000001 0 ∧ ok 0x8000000000000001 0x7FEFFFFFFFFFFFFF ∧
      F64.lt (F64.ofBits 0) (F64.ofBits 1) = true ∧ F64.lt (F64.ofBits 0x8000000000000001) (F64.ofBits 0) = true := by
  decide +kernel

theorem witness_default_angle :
    nearestAngle false F64.one F64.one = some (F64.ofBits 0x3FE921FB54442D18) ∧
      nearestAngle true F64.one F64.one = some (F64.ofBits 0x4002D97C7F3321D2) ∧ 0 < F64.one ∧
      F64.ofBits 0xBFF0000000000000 = .fin true F64.one ∧ F64.ofBits 0x4002D97C7F3321D2 ≠ .fin false 0 := by decide +kernel

theorem witness_axis_headings :
    let pos : Word := 0x3FF0000000000000
    let neg : Word := 0xBFF0000000000000
    (pointing pos 0 0).decl = 0 ∧ (F64.ofBits pos).finite = true ∧ (F64.ofBits neg).finite = true ∧
      F64.lt (F64.ofBits 0) (F64.ofBits pos) = true ∧ F64.lt (F64.ofBits neg) (F64.ofBits 0) = true ∧
      (pointing pos 0 0).vecY = 0 ∧ (pointing 0 pos 0).vecX = 0 ∧
      (pointing neg 0x8000000000000000 0).vecY = 0x8000000000000000 ∧ (pointing 0 neg 0).vecX = 0 := by decide +kernel

theorem witness_heading_succeeds :
    let s := pointing 0x3FF0000000000000 0 0x400921FB54442D18
    (F64.ofBits s.vecX).finite = true ∧ (F64.ofBits s.vecY).finite = true ∧
      ¬ ((s.vecX = 0 ∨ s.vecX = 0x8000000000000000) ∧ (s.vecY = 0 ∨ s.vecY = 0x8000000000000000)) ∧
      F64.ge (F64.ofBits 0x400921FB54442D18) (F64.ofBits s.decl) = true ∧
      F64.ge (F64.ofBits s.decl) (F64.ofBits 0xC00921FB54442D18) = true := by decide +kernel

/-- HE-8, the example of R146: the angle and the declination, and where HEADING ends. -/
theorem witness_heading_beyond_small_declination :
    let s := pointing 0xBFF0000000000000 0xBF50624DD2F1A9FC 0xC014F1A6C638D03F
    (F64.ofBits s.vecX).finite = true ∧ (F64.ofBits s.vecY).finite = true ∧
      ¬ ((s.vecX = 0 ∨ s.vecX = 0x8000000000000000) ∧ (s.vecY = 0 ∨ s.vecY = 0x8000000000000000)) ∧
      atan2 s.params.atan2 (canonicalZero (F64.ofBits s.vecY)) (canonicalZero (F64.ofBits s.vecX)) =
        F64.ofBits 0xC0091FEF0A9542EB ∧
      F64.ofBits s.decl = F64.ofBits 0xC014F1A6C638D03F ∧
      shown (fun t => (t.hdg, t.status.word)) (step s) = some (0, 0x500) := by decide +kernel

/-- HE-6: a state whose angle stays out of range; the other branches are reached in the witnesses around this one. -/
theorem witness_heading_out_of_range :
    let s := pointing 0x3FF0000000000000 0 0x402921FB54442D18
    (F64.ofBits s.vecX).finite = true ∧ (F64.ofBits s.vecY).finite = true ∧
      ¬ ((s.vecX = 0 ∨ s.vecX = 0x8000000000000000) ∧ (s.vecY = 0 ∨ s.vecY = 0x8000000000000000)) ∧
      (let a0 := F64.fadd
          (atan2 s.params.atan2 (canonicalZero (F64.ofBits s.vecY)) (canonicalZero (F64.ofBits s.vecX))) (F64.ofBits s.decl)
        let twoPi := F64.ofBits 0x401921FB54442D18
        let a1 := if F64.lt a0 (F64.ofBits 0) = true then F64.fadd a0 twoPi else a0
        let a2 := if F64.ge a1 twoPi = true then F64.fsub a1 twoPi else a1
        F64.ge a2 (F64.ofBits 0) = false ∨ F64.lt a2 twoPi = false) := by decide +kernel

/-- IEEE 754: ties, the largest finite value, the least subnormals, and the whole numbers of R12. -/
theorem test_rounding_at_the_boundaries :
    let f := F64.ofBits
    F64.fadd (f 0x4340000000000000) (f 0x3FF0000000000000) = f 0x4340000000000000 ∧
      F64.fadd (f 0x4340000000000001) (f 0x3FF0000000000000) = f 0x4340000000000002 ∧
      F64.fadd (f 0x7FEFFFFFFFFFFFFF) (f 0x7C90000000000000) = f 0x7FF0000000000000 ∧
      F64.fadd (f 0x7FEFFFFFFFFFFFFF) (f 0x7C8FFFFFFFFFFFFF) = f 0x7FEFFFFFFFFFFFFF ∧
      F64.fmul (f 0x8000000000000001) (f 0x3FE0000000000000) = f 0x8000000000000000 ∧
      F64.fdiv (f 0x0000000000000003) (f 0x4000000000000000) = f 0x0000000000000002 ∧
      F64.roundHalfEven (f 0x3FE0000000000000) = 0 ∧ F64.roundHalfEven (f 0x3FF8000000000000) = 2 ∧
      F64.roundHalfEven (f 0xC004000000000000) = -2 ∧ F64.floor (f 0xBFE0000000000000) = -1 := by decide +kernel

theorem witness_primitives :
    let a := F64.ofBits 0x7FEFFFFFFFFFFFFF
    let b := F64.ofBits 0x3FF0000000000000
    a.finite = true ∧ b.finite = true ∧ realOf b ≠ 0 ∧ ((0x7FF8000000000000 : Word).extractLsb' 52 11).toNat = 2047 ∧
      (0x7FF8000000000000 : Word).extractLsb' 0 52 ≠ 0 ∧ (-9007199254740991 : Int).natAbs < 2 ^ 53 := by
  refine ⟨by decide +kernel, by decide +kernel, ?_, by decide, by decide, by decide⟩
  rw [show F64.ofBits 0x3FF0000000000000 = .fin false F64.one by decide +kernel]
  exact div_ne_zero (mul_ne_zero (by simp) F64.one_cast_pos.ne') (pow_ne_zero _ two_ne_zero)

theorem witness_calibrate_count :
    let s := clean []
    let v := { clean [] with arg0 := 0x0000000700000004 }
    let u := { clean [] with arg0 := 0x0000000700000005 }
    s.seq = .idle ∧ s.StatusAgrees ∧ s.progressLegal = true ∧ s.arg0.extractLsb' 0 32 = 0#32 ∧ u.seq = .idle ∧ u.StatusAgrees ∧
      u.progressLegal = true ∧ u.params.calMax < u.arg0.extractLsb' 0 32 ∧ v.seq = .idle ∧
      v.arg0.extractLsb' 0 32 ≠ 0#32 ∧ v.arg0.extractLsb' 0 32 ≤ v.params.calMax := by decide

theorem witness_calibrate_stores :
    let s := { calibrating .attempt 3 0 4 [.byte 0] with sample := .zHigh 1 0 2 0 3 }
    s.seq = .cal .attempt 3 0 ∧ s.sample = .zHigh 1 0 2 0 3 ∧ drawAnswer s = (.byte 0, { s with answers := [] }) ∧
      3 < s.params.calMax.toNat ∧
      { s with seq := .cal .attempt 0 0 }.seq = .cal .attempt 0 0 ∧ 0 < s.params.calMax.toNat := by decide

theorem witness_calibrate_retries :
    let s := calibrating .attempt 1 4 4 [.byte 0xFE]
    s.seq = .cal .attempt 1 4 ∧ s.sample = .status ∧ drawAnswer s = (.byte 0xFE, { s with answers := [] }) ∧
      (0xFE : Byte).getLsbD 0 = false := by decide

theorem witness_calibrate_failure :
    let s := { calibrating .attempt 1 0 4 [.fail 0x11] with sample := .zLow 1 0 2 0 }
    s.seq = .cal .attempt 1 0 ∧ drawAnswer s = (.fail 0x11, { s with answers := [] }) := by decide

theorem witness_pacing :
    let s := calibrating .paceNext 1 0 2 []
    let u := { calibrating .paceRetry 0 3 2 [] with ticks := 5 }
    s.seq = .cal .paceNext 1 0 ∧ s.status.abortReq = false ∧ s.ticks < s.interval.toNat ∧ u.seq = .cal .paceRetry 0 3 ∧
      u.status.abortReq = false ∧ u.interval.toNat ≤ u.ticks ∧
      { s with status := { s.status with abortReq := true } }.status.abortReq = true := by decide

theorem witness_finish :
    let two := F64.ofBits 0x4000000000000000
    let mid (hi lo : Word) := F64.fdiv (F64.fadd (F64.ofBits hi) (F64.ofBits lo)) two
    let s := calibrating .finish 1 0 1 []
    let u := { s with extrema := { s.extrema with xmin := 0x7FE0000000000000, xmax := 0x7FE0000000000000 } }
    s.seq = .cal .finish 1 0 ∧ u.seq = .cal .finish 1 0 ∧ (mid s.extrema.xmax s.extrema.xmin).finite = true ∧
      (mid s.extrema.ymax s.extrema.ymin).finite = true ∧
      (F64.fsub (F64.ofBits s.extrema.zmax) (F64.ofBits s.extrema.zmin)).finite = true ∧
      (mid u.extrema.xmax u.extrema.xmin).finite = false := by decide +kernel

/-- CAL-1 -/
theorem witness_single_sample :
    let s := calibrating .attempt 0 0 1 (sampleAnswers 1 1 0 2 0 3 0)
    let x := scaledOffset s.params.scale s.xOff (dec16 1 0)
    let y := scaledOffset s.params.scale s.yOff (dec16 2 0)
    let z := scaledOnly s.params.scale (dec16 3 0)
    s.schedule = [] ∧ s.seq = .cal .attempt 0 0 ∧ s.sample = .status ∧ s.setupNext = .resetPeriod ∧ s.sampleCount = 1 ∧
      s.params.calMax ≠ 0 ∧ (1 : Byte).getLsbD 0 = true ∧ s.answers = sampleAnswers 1 1 0 2 0 3 0 ++ [] ∧
      (F64.ofBits x).finite = true ∧ (F64.ofBits y).finite = true ∧ (F64.ofBits z).finite = true ∧
      (F64.fadd (F64.ofBits x) (F64.ofBits x)).finite = true ∧ (F64.fadd (F64.ofBits y) (F64.ofBits y)).finite = true := by
  decide +kernel

theorem witness_ready_calibration :
    let samples : List (Byte × Byte × Byte × Byte × Byte × Byte × Byte) := [(1, 1, 0, 2, 0, 3, 0), (0, 3, 0, 0, 0, 5, 0)]
    let s := calibrating .attempt 0 0 2 (readyAnswers samples)
    s.schedule = [] ∧ s.host = [] ∧ s.seq = .cal .attempt 0 0 ∧ s.sample = .status ∧ s.status.abortReq = false ∧ s.WindowWf ∧
      countLegal s.params s.sampleCount = true ∧ samples.length = s.sampleCount.toNat ∧
      s.answers = readyAnswers samples ++ [] := by decide

theorem witness_never_ready :
    let s := calibrating .attempt 0 0 2 [.byte 0x00, .byte 0xFE]
    s.schedule = [] ∧ s.seq = .cal .attempt 0 0 ∧ s.sample = .status ∧ s.status.abortReq = false ∧
      s.params.calRetryLimit = 0 ∧ (∀ st ∈ [(0x00 : Byte), 0xFE], st.getLsbD 0 = false) ∧
      s.answers = [(0x00 : Byte), 0xFE].map .byte ++ [] ∧ 2 ≤ [(0x00 : Byte), 0xFE].length := by decide

/-- W5's reads: what a run of READ_AXES with its seven answers issues, in as many steps as one likes. -/
theorem witness_issued (k : Nat) :
    (busyWith .readAxes (sampleAnswers 1 1 0 2 0 3 0)).issued k = (sampleEntries 1 1 0 2 0 3 0).take k := by
  rcases k with _ | _ | _ | _ | _ | _ | _ | k
  iterate 7 · decide +kernel
  · have hfix : ∀ s : State, s.schedule = [] → s.seq = .idle → s.host = [] → step s = .next s := by
      intro s h1 h2 h3
      simp [step, nextAgent, h1, defaultAgent, engineEnabled, h2, pacing, hostMove, h3]
    have h7 : ∀ t, core.run 7 (busyWith .readAxes (sampleAnswers 1 1 0 2 0 3 0)) = .next t →
        t.schedule = [] ∧ t.seq = .idle ∧ t.host = [] := by
      intro t ht
      have := congrArg (shown fun t => (t.schedule, t.seq, t.host)) ht
      rw [show shown (fun t : State => (t.schedule, t.seq, t.host))
        (core.run 7 (busyWith .readAxes (sampleAnswers 1 1 0 2 0 3 0))) = some ([], .idle, []) by decide +kernel] at this
      simpa [shown, eq_comm] using this
    rw [show k + 1 + 1 + 1 + 1 + 1 + 1 + 1 = 7 + k by omega, issued_add,
      show (busyWith .readAxes (sampleAnswers 1 1 0 2 0 3 0)).issued 7 = sampleEntries 1 1 0 2 0 3 0 by decide +kernel]
    cases hr : core.run 7 (busyWith .readAxes (sampleAnswers 1 1 0 2 0 3 0)) with
    | next t =>
      obtain ⟨h1, h2, h3⟩ := h7 t hr
      simp [issued_of_fixed (hfix t h1 h2 h3), sampleEntries]
    | fault r => simp [sampleEntries]
    | refused r => simp [sampleEntries]

theorem witness_no_fail : (busyWith .readAxes (sampleAnswers 1 1 0 2 0 3 0)).NoFail := by
  intro k
  rw [witness_issued]
  exact List.all_eq_true.2 fun x hx => List.all_eq_true.1 (by decide : (sampleEntries 1 1 0 2 0 3 0).all _ = true) x
    (List.mem_of_mem_take hx)

theorem witness_ready_port : (busyWith .readAxes (sampleAnswers 1 1 0 2 0 3 0)).ReadyPort [1, 0, 2, 0, 3, 0] := by
  intro k
  rw [witness_issued]
  refine ⟨List.all_eq_true.2 fun x hx => List.all_eq_true.1 (by decide : (sampleEntries 1 1 0 2 0 3 0).all _ = true) x
    (List.mem_of_mem_take hx), .inl ?_⟩
  have h := (List.take_prefix k (sampleEntries 1 1 0 2 0 3 0)).filterMap Transaction.axisAnswer
  rwa [show (sampleEntries 1 1 0 2 0 3 0).filterMap Transaction.axisAnswer = [1, 0, 2, 0, 3, 0].map PortAnswer.byte by
    decide] at h

/-- A failed transaction, and a status byte without bit 0, break the premises. -/
theorem witness_premises_broken :
    ¬ (busyWith .setup [.fail 5]).NoFail ∧ ¬ (busyWith .readAxes [.byte 0xFE]).ReadyPort [] :=
  ⟨fun h => absurd (h 1) (by decide +kernel), fun h => absurd (h 1).1 (by decide +kernel)⟩

theorem witness_reset : { calibrating .attempt 0 0 2 [] with schedule := [.reset] }.schedule = .reset :: [] := by decide

theorem witness_ticks_and_polls :
    let s := { calibrating .paceNext 1 0 2 [] with schedule := [.timebase] }
    let u := { calibrating .paceNext 1 0 2 [] with schedule := [.host], host := [.poll] }
    s.schedule = .timebase :: [] ∧ pacing s = true ∧ pacing (clean []) = false ∧ u.schedule = .host :: [] ∧
      u.host = .poll :: [] := by decide

theorem witness_commands_complete (i : Instr) (h : i ≠ .calibrate) :
    ∃ s : State, s.schedule = [] ∧ s.seq = .run (.legal i) ∧ Command.legal i ≠ .legal .calibrate ∧ s.sample = .status ∧
      s.setupNext = .resetPeriod := ⟨busyWith i [], rfl, rfl, fun e => h (Command.legal.inj e), rfl, rfl⟩

theorem witness_calibration_legal :
    (calibrating .attempt 1 0 4 []).CalibrationLegal ∧ (calibrating .paceRetry 0 1 4 []).CalibrationLegal ∧
      (calibrating .finish 4 0 4 []).CalibrationLegal := by decide

theorem witness_store_outside_window :
    let s := { calibrating .attempt 4 0 5 [.byte 0] with sample := .zHigh 1 0 2 0 3 }
    s.seq = .cal .attempt 4 0 ∧ s.sample = .zHigh 1 0 2 0 3 ∧ drawAnswer s = (.byte 0, { s with answers := [] }) ∧
      s.params.calMax.toNat ≤ 4 := by decide

/-- A state that meets every invariant, with a step of the engine that stores a sample. -/
theorem witness_invariants :
    let s := { calibrating .attempt 1 0 4 [.byte 0] with sample := .zHigh 1 0 2 0 3 }
    s.StatusAgrees ∧ s.progressLegal = true ∧ s.WindowWf ∧ s.CalibrationLegal ∧ s.CalibrationFinite ∧ s.SamplesClean ∧
      s.DeviationNonneg ∧ s.ExtremaAgree ∧ s.ResultsLegal ∧ s.TranscriptInMap ∧ s.params.legal = true ∧
      shown (fun _ => ()) (step s) = some () := by decide +kernel

/-- The changes of BUSY, ABORT_REQ and ERR: an acceptance, an ABORT while busy, a completion. -/
theorem witness_status_changes :
    shown (·.status.word) (step { clean [] with schedule := [.host], host := [.wr 0x00 0x9] }) = some 0x1 ∧
      shown (·.status.word) (step { busyWith .readAxes [] with schedule := [.host], host := [.wr 0x00 0x6] }) = some 0x11 ∧
      shown (fun t => (t.seq, t.status.word)) (step { busyWith .readAxes [.byte 0] with
        status := { Status.reset with busy := true, abortReq := true } }) = some (.idle, 0x100) := by decide +kernel

/-- The other steps of the statements about every step: an engine step that adds a transaction, a reset, a step that writes. -/
theorem witness_every_step :
    shown (fun t => t.transcript.length) (step (busyWith .readAxes [.byte 1])) = some 1 ∧
      (nextAgent { busyWith .readAxes [] with schedule := [.reset] }).1 = .reset ∧
      (nextAgent (busyWith .clrErr [])).1 = .engine := by decide +kernel

end Sys2Proof.Tests
end

section
/-! PROOFS. The statements about the state (10_state.md): what each step may change, the invariants of STATUS, of the window and of the
result words, and the host's accesses. -/

namespace Sys2Proof.Machine

/-! ### Engine steps, by how they end -/

theorem seq_ne_idle_of_running {s : State} {c : Command} (h : running s = some c) : s.seq ≠ .idle := by
  intro hs
  simp [running, hs] at h

/-- Every command but the three with several engine steps completes in its one step (R245). -/
theorem exec_completes {i : Instr} {s t : State} (hr : i ≠ .readAxes) (hc : i ≠ .calibrate) (hs : i ≠ .setup)
    (h : exec i s = .next t) : ∃ e u, t = complete e u := by
  cases i with
  | nop => cases h; exact ⟨_, _, rfl⟩
  | decode lo hi => cases h; exact ⟨_, _, rfl⟩
  | abort => cases h; exact ⟨_, _, rfl⟩
  | clrErr => cases h; exact ⟨_, _, rfl⟩
  | setDecl =>
    rcases execSetDecl_spec h with rfl | ⟨-, rfl⟩
    · exact ⟨_, _, rfl⟩
    · exact ⟨_, _, rfl⟩
  | heading =>
    rcases execHeading_spec h with ⟨e, rfl⟩ | ⟨a, -, -, rfl⟩
    · exact ⟨_, _, rfl⟩
    · exact ⟨_, _, rfl⟩
  | readAxes => exact absurd rfl hr
  | calibrate => exact absurd rfl hc
  | setup => exact absurd rfl hs

/-- An attempt's step, by what follows its port read: another read, the retry limit, a failure, a retry, a stored sample (R164). -/
theorem attempt_cases {s t : State} {i r : Nat} (h : AttemptResult s t i r) :
    ∃ ans ix tr p, let u := { s with answers := ans, drawIx := ix, transcript := tr, sample := p }
      t = u ∨ t = complete .calTimeout u ∨ (∃ c reg, t = raiseTransport c reg false u) ∨
      (p = .status ∧ t = { u with seq := .cal .paceRetry i (r + 1), ticks := 0 }) ∨
      (p = .status ∧ i < s.params.calMax.toNat ∧
        ∃ v ph k, t = { storeSample i v u with seq := .cal ph (i + 1) 0, ticks := k }) := by
  obtain ⟨ans, ix, e, p, -, hu⟩ := h
  refine ⟨ans, ix, s.transcript ++ [e], p, ?_⟩
  intro u
  rcases hu with h | ⟨hp, h⟩ | h | ⟨hp, hi, -, -, -, v, -, -, -, -, h⟩
  · exact .inl h
  · rcases afterNotReady_spec i r u with ⟨-, -, hu⟩ | ⟨-, hu⟩
    · exact .inr (.inl (h.trans hu))
    · exact .inr (.inr (.inr (.inl ⟨hp, h.trans hu⟩)))
  · exact .inr (.inr (.inl h))
  · refine .inr (.inr (.inr (.inr ⟨hp, hi, v, ?_⟩)))
    rcases afterSample_spec i (storeSample i v u) with ⟨-, hu⟩ | ⟨-, hu⟩
    · exact ⟨.paceNext, 0, h.trans hu⟩
    · exact ⟨.finish, _, h.trans hu⟩

/-! ### STATUS, `seq` and the transient places (10_state.md R22, R36, R43) -/

/-- The invariant of `StepKeepsStatusAndTransients`. -/
def State.TransientsAgree (s : State) : Prop := s.StatusAgrees ∧ s.progressLegal = true

theorem progressLegal_iff (s : State) :
    s.progressLegal = true ↔
      (s.sample = .status ∨ s.seq = .run (.legal .readAxes) ∨ ∃ i r, s.seq = .cal .attempt i r) ∧
        (s.setupNext = .resetPeriod ∨ s.seq = .run (.legal .setup)) := by
  unfold State.progressLegal
  simp only [Bool.and_eq_true, Bool.or_eq_true, beq_iff_eq, or_assoc]
  split <;> simp_all

/-- A completion leaves BUSY and ABORT_REQ 0, `seq` IDLE and no transient, whatever ran before (R206, R43). -/
theorem complete_transientsAgree (e : ErrCode) (s : State) : (complete e s).TransientsAgree :=
  ⟨by simp [State.StatusAgrees], by simp [progressLegal_iff]⟩

theorem raiseTransport_transientsAgree (c r : Byte) (w : Bool) (s : State) : (raiseTransport c r w s).TransientsAgree :=
  complete_transientsAgree _ _

/-- An acceptance sets BUSY and clears ERR, and every transient is at its start (R78). -/
theorem accept_transientsAgree (w : Word) (s : State) : (accept w s).TransientsAgree := by
  obtain ⟨q, d, n, t, c, hacc, hq⟩ := accept_spec w s
  have hne : q ≠ .idle := by
    rcases hq with ⟨k, rfl, -⟩ | ⟨rfl, -⟩ <;> simp
  rw [hacc]
  exact ⟨by simp [State.StatusAgrees, hne], by simp [progressLegal_iff]⟩

/-- A step inside a command leaves STATUS alone, so only the transient places are to be looked at. -/
theorem State.TransientsAgree.of_busy {s t : State} (h : s.TransientsAgree) (hs : s.seq ≠ .idle)
    (hst : t.status = s.status) (ht : t.seq ≠ .idle)
    (hsample : t.sample = .status ∨ t.seq = .run (.legal .readAxes) ∨ ∃ i r, t.seq = .cal .attempt i r)
    (hsetup : t.setupNext = .resetPeriod ∨ t.seq = .run (.legal .setup)) : t.TransientsAgree := by
  obtain ⟨⟨hbusy, herr, habort⟩, -⟩ := h
  refine ⟨⟨?_, ?_, ?_⟩, (progressLegal_iff t).2 ⟨hsample, hsetup⟩⟩
  · simp [hst, hbusy, hs, ht]
  · simpa [hst] using herr
  · simpa [hst] using habort

theorem execReadAxes_transientsAgree {s t : State} (hs : s.TransientsAgree) (hr : s.seq = .run (.legal .readAxes))
    (h : exec .readAxes s = .next t) : t.TransientsAgree := by
  have hsetup := ((progressLegal_iff s).1 hs.2).2
  obtain ⟨ans, ix, e, p, -, rfl | rfl | ⟨c, r, rfl⟩ | ⟨v, rfl⟩⟩ := execReadAxes_spec h
  · exact hs.of_busy (by simp [hr]) rfl (by simp [hr]) (.inr (.inl hr)) hsetup
  · exact complete_transientsAgree _ _
  · exact raiseTransport_transientsAgree _ _ _ _
  · exact complete_transientsAgree _ _

theorem execSetup_transientsAgree {s t : State} (hs : s.TransientsAgree) (hr : s.seq = .run (.legal .setup))
    (h : exec .setup s = .next t) : t.TransientsAgree := by
  have hsample := ((progressLegal_iff s).1 hs.2).1
  obtain ⟨ans, ix, e, -, ⟨c, r, rfl⟩ | ⟨q, -, rfl⟩ | ⟨-, rfl⟩⟩ := execSetup_spec h
  · exact raiseTransport_transientsAgree _ _ _ _
  · exact hs.of_busy (by simp [hr]) rfl (by simp [hr]) hsample (.inr hr)
  · exact complete_transientsAgree _ _

/-- Only an attempt holds bytes of a sample, and it leaves for another phase only with its sample over (R164). -/
theorem attempt_transientsAgree {s t : State} {i r : Nat} (hs : s.TransientsAgree) (hq : s.seq = .cal .attempt i r)
    (h : AttemptResult s t i r) : t.TransientsAgree := by
  have hne : s.seq ≠ .idle := by simp [hq]
  have hsetup : s.setupNext = .resetPeriod := by simpa [hq] using ((progressLegal_iff s).1 hs.2).2
  obtain ⟨ans, ix, tr, p, rfl | rfl | ⟨c, reg, rfl⟩ | ⟨hp, rfl⟩ | ⟨hp, -, v, ph, k, rfl⟩⟩ := attempt_cases h
  · exact hs.of_busy hne rfl hne (.inr (.inr ⟨i, r, hq⟩)) (.inl hsetup)
  · exact complete_transientsAgree _ _
  · exact raiseTransport_transientsAgree _ _ _ _
  · exact hs.of_busy hne rfl (by simp) (.inl hp) (.inl hsetup)
  · exact hs.of_busy hne rfl (by simp) (.inl hp) (.inl hsetup)

theorem execCalibrate_transientsAgree {s t : State} (hs : s.TransientsAgree) (hr : running s = some (.legal .calibrate))
    (h : exec .calibrate s = .next t) : t.TransientsAgree := by
  have hne := seq_ne_idle_of_running hr
  have hsetup : s.setupNext = .resetPeriod := by
    rcases seq_of_running hr with hq | ⟨-, p, k, r, hq⟩
    · simpa [hq] using ((progressLegal_iff s).1 hs.2).2
    · simpa [hq] using ((progressLegal_iff s).1 hs.2).2
  rcases execCalibrate_spec h with ⟨i, r, hq, ha⟩ | ⟨i, r, r', -, rfl | ⟨-, rfl⟩ | ⟨-, -, rfl⟩⟩ | ⟨i, r, -, rfl⟩ |
    ⟨-, rfl | ⟨-, rfl⟩⟩
  · exact attempt_transientsAgree hs hq ha
  · exact hs
  · exact complete_transientsAgree _ _
  · exact hs.of_busy hne rfl (by simp) (.inr (.inr ⟨i, r', rfl⟩)) (.inl hsetup)
  · rcases finishStep_spec s with h | ⟨-, -, -, h⟩ <;> rw [h]
    · exact complete_transientsAgree _ _
    · exact complete_transientsAgree _ _
  · exact complete_transientsAgree _ _
  · exact hs.of_busy hne rfl (by simp) (.inr (.inr ⟨0, 0, rfl⟩)) (.inl hsetup)

theorem exec_transientsAgree {i : Instr} {s t : State} (hr : running s = some (.legal i)) (hs : s.TransientsAgree)
    (h : exec i s = .next t) : t.TransientsAgree := by
  by_cases hread : i = .readAxes
  · subst hread
    exact execReadAxes_transientsAgree hs (by simpa using seq_of_running hr) h
  by_cases hcal : i = .calibrate
  · subst hcal
    exact execCalibrate_transientsAgree hs hr h
  by_cases hsetup : i = .setup
  · subst hsetup
    exact execSetup_transientsAgree hs (by simpa using seq_of_running hr) h
  obtain ⟨e, u, rfl⟩ := exec_completes hread hcal hsetup h
  exact complete_transientsAgree e u

theorem resetMove_transientsAgree (s : State) : (resetMove s).TransientsAgree :=
  ⟨by simp [State.StatusAgrees, resetMove, State.resetWith, Status.reset], rfl⟩

/-- The ABORT word written while busy: ABORT_REQ may be set, for BUSY is 1 then (R79). -/
theorem State.TransientsAgree.requestAbort {s : State} (h : s.TransientsAgree) (hs : s.seq ≠ .idle) :
    { s with status := { s.status with abortReq := true } }.TransientsAgree := by
  obtain ⟨⟨hbusy, herr, -⟩, hp⟩ := h
  exact ⟨⟨hbusy, herr, fun _ => hbusy.2 hs⟩, hp⟩

/-- Settles O52: every kind of move keeps the invariant; a completion establishes it whatever ran before. -/
theorem stepKeepsStatusAndTransients : Obligations.StepKeepsStatusAndTransients := fun s t hstatus hprogress =>
  step_preserves State.TransientsAgree
    (schedule := fun _ _ h => h)
    (host := fun _ _ _ h => h)
    (accepts := fun s w _ _ => accept_transientsAgree w s)
    (writes := fun _ _ _ _ _ _ _ h => h)
    (aborts := fun _ hne h => h.requestAbort hne)
    (overruns := fun _ _ h => h)
    (ticks := fun _ _ h => h)
    (resets := fun s _ => resetMove_transientsAgree s)
    (illegal := fun s _ _ => complete_transientsAgree _ s)
    (executes := fun _ _ _ hr hs he => exec_transientsAgree hr hs he)
    s t ⟨hstatus, hprogress⟩

/-! ### What a move may change (10_state.md R39) -/

/-- The mover is the engine, running command `i`. -/
def Ran (a : Agent) (s : State) (i : Instr) : Prop := a = .engine ∧ running s = some (.legal i)

/-- The mover is the host, and it writes `v` to `addr` while the block is idle. -/
def Wrote (a : Agent) (s : State) (addr : Byte) (v : Word) : Prop :=
  a = .host ∧ s.seq = .idle ∧ ∃ rest, s.host = .wr addr v :: rest

/-- The mover is the engine, and its step ends the running command. -/
def Completes (a : Agent) (s t : State) : Prop := a = .engine ∧ s.seq ≠ .idle ∧ t.seq = .idle

/-- R39: every register that a move of agent `a` from `s` to `t` changes is one that the register's own rule lets it change. -/
structure ChangesByRule (a : Agent) (s t : State) : Prop where
  params : t.params = s.params
  decl : t.decl ≠ s.decl → Ran a s .setDecl
  offsets : t.xOff ≠ s.xOff ∨ t.yOff ≠ s.yOff ∨ t.zDev ≠ s.zDev → Ran a s .calibrate
  hdg : t.hdg ≠ s.hdg → Ran a s .heading
  decResult : t.decResult ≠ s.decResult → ∃ lo hi, Ran a s (.decode lo hi)
  window : t.wx ≠ s.wx ∨ t.wy ≠ s.wy → Ran a s .calibrate
  portErr : t.portErr ≠ s.portErr →
    (∃ c r w, t.portErr = portErrWord c r w) ∧ t.status.err = .transport ∧
      (Ran a s .readAxes ∨ Ran a s .calibrate ∨ Ran a s .setup)
  setupDone : t.status.setupDone ≠ s.status.setupDone →
    Ran a s .setup ∧ t.status.setupDone = true ∧ t.status.err = .ok
  arg0 : t.arg0 ≠ s.arg0 → Wrote a s 0x10 t.arg0
  winIdx : t.winIdx ≠ s.winIdx → Wrote a s 0x68 t.winIdx
  vecX : t.vecX ≠ s.vecX → Ran a s .readAxes ∨ Wrote a s 0x20 t.vecX
  vecY : t.vecY ≠ s.vecY → Ran a s .readAxes ∨ Wrote a s 0x28 t.vecY
  vecZ : t.vecZ ≠ s.vecZ → Ran a s .readAxes ∨ Wrote a s 0x30 t.vecZ
  calN : t.calN ≠ s.calN → Ran a s .calibrate ∨ ∃ w, decode w = .ok .calibrate ∧ Wrote a s 0x00 w
  valid : t.status.valid ≠ s.status.valid → Ran a s .readAxes
  overrun : t.status.overrun ≠ s.status.overrun →
    (Ran a s .clrErr ∧ t.status.overrun = false) ∨ (a = .host ∧ s.seq ≠ .idle ∧ t.status.overrun = true)
  busy : t.status.busy ≠ s.status.busy →
    if t.status.busy = true then ∃ w, Wrote a s 0x00 w else Completes a s t
  abortReq : t.status.abortReq ≠ s.status.abortReq →
    if t.status.abortReq = true then a = .host ∧ s.seq ≠ .idle ∧ ∃ rest, s.host = .wr 0x00 abortWord :: rest
    else Completes a s t
  err : t.status.err ≠ s.status.err → (t.status.err = .ok ∧ ∃ w, Wrote a s 0x00 w) ∨ Completes a s t
  completion : Completes a s t → t.status.busy = false ∧ t.status.abortReq = false

section Engine

variable {s t : State} {c : Command} {ans : List PortAnswer} {ix : Nat} {tr : List Transaction} {p : SampleProgress}

/-- A completion that no result comes with changes STATUS as every completion does (R206). -/
theorem complete_changes (hr : running s = some c) (e : ErrCode) :
    ChangesByRule .engine s (complete e { s with answers := ans, drawIx := ix, transcript := tr, sample := p }) := by
  have hne := seq_ne_idle_of_running hr
  constructor <;> simp [Completes, hne]

/-- A step inside a command changes no register (R245). -/
theorem continue_changes {q : Seq} {n : SetupProgress} {k : Nat} (hq : q ≠ .idle) :
    ChangesByRule .engine s { s with
      answers := ans, drawIx := ix, transcript := tr, sample := p, seq := q, setupNext := n, ticks := k } := by
  constructor <;> simp [Completes, hq]

/-- A failed transaction is recorded in PORT_ERR, whichever command made it (R203). -/
theorem raiseTransport_changes {i : Instr} (hr : running s = some (.legal i)) (hi : i = .readAxes ∨ i = .calibrate ∨ i = .setup)
    (code reg : Byte) (w : Bool) : ChangesByRule .engine s
      (raiseTransport code reg w { s with answers := ans, drawIx := ix, transcript := tr, sample := p }) := by
  have hne := seq_ne_idle_of_running hr
  constructor <;> simp [Completes, Ran, hr, hne]
  case portErr => exact fun _ => ⟨⟨code, reg, by cases w <;> simp⟩, by simpa [eq_comm] using hi⟩

theorem execReadAxes_changes (hr : running s = some (.legal .readAxes)) (h : exec .readAxes s = .next t) :
    ChangesByRule .engine s t := by
  have hne := seq_ne_idle_of_running hr
  obtain ⟨ans, ix, e, p, -, rfl | rfl | ⟨c, r, rfl⟩ | ⟨v, rfl⟩⟩ := execReadAxes_spec h
  · exact continue_changes hne
  · constructor <;> simp [Completes, Ran, hr, hne]
  · have hp := raiseTransport_changes (ans := ans) (ix := ix) (tr := s.transcript ++ [e]) (p := p) hr (.inl rfl) c r false
    exact { hp with valid := fun _ => ⟨rfl, hr⟩ }
  · constructor <;> simp [Completes, Ran, hr, hne]

theorem execSetup_changes (hr : running s = some (.legal .setup)) (h : exec .setup s = .next t) :
    ChangesByRule .engine s t := by
  have hne := seq_ne_idle_of_running hr
  obtain ⟨ans, ix, e, -, ⟨c, r, rfl⟩ | ⟨q, -, rfl⟩ | ⟨-, rfl⟩⟩ := execSetup_spec h
  · exact raiseTransport_changes hr (.inr (.inr rfl)) c r true
  · exact continue_changes hne
  · constructor <;> simp [Completes, Ran, hr, hne]

theorem attempt_changes {i r : Nat} (hr : running s = some (.legal .calibrate)) (h : AttemptResult s t i r) :
    ChangesByRule .engine s t := by
  have hne := seq_ne_idle_of_running hr
  obtain ⟨ans, ix, tr, p, rfl | rfl | ⟨c, reg, rfl⟩ | ⟨-, rfl⟩ | ⟨-, -, v, ph, k, rfl⟩⟩ := attempt_cases h
  · exact continue_changes hne
  · exact complete_changes hr _
  · exact raiseTransport_changes hr (.inr (.inl rfl)) c reg false
  · exact continue_changes (by simp)
  · constructor <;> simp [Completes, Ran, hr, hne]

theorem execCalibrate_changes (hr : running s = some (.legal .calibrate)) (h : exec .calibrate s = .next t) :
    ChangesByRule .engine s t := by
  have hne := seq_ne_idle_of_running hr
  rcases execCalibrate_spec h with ⟨i, r, hq, ha⟩ | ⟨i, r, r', -, rfl | ⟨-, rfl⟩ | ⟨-, -, rfl⟩⟩ | ⟨i, r, -, rfl⟩ |
    ⟨-, rfl | ⟨-, rfl⟩⟩
  · exact attempt_changes hr ha
  · exact continue_changes hne
  · exact complete_changes hr _
  · exact continue_changes (by simp)
  · rcases finishStep_spec s with h | ⟨-, -, -, h⟩ <;> rw [h]
    · exact complete_changes hr _
    · constructor <;> simp [Completes, Ran, hr, hne]
  · exact complete_changes hr _
  · constructor <;> simp [Completes, Ran, hr, hne]

theorem execSetDecl_changes (hr : running s = some (.legal .setDecl)) (h : exec .setDecl s = .next t) :
    ChangesByRule .engine s t := by
  rcases execSetDecl_spec h with rfl | ⟨-, rfl⟩
  · exact complete_changes hr _
  · constructor <;> simp [Completes, Ran, hr, seq_ne_idle_of_running hr]

theorem execHeading_changes (hr : running s = some (.legal .heading)) (h : exec .heading s = .next t) :
    ChangesByRule .engine s t := by
  rcases execHeading_spec h with ⟨e, rfl⟩ | ⟨a, -, -, rfl⟩
  · exact complete_changes hr _
  · constructor <;> simp [Completes, Ran, hr, seq_ne_idle_of_running hr]

theorem exec_changes {i : Instr} (hr : running s = some (.legal i)) (h : exec i s = .next t) : ChangesByRule .engine s t := by
  have hne := seq_ne_idle_of_running hr
  cases i with
  | nop => cases h; exact complete_changes hr _
  | abort => cases h; exact complete_changes hr _
  | decode lo hi => cases h; constructor <;> simp [Completes, Ran, hr, hne]
  | clrErr => cases h; constructor <;> simp +contextual [Completes, Ran, hr, hne]
  | readAxes => exact execReadAxes_changes hr h
  | setDecl => exact execSetDecl_changes hr h
  | heading => exact execHeading_changes hr h
  | calibrate => exact execCalibrate_changes hr h
  | setup => exact execSetup_changes hr h

end Engine

/-! ### Host moves, by the address written -/

/-- While idle, a write to one of the six writable addresses is an acceptance or sets the register; the rest is ignored (R42). -/
theorem hostWrite_idle {s : State} (h : s.seq = .idle) (addr : Byte) (v : Word) :
    (addr = 0x00 ∧ hostWrite addr v s = accept v s) ∨ (addr = 0x10 ∧ hostWrite addr v s = { s with arg0 := v }) ∨
    (addr = 0x20 ∧ hostWrite addr v s = { s with vecX := v }) ∨ (addr = 0x28 ∧ hostWrite addr v s = { s with vecY := v }) ∨
    (addr = 0x30 ∧ hostWrite addr v s = { s with vecZ := v }) ∨ (addr = 0x68 ∧ hostWrite addr v s = { s with winIdx := v }) ∨
    (addr ∉ [0x00, 0x10, 0x20, 0x28, 0x30, 0x68] ∧ hostWrite addr v s = s) := by
  simp only [hostWrite, h, if_true, writeIdle]
  split_ifs <;> simp_all

/-- While busy, a write is the ABORT word to CMD or is dropped (R79, R240). -/
theorem hostWrite_busy {s : State} (h : s.seq ≠ .idle) (addr : Byte) (v : Word) :
    (addr = 0x00 ∧ v = abortWord ∧ hostWrite addr v s = { s with status := { s.status with abortReq := true } }) ∨
    hostWrite addr v s = { s with status := { s.status with overrun := true }, droppedInRun := true } := by
  simp only [hostWrite, h, if_false, writeBusy]
  split_ifs <;> simp_all

/-- A host move: its line is a write, or only the host's own lines and read value change. -/
theorem hostMove_cases (s : State) :
    (∃ addr v rest, s.host = .wr addr v :: rest ∧ hostMove s = hostWrite addr v { s with host := rest }) ∨
    (∃ lines d, hostMove s = { s with host := lines, readData := d }) := by
  unfold hostMove
  split <;> rename_i hl
  · exact .inr ⟨s.host, s.readData, rfl⟩
  · exact .inl ⟨_, _, _, hl, rfl⟩
  · exact .inr ⟨_, _, rfl⟩
  · exact .inr ⟨_, _, rfl⟩

/-- Only the acceptance of CALIBRATE touches CAL_N (R162). -/
theorem accept_calN {w : Word} (h : decode w ≠ .ok .calibrate) (s : State) : (accept w s).calN = s.calN := by
  unfold accept
  dsimp only
  split
  · rfl
  · exact absurd ‹_› h
  · rfl
  · rfl

theorem accept_changes {s : State} {w : Word} {rest : List HostLine} (hs : s.seq = .idle)
    (hl : s.host = .wr 0x00 w :: rest) : ChangesByRule .host s (accept w { s with host := rest }) := by
  have hw : Wrote .host s 0x00 w := ⟨rfl, hs, rest, hl⟩
  have hcal : decode w ≠ .ok .calibrate → (accept w { s with host := rest }).calN = s.calN := fun h => accept_calN h _
  obtain ⟨q, d, n, t, c, hacc, -⟩ := accept_spec w { s with host := rest }
  rw [hacc] at hcal ⊢
  constructor <;> simp [Completes]
  case calN => exact fun h => .inr ⟨w, by_contra fun hd => h (hcal hd), hw⟩
  case busy => exact fun _ => ⟨w, hw⟩
  case err => exact fun _ => ⟨w, hw⟩

theorem hostWrite_changes {s : State} {addr : Byte} {v : Word} {rest : List HostLine} (hl : s.host = .wr addr v :: rest) :
    ChangesByRule .host s (hostWrite addr v { s with host := rest }) := by
  by_cases hs : s.seq = .idle
  · rcases hostWrite_idle (s := { s with host := rest }) hs addr v with ⟨rfl, h⟩ | ⟨rfl, h⟩ | ⟨rfl, h⟩ | ⟨rfl, h⟩ | ⟨rfl, h⟩ |
      ⟨rfl, h⟩ | ⟨-, h⟩ <;> rw [h]
    · exact accept_changes hs hl
    all_goals constructor <;> simp [Completes, Wrote, hs, hl]
  · rcases hostWrite_busy (s := { s with host := rest }) hs addr v with ⟨rfl, rfl, h⟩ | h <;> rw [h]
    · constructor <;> simp [Completes, hs, hl]
    · constructor <;> simp [Completes, hs]

theorem hostMove_changes (s : State) : ChangesByRule .host s (hostMove s) := by
  rcases hostMove_cases s with ⟨addr, v, rest, hl, h⟩ | ⟨lines, d, h⟩ <;> rw [h]
  · exact hostWrite_changes hl
  · constructor <;> simp [Completes]

theorem tickMove_changes (s : State) : ChangesByRule .timebase s (tickMove s) := by
  unfold tickMove
  split <;> constructor <;> simp [Completes]

theorem engineMove_changes {s t : State} (h : engineMove s = .next t) : ChangesByRule .engine s t := by
  rcases engineMove_spec h with ⟨hr, rfl⟩ | ⟨hr, rfl⟩ | ⟨i, hr, he⟩
  · constructor <;> simp +contextual [Completes]
  · exact complete_changes hr _
  · exact exec_changes hr he

/-- A step is a reset or keeps R39. -/
theorem step_reset_or_changes {s t : State} (h : step s = .next t) :
    ((nextAgent s).1 = .reset ∧ ∃ sch, t = resetMove { s with schedule := sch }) ∨ ChangesByRule (nextAgent s).1 s t := by
  obtain ⟨sch, ⟨ha, h⟩ | ⟨ha, rfl⟩ | ⟨ha, rfl⟩ | ⟨ha, rfl⟩⟩ := step_spec h <;> rw [ha]
  · exact .inr { engineMove_changes h with }
  · exact .inr { hostMove_changes { s with schedule := sch } with }
  · exact .inr { tickMove_changes { s with schedule := sch } with }
  · exact .inl ⟨rfl, sch, rfl⟩

/-- No step changes a parameter, a reset included (R233). -/
theorem step_params {s t : State} (h : step s = .next t) : t.params = s.params := by
  rcases step_reset_or_changes h with ⟨-, sch, rfl⟩ | hc
  · rfl
  · exact hc.params

/-- The step of an engine that runs command `i` is `exec i`. -/
theorem exec_of_ran {s t : State} {i : Instr} (h : step s = .next t) (hr : Ran (nextAgent s).1 s i) :
    ∃ sch, exec i { s with schedule := sch } = .next t := by
  obtain ⟨ha, hr⟩ := hr
  obtain ⟨sch, ⟨-, h⟩ | ⟨hb, -⟩ | ⟨hb, -⟩ | ⟨hb, -⟩⟩ := step_spec h
  · rcases engineMove_spec h with ⟨hn, -⟩ | ⟨hn, -⟩ | ⟨j, hj, he⟩
    · cases hr.symm.trans hn
    · cases hr.symm.trans hn
    · cases hr.symm.trans hj
      exact ⟨sch, he⟩
  all_goals cases ha.symm.trans hb

/-- Settles O51: the statement is `ChangesByRule`, field by field. -/
theorem resultsChangeOnlyByTheirCommand : Obligations.ResultsChangeOnlyByTheirCommand := by
  intro s t h
  refine ⟨step_params h, fun hr => ?_⟩
  have hc : ChangesByRule (nextAgent s).1 s t := (step_reset_or_changes h).resolve_left fun hreset => hr hreset.1
  exact ⟨hc.decl, hc.offsets, hc.hdg, hc.decResult, hc.window, fun hp => (hc.portErr hp).2, hc.setupDone, hc.arg0, hc.winIdx,
    hc.vecX, hc.vecY, hc.vecZ, hc.calN, hc.valid, hc.overrun, hc.busy, hc.abortReq, hc.err, hc.completion⟩

/-! ### The window columns (10_state.md R33) -/

/-- An attempt leaves the columns alone or stores one sample at an index the window has (R165). -/
theorem attempt_window {s t : State} {i r : Nat} (h : AttemptResult s t i r) :
    (t.wx = s.wx ∧ t.wy = s.wy) ∨
      i < s.params.calMax.toNat ∧ ∃ v : Vec, t.wx = s.wx.write i v.x ∧ t.wy = s.wy.write i v.y := by
  obtain ⟨ans, ix, tr, p, rfl | rfl | ⟨c, reg, rfl⟩ | ⟨-, rfl⟩ | ⟨-, hi, v, ph, k, rfl⟩⟩ := attempt_cases h
  case inr.inr.inr.inr => exact .inr ⟨hi, v, rfl, rfl⟩
  all_goals exact .inl ⟨rfl, rfl⟩

/-- CALIBRATE leaves the columns alone or stores one sample at an index the window has. -/
theorem execCalibrate_window {s t : State} (h : exec .calibrate s = .next t) :
    (t.wx = s.wx ∧ t.wy = s.wy) ∨
      ∃ i, i < s.params.calMax.toNat ∧ ∃ v : Vec, t.wx = s.wx.write i v.x ∧ t.wy = s.wy.write i v.y := by
  rcases execCalibrate_spec h with ⟨i, r, -, ha⟩ | ⟨i, r, r', -, rfl | ⟨-, rfl⟩ | ⟨-, -, rfl⟩⟩ | ⟨i, r, -, rfl⟩ |
    ⟨-, rfl | ⟨-, rfl⟩⟩
  · exact (attempt_window ha).imp_right fun hw => ⟨i, hw⟩
  case inr.inr.inl =>
    rcases finishStep_spec s with h | ⟨-, -, -, h⟩ <;> rw [h] <;> exact .inl ⟨rfl, rfl⟩
  all_goals exact .inl ⟨rfl, rfl⟩

/-- Only CALIBRATE changes the window, and what it does is a store within it. -/
theorem step_window {s t : State} (h : step s = .next t) :
    (t.wx = [] ∧ t.wy = []) ∨ (t.wx = s.wx ∧ t.wy = s.wy) ∨
      ∃ i, i < s.params.calMax.toNat ∧ ∃ v : Vec, t.wx = s.wx.write i v.x ∧ t.wy = s.wy.write i v.y := by
  rcases step_reset_or_changes h with ⟨-, sch, rfl⟩ | hc
  · exact .inl ⟨rfl, rfl⟩
  · by_cases hw : t.wx ≠ s.wx ∨ t.wy ≠ s.wy
    · obtain ⟨sch, he⟩ := exec_of_ran h (hc.window hw)
      exact .inr (execCalibrate_window (s := { s with schedule := sch }) he)
    · exact .inr (.inl (by simpa using hw))

/-- Settles O53: a store within the window keeps the columns' form, and no other step but reset touches them. -/
theorem stepKeepsWindowForm : Obligations.StepKeepsWindowForm := by
  intro s t hs h
  obtain ⟨hxf, hyf, hxw, hyw⟩ := hs
  have hp := step_params h
  unfold State.WindowWf
  rcases step_window h with ⟨hx, hy⟩ | ⟨hx, hy⟩ | ⟨i, hi, v, hx, hy⟩ <;> rw [hx, hy, hp]
  · exact ⟨rfl, rfl, rfl, rfl⟩
  · exact ⟨hxf, hyf, hxw, hyw⟩
  · exact ⟨Memory.write_wf i v.x hxf, Memory.write_wf i v.y hyf, Memory.write_within hi v.x hxw, Memory.write_within hi v.y hyw⟩

/-! ### The result words (10_state.md R24, R26, R34) -/

theorem portErrWord_reserved (code reg : Byte) (w : Bool) : (portErrWord code reg w).extractLsb' 17 47 = 0#47 := by
  rw [portErrWord, BitVec.append_assoc, BitVec.append_assoc]
  exact BitVec.extractLsb'_append_eq_left

theorem hdgDegrees_headingWord {d : Int} (h0 : 0 ≤ d) (h : d < 2 ^ 16) (m : Int) : (hdgDegrees (headingWord d m) : Int) = d := by
  rw [hdgDegrees, headingWord, BitVec.extractLsb'_append_eq_right, BitVec.toNat_ofInt]
  omega

theorem hdgMinutes_headingWord {m : Int} (h0 : 0 ≤ m) (h : m < 2 ^ 8) (d : Int) : (hdgMinutes (headingWord d m) : Int) = m := by
  rw [hdgMinutes, headingWord, BitVec.extractLsb'_append_eq_of_le (by decide), BitVec.extractLsb'_append_eq_right,
    BitVec.toNat_ofInt]
  omega

theorem headingWord_reserved (d m : Int) : (headingWord d m).extractLsb' 24 40 = 0#40 := by
  rw [headingWord, BitVec.append_assoc]
  exact BitVec.extractLsb'_append_eq_left

theorem headingWord_legal {carry : Bool} {d m : Int} (hd0 : 0 ≤ d) (hd : d ≤ 359) (hm0 : 0 ≤ m) (hm : m ≤ 60)
    (hcarry : m = 60 → carry = false) : headingLegal carry (headingWord d m) := by
  have hdeg := hdgDegrees_headingWord hd0 (by omega) m
  have hmin := hdgMinutes_headingWord hm0 (by omega) d
  refine ⟨by omega, ?_, headingWord_reserved d m⟩
  split
  · have : m ≠ 60 := fun h => by simp_all
    omega
  · omega

theorem execHeading_legal {s t : State} (hs : headingLegal s.params.minuteCarry s.hdg) (h : exec .heading s = .next t) :
    headingLegal s.params.minuteCarry t.hdg := by
  rcases execHeading_spec h with ⟨e, rfl⟩ | ⟨a, ha, hrange, rfl⟩
  · exact hs
  · have hv : a.Valid := ha ▸ wrap_valid (F64.fadd_valid _ _)
    obtain ⟨d, m, hdm, hd0, hd, hm0, hm, hcarry⟩ := dm_ok (carry := s.params.minuteCarry) hv hrange
    rw [hdm]
    exact headingWord_legal hd0 hd hm0 hm hcarry

/-- A 16-bit value is the low half-word of its own sign extension. -/
theorem extractLsb'_signExtend (v : BitVec 16) : (v.signExtend 64).extractLsb' 0 16 = v := by
  ext i hi
  have : i < 64 := by omega
  simp [BitVec.getElem_signExtend, hi, this]

theorem resetMove_resultsLegal (s : State) : (resetMove s).ResultsLegal := by
  have h : headingLegal s.params.minuteCarry 0#64 := ⟨Nat.zero_le _, Nat.zero_le _, rfl⟩
  simpa [State.ResultsLegal, resetMove, State.resetWith] using h

/-- Settles O59: a register of the three that a step changes holds the word its command makes. -/
theorem stepKeepsResultsLegal : Obligations.StepKeepsResultsLegal := by
  intro s t hs h
  obtain ⟨hdec, hhdg, hport⟩ := hs
  rcases step_reset_or_changes h with ⟨-, sch, rfl⟩ | hc
  · exact resetMove_resultsLegal _
  refine ⟨?_, ?_, ?_⟩
  · by_cases hd : t.decResult = s.decResult
    · rw [hd]; exact hdec
    · obtain ⟨lo, hi, hr⟩ := hc.decResult hd
      obtain ⟨sch, he⟩ := exec_of_ran h hr
      cases he
      exact congrArg (BitVec.signExtend 64) (extractLsb'_signExtend _).symm
  · rw [hc.params]
    by_cases hd : t.hdg = s.hdg
    · rw [hd]; exact hhdg
    · obtain ⟨sch, he⟩ := exec_of_ran h (hc.hdg hd)
      exact execHeading_legal (s := { s with schedule := sch }) hhdg he
  · by_cases hd : t.portErr = s.portErr
    · rw [hd]; exact hport
    · obtain ⟨⟨c, r, w, hw⟩, -⟩ := hc.portErr hd
      rw [hw]; exact portErrWord_reserved c r w

/-! ### The host's accesses (10_state.md R20 to R22, R32, R35, R41, R42) -/

/-- Settles O10, by the cases of a host write while idle. -/
theorem idleWriteReachesWritableRegistersOnly : Obligations.IdleWriteReachesWritableRegistersOnly := by
  intro s addr v hs
  have hw := hostWrite_idle hs
  refine ⟨by simpa using hw 0x10 v, by simpa using hw 0x20 v, by simpa using hw 0x28 v, by simpa using hw 0x30 v,
    by simpa using hw 0x68 v, ?_, ?_⟩
  · rcases hw addr v with ⟨rfl, h⟩ | ⟨rfl, h⟩ | ⟨rfl, h⟩ | ⟨rfl, h⟩ | ⟨rfl, h⟩ | ⟨rfl, h⟩ | ⟨hn, -⟩
    · simp
    case inr.inr.inr.inr.inr.inr => exact fun hm => absurd (List.mem_cons_of_mem _ hm) hn
    all_goals rw [h]; exact fun _ => rfl
  · intro hn
    rcases hw addr v with ⟨rfl, -⟩ | ⟨rfl, -⟩ | ⟨rfl, -⟩ | ⟨rfl, -⟩ | ⟨rfl, -⟩ | ⟨rfl, -⟩ | ⟨-, h⟩
    case inr.inr.inr.inr.inr.inr => exact h
    all_goals simp at hn

/-- An address that is no mapped register's reads 0, and so does CMD (R53, R21). -/
theorem hostRead_unmapped {addr : Byte} (h : addr = 0x00 ∨ addr.toNat % 8 ≠ 0 ∨ 0x98 ≤ addr.toNat) (s : State) :
    hostRead addr s = 0 := by
  have hne {a : Byte} (h0 : a ≠ 0) (h8 : a.toNat % 8 = 0) (hlt : a.toNat < 0x98) : addr ≠ a := by
    rintro rfl
    rcases h with h | h | h
    · exact h0 h
    · exact h h8
    · exact absurd hlt (Nat.not_lt.2 h)
  simp [hostRead, hne]

/-- Settles O11, by the host's move on a pending read. -/
theorem hostReadChangesNothing : Obligations.HostReadChangesNothing := by
  refine ⟨fun s addr lines rest hs hl => ?_, fun s addr h => hostRead_unmapped h s⟩
  simp only [step, nextAgent, hs, hostMove, hl]
  rfl

theorem windowView_below {s : State} (h : s.winIdx.toNat < s.calN.toNat) (m : Memory) : windowView m s = m.read s.winIdx.toNat :=
  if_pos (BitVec.lt_def.2 h)

theorem windowView_beyond {s : State} (h : s.calN.toNat ≤ s.winIdx.toNat) (m : Memory) : windowView m s = 0 :=
  if_neg fun hlt => Nat.not_lt.2 h (BitVec.lt_def.1 hlt)

/-- Settles O13, for both views by the two cases of `windowView`. -/
theorem windowViewsShowStoredEntries : Obligations.WindowViewsShowStoredEntries := fun s =>
  ⟨fun h => ⟨windowView_below h s.wx, windowView_below h s.wy⟩, fun h => ⟨windowView_beyond h s.wx, windowView_beyond h s.wy⟩⟩

/-- A bit is the field of width 1 at its place. -/
theorem getLsbD_of_extractLsb' {w i : Nat} {x : BitVec w} {b : Bool} (h : x.extractLsb' i 1 = BitVec.ofBool b) :
    x.getLsbD i = b := by
  have hb := congrArg (·.getLsbD 0) h
  simpa using hb

/-- Each field is found by dropping the fields to its right. -/
theorem Status.word_flags (s : Status) :
    s.word.getLsbD 0 = s.busy ∧ s.word.getLsbD 1 = s.valid ∧ s.word.getLsbD 2 = s.overrun ∧ s.word.getLsbD 3 = s.setupDone ∧
      s.word.getLsbD 4 = s.abortReq := by
  refine ⟨?_, ?_, ?_, ?_, ?_⟩
  all_goals
    apply getLsbD_of_extractLsb'
    rw [Status.word]
    repeat rw [BitVec.extractLsb'_append_eq_of_le (by decide)]
    exact BitVec.extractLsb'_append_eq_right

theorem Status.word_err (s : Status) : s.word.extractLsb' 8 4 = s.err.code := by
  rw [Status.word]
  repeat rw [BitVec.extractLsb'_append_eq_of_le (by decide)]
  exact BitVec.extractLsb'_append_eq_right

theorem Status.word_reserved (s : Status) : s.word.extractLsb' 5 3 = 0 ∧ s.word.extractLsb' 12 52 = 0 := by
  constructor <;> rw [Status.word]
  · repeat rw [BitVec.extractLsb'_append_eq_of_le (by decide)]
    exact BitVec.extractLsb'_append_eq_right
  · repeat rw [BitVec.extractLsb'_append_eq_of_le (by decide)]
    exact BitVec.extractLsb'_eq_self

/-- Settles O12, by the fields of the STATUS word. -/
theorem statusBitsAreTheFields : Obligations.StatusBitsAreTheFields := by
  intro s
  obtain ⟨hbusy, hvalid, hoverrun, hsetup, habort⟩ := s.status.word_flags
  obtain ⟨hlow, hhigh⟩ := s.status.word_reserved
  refine ⟨hbusy, hvalid, hoverrun, hsetup, habort, hlow, hhigh, ?_⟩
  show (s.status.word.extractLsb' 8 4).toNat = _
  rw [Status.word_err]
  cases s.status.err <;> rfl

theorem infoWord_fields (p : Params) :
    (infoWord p).extractLsb' 0 32 = p.calMax ∧ (infoWord p).extractLsb' 32 16 = p.calRetryLimit ∧
      (infoWord p).extractLsb' 48 7 = p.devAddr ∧ (infoWord p).getLsbD 55 = p.minuteCarry ∧
      (infoWord p).extractLsb' 56 8 = Config.modeByte := by
  refine ⟨?_, ?_, ?_, getLsbD_of_extractLsb' ?_, ?_⟩ <;> rw [infoWord] <;>
    repeat rw [BitVec.extractLsb'_append_eq_of_le (by decide)]
  · exact BitVec.extractLsb'_append_eq_right
  · exact BitVec.extractLsb'_append_eq_right
  · exact BitVec.extractLsb'_append_eq_right
  · exact BitVec.extractLsb'_append_eq_right
  · exact BitVec.extractLsb'_eq_self

/-- Settles O14: the plain registers by definition, INFO by its fields. -/
theorem parameterRegistersReadTheParameters : Obligations.ParameterRegistersReadTheParameters := by
  intro s
  obtain ⟨hmax, hlimit, haddr, hcarry, hmode⟩ := infoWord_fields s.params
  exact ⟨rfl, rfl, rfl, rfl, rfl, rfl, rfl, rfl, rfl, rfl, rfl, rfl, rfl, rfl, rfl, hmax, hlimit, haddr, hcarry, hmode⟩

end Sys2Proof.Machine
end

section
/-! PROOFS. The statements about the port (20_memory.md): what a step adds to the transcript. -/

namespace Sys2Proof.Machine

/-- From `s` to `t` the transcript grew by at most one transaction, and that is one of the sensor register map (R54, R59). -/
def TranscriptGrowsInMap (s t : State) : Prop :=
  t.transcript = s.transcript ∨ ∃ e, transactionInMap e = true ∧ t.transcript = s.transcript ++ [e]

/-! ### The engine's moves -/

@[simp] theorem afterNotReady_transcript (i r : Nat) (s : State) : (afterNotReady i r s).transcript = s.transcript := by
  rcases afterNotReady_spec i r s with ⟨-, -, h⟩ | ⟨-, h⟩
  · rw [h, complete_transcript]
  · rw [h]

@[simp] theorem afterSample_transcript (i : Nat) (s : State) : (afterSample i s).transcript = s.transcript := by
  rcases afterSample_spec i s with ⟨-, h⟩ | ⟨-, h⟩ <;> rw [h]

@[simp] theorem finishStep_transcript (s : State) : (finishStep s).transcript = s.transcript := by
  rcases finishStep_spec s with h | ⟨-, -, -, h⟩ <;> rw [h, complete_transcript]

/-- Each step of READ_AXES is one read of a register from 0 to 6 (R110). -/
theorem execReadAxes_transcript {s t : State} (h : exec .readAxes s = .next t) : TranscriptGrowsInMap s t := by
  obtain ⟨ans, ix, e, p, he, rfl | rfl | ⟨c, r, rfl⟩ | ⟨v, rfl⟩⟩ := execReadAxes_spec h
  all_goals exact .inr ⟨e, he, rfl⟩

/-- Each step of SETUP is one of its three writes (R191). -/
theorem execSetup_transcript {s t : State} (h : exec .setup s = .next t) : TranscriptGrowsInMap s t := by
  obtain ⟨ans, ix, e, he, ⟨c, r, rfl⟩ | ⟨q, -, rfl⟩ | ⟨-, rfl⟩⟩ := execSetup_spec h
  all_goals exact .inr ⟨e, he, rfl⟩

/-- Each step of a calibration's attempt is one read, as READ_AXES makes it (R164). -/
theorem attempt_transcript {s t : State} {i r : Nat} (h : AttemptResult s t i r) : TranscriptGrowsInMap s t := by
  obtain ⟨ans, ix, e, p, he, rfl | ⟨-, rfl⟩ | ⟨c, reg, rfl⟩ | ⟨-, -, -, -, -, v, -, -, -, -, rfl⟩⟩ := h
  all_goals exact .inr ⟨e, he, by simp⟩

/-- CALIBRATE uses the port in its attempts only. -/
theorem execCalibrate_transcript {s t : State} (h : exec .calibrate s = .next t) : TranscriptGrowsInMap s t := by
  rcases execCalibrate_spec h with ⟨i, r, -, ha⟩ | ⟨i, r, r', -, rfl | ⟨-, rfl⟩ | ⟨-, -, rfl⟩⟩ | ⟨i, r, -, rfl⟩ |
    ⟨-, rfl | ⟨-, rfl⟩⟩
  · exact attempt_transcript ha
  case inr.inr.inl => exact .inl (finishStep_transcript s)
  all_goals exact .inl rfl

/-- The commands that use the port are READ_AXES, CALIBRATE and SETUP. -/
theorem exec_transcript {i : Instr} {s t : State} (h : exec i s = .next t) : TranscriptGrowsInMap s t := by
  cases i with
  | readAxes => exact execReadAxes_transcript h
  | calibrate => exact execCalibrate_transcript h
  | setup => exact execSetup_transcript h
  | setDecl => rcases execSetDecl_spec h with rfl | ⟨-, rfl⟩ <;> exact .inl rfl
  | heading => rcases execHeading_spec h with ⟨e, rfl⟩ | ⟨a, -, -, rfl⟩ <;> exact .inl rfl
  | nop => cases h; exact .inl rfl
  | decode lo hi => cases h; exact .inl rfl
  | abort => cases h; exact .inl rfl
  | clrErr => cases h; exact .inl rfl

theorem engineMove_transcript {s t : State} (h : engineMove s = .next t) : TranscriptGrowsInMap s t := by
  rcases engineMove_spec h with ⟨-, rfl⟩ | ⟨-, rfl⟩ | ⟨i, -, he⟩
  · exact .inl rfl
  · exact .inl rfl
  · exact exec_transcript he

/-! ### The other agents, and a step of any -/

@[simp] theorem accept_transcript (w : Word) (s : State) : (accept w s).transcript = s.transcript := by
  obtain ⟨q, d, n, t, c, h, -⟩ := accept_spec w s
  rw [h]

@[simp] theorem hostWrite_transcript (addr : Byte) (v : Word) (s : State) :
    (hostWrite addr v s).transcript = s.transcript := by
  rcases hostWrite_spec addr v s with ⟨-, h⟩ | ⟨-, a, x, y, z, w, h⟩ | ⟨-, h⟩ | ⟨-, h⟩
  · rw [h, accept_transcript]
  all_goals rw [h]

@[simp] theorem hostMove_transcript (s : State) : (hostMove s).transcript = s.transcript := by
  rcases hostMove_spec s with ⟨addr, v, rest, h⟩ | ⟨lines, d, h⟩
  · rw [h, hostWrite_transcript]
  · rw [h]

@[simp] theorem tickMove_transcript (s : State) : (tickMove s).transcript = s.transcript := by
  unfold tickMove
  split <;> rfl

/-- Only reset removes transactions, only the engine adds one, and what it adds is of the sensor register map. -/
theorem step_transcript {s t : State} (h : step s = .next t) :
    ((nextAgent s).1 = .reset ∧ t.transcript = []) ∨ t.transcript = s.transcript ∨
      ((nextAgent s).1 = .engine ∧ ∃ e, transactionInMap e = true ∧ t.transcript = s.transcript ++ [e]) := by
  obtain ⟨sch, ⟨ha, h⟩ | ⟨-, rfl⟩ | ⟨-, rfl⟩ | ⟨ha, rfl⟩⟩ := step_spec h
  · exact .inr ((engineMove_transcript h).imp_right fun hadd => ⟨ha, hadd⟩)
  · exact .inr (.inl (hostMove_transcript _))
  · exact .inr (.inl (tickMove_transcript _))
  · exact .inl ⟨ha, rfl⟩

/-- Settles O60, by what a step can do to the transcript. -/
theorem stepKeepsTranscriptInMap : Obligations.StepKeepsTranscriptInMap := by
  intro s t hs h
  unfold State.TranscriptInMap at hs ⊢
  rcases step_transcript h with ⟨-, ht⟩ | ht | ⟨-, e, he, ht⟩ <;> rw [ht]
  · rfl
  · exact hs
  · simp [List.all_append, hs, he]

end Sys2Proof.Machine
end

section
/-! PROOFS. The statements about the encoding (30_encoding.md): the decoder and the encoder, the acceptance of a word, and host writes
while a command runs. -/

namespace Sys2Proof

/-! ### The decoder and the encoder (R70 to R72, R82) -/

/-- Only DECODE has operand bytes (R70). -/
theorem operands_eq_zero {i : Instr} (h : opcode i ≠ 0x01) : operandA i = 0 ∧ operandB i = 0 := by
  cases i with
  | decode lo hi => exact absurd rfl h
  | nop | readAxes | setDecl | heading | calibrate | abort | setup | clrErr => exact ⟨rfl, rfl⟩

theorem opcode_lt (i : Instr) : (opcode i).toNat < 0x09 := by
  cases i <;> simp [opcode]

/-- Every OP below 0x09 is a command's (R71). -/
theorem exists_opcode_eq {op : Byte} (h : op.toNat < 0x09) : ∃ i, opcode i = op := by
  have hrow : ∀ n < 0x09, ∃ i, (opcode i).toNat = n := by
    intro n hn
    interval_cases n
    exacts [⟨.nop, rfl⟩, ⟨.decode 0 0, rfl⟩, ⟨.readAxes, rfl⟩, ⟨.setDecl, rfl⟩, ⟨.heading, rfl⟩, ⟨.calibrate, rfl⟩,
      ⟨.abort, rfl⟩, ⟨.setup, rfl⟩, ⟨.clrErr, rfl⟩]
  obtain ⟨i, hi⟩ := hrow op.toNat h
  exact ⟨i, BitVec.eq_of_toNat_eq hi⟩

theorem decode_encode (i : Instr) : decode (encode i) = .ok i := by
  cases i with
  | decode lo hi => simp [decode, opField_encode, rsvField_encode, aField_encode, bField_encode, opcode, operandA, operandB]
  | nop | readAxes | setDecl | heading | calibrate | abort | setup | clrErr =>
    simp [decode, noOperands, opField_encode, rsvField_encode, aField_encode, bField_encode, opcode, operandA, operandB]

theorem noOperands_eq_ok {w : Word} {i j : Instr} (h : noOperands w i = .ok j) : aField w = 0 ∧ bField w = 0 ∧ i = j := by
  unfold noOperands at h
  split at h
  · rename_i hab
    exact ⟨hab.1, hab.2, Except.ok.inj h⟩
  · cases h

/-- A word that decodes to a command has the fields of the command's word. -/
theorem fields_of_decode {w : Word} {i : Instr} (h : decode w = .ok i) :
    opField w = opcode i ∧ aField w = operandA i ∧ bField w = operandB i ∧ rsvField w = 0 := by
  have plain (j : Instr) (hr : ¬ rsvField w ≠ 0) (ho : opField w = opcode j) (h1 : opcode j ≠ 0x01)
      (hj : noOperands w j = .ok i) :
      opField w = opcode i ∧ aField w = operandA i ∧ bField w = operandB i ∧ rsvField w = 0 := by
    obtain ⟨ha, hb, rfl⟩ := noOperands_eq_ok hj
    obtain ⟨hA, hB⟩ := operands_eq_zero h1
    exact ⟨ho, ha.trans hA.symm, hb.trans hB.symm, not_not.1 hr⟩
  unfold decode at h
  dsimp only at h
  split_ifs at h with hop hrsv h1 h2 h3 h4 h5 h6 h7 h8
  · cases h
    exact ⟨h1, rfl, rfl, not_not.1 hrsv⟩
  · exact plain .readAxes hrsv h2 (by decide) h
  · exact plain .setDecl hrsv h3 (by decide) h
  · exact plain .heading hrsv h4 (by decide) h
  · exact plain .calibrate hrsv h5 (by decide) h
  · exact plain .abort hrsv h6 (by decide) h
  · exact plain .setup hrsv h7 (by decide) h
  · exact plain .clrErr hrsv h8 (by decide) h
  · have h0 : opField w = 0x00 := by bv_omega
    exact plain .nop hrsv h0 (by decide) h

/-- The decoder is the encoder's inverse, on exactly the words that the encoder gives. -/
theorem decode_eq_ok_iff {w : Word} {i : Instr} : decode w = .ok i ↔ encode i = w := by
  constructor
  · intro h
    obtain ⟨ho, ha, hb, hr⟩ := fields_of_decode h
    exact word_ext ((opField_encode i).trans ho.symm) ((aField_encode i).trans ha.symm)
      ((bField_encode i).trans hb.symm) ((rsvField_encode i).trans hr.symm)
  · rintro rfl
    exact decode_encode i

/-- Settles O2: `decode_encode`, for each command by the fields of its word. -/
theorem decodeOfEncodeIsTheCommand : Obligations.DecodeOfEncodeIsTheCommand := fun i _ => decode_encode i

/-- Settles O3: the two words agree in all four fields. -/
theorem encodeOfDecodeIsTheWord : Obligations.EncodeOfDecodeIsTheWord := fun _ _ => decode_eq_ok_iff.1

/-- Settles O1: each legal word is the encoder's word of its command; the illegal ones are computed. -/
theorem workedEncodingsDecode : Obligations.WorkedEncodingsDecode :=
  ⟨decode_encode (.decode 0x01 0x00), decode_encode (.decode 0xFF 0xFF), decode_encode (.decode 0x00 0x80),
    decode_encode (.decode 0x34 0x12), decode_encode .readAxes, decode_encode .calibrate, rfl, rfl, rfl⟩

/-! ### The rows of the opcode map (R71, R74, R77) -/

theorem selects_encode (i : Instr) : selects (encode i) i = true :=
  (selects_iff _ _).2 ⟨opField_encode i, rsvField_encode i, fun h => by
    rw [aField_encode, bField_encode]
    exact operands_eq_zero h⟩

theorem selects_of_decode {w : Word} {i : Instr} (h : decode w = .ok i) : selects w i = true :=
  decode_eq_ok_iff.1 h ▸ selects_encode i

/-- A word that a row selects is the word of a command of that row: DECODE with the word's bytes, or the row's one command. -/
theorem exists_encode_of_selects {w : Word} {i : Instr} (h : selects w i = true) :
    ∃ j, encode j = w ∧ opcode j = opcode i := by
  obtain ⟨hop, hrsv, hab⟩ := (selects_iff w i).1 h
  have word {j : Instr} (hj : opcode j = opcode i) (ha : aField w = operandA j) (hb : bField w = operandB j) :
      encode j = w :=
    word_ext (by rw [opField_encode, hj, hop]) (by rw [aField_encode, ha]) (by rw [bField_encode, hb])
      (by rw [rsvField_encode, hrsv])
  by_cases h1 : opcode i = 0x01
  · exact ⟨.decode (aField w) (bField w), word h1.symm rfl rfl, h1.symm⟩
  · obtain ⟨ha, hb⟩ := hab h1
    obtain ⟨hA, hB⟩ := operands_eq_zero h1
    exact ⟨i, word rfl (ha.trans hA.symm) (hb.trans hB.symm), rfl⟩

theorem decode_of_selects {w : Word} {i : Instr} (h : selects w i = true) : ∃ j, decode w = .ok j ∧ opcode j = opcode i := by
  obtain ⟨j, hj, hop⟩ := exists_encode_of_selects h
  exact ⟨j, decode_eq_ok_iff.2 hj, hop⟩

/-- Settles O4: a row selects exactly the words of its commands, and all of them have the row's OP. -/
theorem decodeFollowsMatchAndMask : Obligations.DecodeFollowsMatchAndMask := by
  refine ⟨fun w i => selects_of_decode, fun w i => decode_of_selects, fun w i j hi hj => ?_⟩
  obtain ⟨hopi, -, -⟩ := (selects_iff w i).1 hi
  obtain ⟨hopj, -, -⟩ := (selects_iff w j).1 hj
  exact hopi.symm.trans hopj

/-- A word is illegal when no row selects it (R77). -/
theorem decode_error_iff (w : Word) : (∃ why, decode w = .error why) ↔ ∀ i, selects w i = false := by
  constructor
  · rintro ⟨why, hw⟩ i
    by_contra hi
    obtain ⟨j, hj, -⟩ := decode_of_selects (Bool.eq_true_of_not_eq_false hi)
    cases hw.symm.trans hj
  · intro h
    cases hw : decode w with
    | error why => exact ⟨why, rfl⟩
    | ok i => cases (selects_of_decode hw).symm.trans (h i)

/-- A word is legal when it is none of R74's three kinds. -/
theorem exists_selects_iff (w : Word) :
    (∃ i, selects w i = true) ↔
      (opField w).toNat < 0x09 ∧ rsvField w = 0 ∧ (opField w ≠ 0x01 → aField w = 0 ∧ bField w = 0) := by
  constructor
  · rintro ⟨i, hi⟩
    obtain ⟨hop, hrsv, hab⟩ := (selects_iff w i).1 hi
    exact ⟨hop ▸ opcode_lt i, hrsv, fun h => hab (hop ▸ h)⟩
  · rintro ⟨hlt, hrsv, hab⟩
    obtain ⟨i, hi⟩ := exists_opcode_eq hlt
    exact ⟨i, (selects_iff w i).2 ⟨hi.symm, hrsv, fun h => hab (hi ▸ h)⟩⟩

/-- Settles O5: the illegal words are those that no row selects, and the three kinds are what keeps a word from every row. -/
theorem illegalWordsAreTheThreeKinds : Obligations.IllegalWordsAreTheThreeKinds := by
  intro w
  refine ⟨decode_error_iff w, ?_⟩
  have hnone : (∀ i, selects w i = false) ↔ ¬ ∃ i, selects w i = true := by simp
  rw [decode_error_iff, hnone, exists_selects_iff]
  by_cases hlt : (opField w).toNat < 0x09
  · simp only [hlt, Nat.not_le.2 hlt]
    tauto
  · simp [hlt, Nat.not_lt.1 hlt]

end Sys2Proof

namespace Sys2Proof.Machine

/-! ### The acceptance of a word, by what it decodes to (R78) -/

theorem accept_of_error {w : Word} {why : Illegal} (h : decode w = .error why) (s : State) :
    accept w s = { beginCommand s with seq := .run .illegal } := by
  simp [accept, h]

theorem accept_of_setDecl {w : Word} (h : decode w = .ok .setDecl) (s : State) :
    accept w s = { beginCommand s with degrees := s.arg0, seq := .run (.legal .setDecl) } := by
  simp [accept, h]

theorem accept_of_calibrate {w : Word} (h : decode w = .ok .calibrate) (s : State) :
    accept w s = acceptCalibrate (beginCommand s) := by
  simp [accept, h]

theorem accept_of_other {w : Word} {i : Instr} (h : decode w = .ok i) (hdecl : i ≠ .setDecl) (hcal : i ≠ .calibrate)
    (s : State) : accept w s = { beginCommand s with seq := .run (.legal i) } := by
  cases i with
  | setDecl => exact absurd rfl hdecl
  | calibrate => exact absurd rfl hcal
  | nop | decode lo hi | readAxes | heading | abort | setup | clrErr => simp [accept, h]

theorem countLegal_iff (p : Params) (n : BitVec 32) : countLegal p n = true ↔ n ≠ 0 ∧ n ≤ p.calMax := by
  simp [countLegal, BitVec.le_def]

/-- A calibration with a legal count starts at its first attempt (R162). -/
theorem acceptCalibrate_of_legal {s : State} (h : countLegal s.params (countField s.arg0) = true) :
    acceptCalibrate s =
      { s with sampleCount := countField s.arg0, interval := intervalField s.arg0, calN := 0, seq := .cal .attempt 0 0 } :=
  if_pos h

theorem acceptCalibrate_of_illegal {s : State} (h : countLegal s.params (countField s.arg0) ≠ true) :
    acceptCalibrate s =
      { s with sampleCount := countField s.arg0, interval := intervalField s.arg0, seq := .run (.legal .calibrate) } :=
  if_neg h

theorem hostWrite_cmd_idle {s : State} (h : s.seq = .idle) (w : Word) : hostWrite 0x00 w s = accept w s := by
  simp [hostWrite, h, writeIdle]

/-- Settles O7: the frame is that of every acceptance, the latches those of the word's own case. -/
theorem acceptanceSetsBusyAndLatches : Obligations.AcceptanceSetsBusyAndLatches := by
  intro s w hs
  rw [hostWrite_cmd_idle hs]
  obtain ⟨q, d, n, t, c, hacc, -⟩ := accept_spec w s
  refine ⟨by rw [hacc], by rw [hacc], fun why h => ?_, fun h => ?_, fun h => ?_, fun i h hdecl hcal => ?_⟩
  · rw [accept_of_error h]
    exact ⟨rfl, rfl, rfl, rfl, rfl⟩
  · rw [accept_of_setDecl h]
    exact ⟨rfl, rfl, rfl, rfl, rfl⟩
  · rw [accept_of_calibrate h]
    by_cases hn : countLegal s.params (countField s.arg0) = true
    · rw [acceptCalibrate_of_legal (s := beginCommand s) hn]
      exact ⟨rfl, rfl, rfl, (if_pos ((countLegal_iff _ _).1 hn)).mpr ⟨rfl, rfl⟩⟩
    · rw [acceptCalibrate_of_illegal (s := beginCommand s) hn]
      exact ⟨rfl, rfl, rfl, (if_neg (mt (countLegal_iff _ _).2 hn)).mpr ⟨rfl, rfl⟩⟩
  · rw [accept_of_other h hdecl hcal]
    exact ⟨rfl, rfl, rfl, rfl, rfl⟩

/-! ### The step after an acceptance (R236, R245) -/

theorem running_acceptCalibrate (s : State) : running (acceptCalibrate s) = some (.legal .calibrate) := by
  by_cases hn : countLegal s.params (countField s.arg0) = true
  · rw [acceptCalibrate_of_legal hn]
    rfl
  · rw [acceptCalibrate_of_illegal hn]
    rfl

/-- What runs after an acceptance is the command the word decodes to. -/
theorem running_accept {w : Word} {i : Instr} (h : decode w = .ok i) (s : State) :
    running (accept w s) = some (.legal i) := by
  by_cases hcal : i = .calibrate
  · subst hcal
    rw [accept_of_calibrate h, running_acceptCalibrate]
  by_cases hdecl : i = .setDecl
  · subst hdecl
    rw [accept_of_setDecl h]
    rfl
  rw [accept_of_other h hdecl hcal]
  rfl

theorem running_accept_of_error {w : Word} {why : Illegal} (h : decode w = .error why) (s : State) :
    running (accept w s) = some .illegal := by
  rw [accept_of_error h]
  rfl

theorem engineMove_of_legal {s : State} {i : Instr} (h : running s = some (.legal i)) : engineMove s = exec i s := by
  simp [engineMove, h]

theorem engineMove_of_illegal {s : State} (h : running s = some .illegal) : engineMove s = .next (complete .illegal s) := by
  simp [engineMove, h, illegalStep]

theorem acceptCalibrate_schedule (s : State) (sch : List Agent) :
    { acceptCalibrate s with schedule := sch } = acceptCalibrate { s with schedule := sch } := by
  by_cases hn : countLegal s.params (countField s.arg0) = true
  · rw [acceptCalibrate_of_legal hn, acceptCalibrate_of_legal (s := { s with schedule := sch }) hn]
  · rw [acceptCalibrate_of_illegal hn, acceptCalibrate_of_illegal (s := { s with schedule := sch }) hn]

/-- The acceptance of a word does not look at who moves next. -/
theorem accept_schedule (w : Word) (s : State) (sch : List Agent) :
    { accept w s with schedule := sch } = accept w { s with schedule := sch } := by
  unfold accept
  dsimp only
  split
  · rfl
  · exact acceptCalibrate_schedule (beginCommand s) sch
  · rfl
  · rfl

theorem withFetchWord_toNat (s : State) (w : Word) : s.withFetchWord 64 w.toNat = placeCommand w s := by
  rw [State.withFetchWord, Nat.mod_eq_of_lt w.isLt, BitVec.ofNat_toNat, BitVec.setWidth_eq]

theorem step_of_engine {s : State} {rest : List Agent} (h : s.schedule = .engine :: rest) :
    step s = engineMove { s with schedule := rest } := by
  simp [step, nextAgent, h]

/-- An idle block's host moves by a write to CMD: the word is accepted. -/
theorem step_of_cmdWrite {s : State} {w : Word} {rest : List Agent} {lines : List HostLine} (hs : s.seq = .idle)
    (hsch : s.schedule = .host :: rest) (hl : s.host = .wr 0x00 w :: lines) :
    step s = .next (accept w { s with schedule := rest, host := lines }) := by
  have hw := hostWrite_cmd_idle (s := { s with schedule := rest, host := lines }) hs w
  simp only [step, nextAgent, hsch, hostMove, hl, hw]

/-- The engine step of a placed word is that of the acceptance. -/
theorem step_withFetchWord (s : State) (w : Word) : step (s.withFetchWord 64 w.toNat) = engineMove (accept w s) := by
  rw [withFetchWord_toNat]
  exact step_of_engine rfl

/-- The engine, when it is next, runs the command of the word just accepted. -/
theorem step_accept {w : Word} {i : Instr} (h : decode w = .ok i) (s : State) (rest : List Agent) :
    step (accept w { s with schedule := .engine :: rest }) = exec i (accept w { s with schedule := rest }) := by
  rw [← accept_schedule w s, step_of_engine rfl, accept_schedule w s]
  exact engineMove_of_legal (running_accept h _)

/-- Settles O6: the engine moves from the acceptance, which runs the word's command. -/
theorem stepRunsTheAcceptedCommand : Obligations.StepRunsTheAcceptedCommand := by
  refine ⟨fun s w i h => ?_, fun s w why h => ?_, fun s w i rest lines h hs hsch hl => ?_⟩
  · rw [step_withFetchWord, engineMove_of_legal (running_accept h s)]
  · rw [step_withFetchWord, engineMove_of_illegal (running_accept_of_error h s)]
  · exact ⟨_, _, step_of_cmdWrite hs hsch hl, step_accept h { s with host := lines } rest, rfl, running_accept h _⟩

/-! ### Writes while a command runs, and illegal words (R75, R79, R240) -/

/-- Settles O9: while busy a host write is `writeBusy`. -/
theorem busyWriteIsDroppedOrAborts : Obligations.BusyWriteIsDroppedOrAborts := by
  intro s addr v hs
  have hbusy : hostWrite addr v s = writeBusy addr v s := if_neg hs
  rw [hbusy, writeBusy, abortWord]

/-- An idle block that meets its invariants has no flag of a command set and holds no transient. -/
theorem State.TransientsAgree.of_idle {s : State} (h : s.TransientsAgree) (hs : s.seq = .idle) :
    s.status.busy = false ∧ s.status.abortReq = false ∧ s.sample = .status ∧ s.setupNext = .resetPeriod := by
  obtain ⟨⟨hbusy, -, habort⟩, hp⟩ := h
  obtain ⟨hsample, hsetup⟩ := (progressLegal_iff s).1 hp
  have hb : s.status.busy = false := by simpa [hs] using hbusy
  exact ⟨hb, by simpa [hb] using habort, by simpa [hs] using hsample, by simpa [hs] using hsetup⟩

/-- Settles O8: while idle the acceptance and the completion undo each other but for ERR; while busy the word is not ABORT's. -/
theorem illegalWordOnlyCompletesIllegal : Obligations.IllegalWordOnlyCompletesIllegal := by
  intro s w why h
  refine ⟨fun hs hstatus hprogress => ?_, fun hs => ?_⟩
  · obtain ⟨hbusy, habort, hsample, hsetup⟩ := State.TransientsAgree.of_idle ⟨hstatus, hprogress⟩ hs
    rw [hostWrite_cmd_idle hs, engineMove_of_illegal (running_accept_of_error h s), accept_of_error h]
    simp [complete, beginCommand, hs, hbusy, habort, hsample, hsetup]
  · have hne : w ≠ 0x0000000000000006 := by
      rintro rfl
      cases h.symm.trans (decode_encode .abort)
    rw [busyWriteIsDroppedOrAborts s 0x00 w hs, if_neg fun hw => hne hw.2]

end Sys2Proof.Machine
end

namespace Sys2Proof.Machine

/-! ### The axis decoder (R100 to R102) -/

theorem toNat_bytePair (lo hi : Byte) : (hi ++ lo).toNat = hi.toNat * 256 + lo.toNat := by
  rw [BitVec.toNat_append, ← Nat.shiftLeft_add_eq_or_of_lt lo.isLt, Nat.shiftLeft_eq]

/-- The decode function is concatenation read as two's complement (R102). -/
theorem dec16_eq_toInt (lo hi : Byte) : dec16 lo hi = (hi ++ lo).toInt := by
  rw [BitVec.toInt_eq_toNat_cond, toNat_bytePair, dec16]
  by_cases h : 32768 ≤ hi.toNat * 256 + lo.toNat
  · rw [if_pos h, if_neg (by omega)]
    rfl
  · rw [if_neg h, if_pos (by omega)]

/-- Settles O20: the pair is R100's shift and or, and its two's complement has the sign bit's branch and range. -/
theorem dec16SubtractsTheModulus : Obligations.Dec16SubtractsTheModulus := by
  intro lo hi
  have hraw : lo.toNat ||| hi.toNat <<< 8 = (hi ++ lo).toNat := by rw [BitVec.toNat_append, Nat.or_comm]
  have hcond : (hi ++ lo).toNat < 32768 ↔ 2 * (hi ++ lo).toNat < 2 ^ 16 := by omega
  rw [hraw, dec16_eq_toInt]
  simp only [hcond]
  exact ⟨BitVec.toInt_eq_toNat_cond _, BitVec.le_toInt _, Int.le_of_lt_add_one BitVec.toInt_lt⟩

theorem exec_decode (lo hi : Byte) (s : State) : exec (.decode lo hi) s = execDecode lo hi s := rfl

/-- Settles O21: the 16-bit pattern of the decoded value is the pair itself. -/
theorem decodeSignExtendsThePair : Obligations.DecodeSignExtendsThePair := by
  intro s lo hi
  have hpair : BitVec.ofInt 16 (dec16 lo hi) = hi ++ lo := by rw [dec16_eq_toInt, BitVec.ofInt_toInt]
  rw [exec_decode, execDecode, hpair, complete]

end Sys2Proof.Machine

section
/-! PROOFS. The statements about the sample reader (41_sample_reader.md): the reads of a sample and what READ_AXES makes of them, the
scaled values, and the samples and accumulators that a calibration holds. -/

namespace Sys2Proof.Machine

/-! ### One port read of a sample (R110 to R114) -/

/-- The place of the next read when `b` was read at place `p`; none where the sample ends with that read (R110, R112). -/
def SampleProgress.after (b : Byte) : SampleProgress → Option SampleProgress
  | .status => if b.getLsbD 0 then some .xLow else none
  | .xLow => some (.xHigh b)
  | .xHigh xl => some (.yLow xl b)
  | .yLow xl xh => some (.yHigh xl xh b)
  | .yHigh xl xh yl => some (.zLow xl xh yl b)
  | .zLow xl xh yl yh => some (.zHigh xl xh yl yh b)
  | .zHigh _ _ _ _ _ => none

/-- The reads of a sample that are still to come at a place (R110: seven in all). -/
def SampleProgress.readsLeft : SampleProgress → Nat
  | .status => 7
  | .xLow => 6
  | .xHigh _ => 5
  | .yLow _ _ => 4
  | .yHigh _ _ _ => 3
  | .zLow _ _ _ _ => 2
  | .zHigh _ _ _ _ _ => 1

theorem SampleProgress.readsLeft_pos (p : SampleProgress) : 0 < p.readsLeft := by
  cases p <;> simp [readsLeft]

theorem SampleProgress.readsLeft_after {p q : SampleProgress} {b : Byte} (h : p.after b = some q) :
    p.readsLeft = q.readsLeft + 1 := by
  cases p with
  | status =>
    obtain ⟨-, rfl⟩ : b.getLsbD 0 = true ∧ .xLow = q := by simpa [after] using h
    rfl
  | zHigh => cases h
  | xLow | xHigh | yLow | yHigh | zLow => cases h; rfl

/-- A sample ends at a status with bit 0 clear or at the last of its reads. -/
theorem SampleProgress.after_eq_none {p : SampleProgress} {b : Byte} (h : p.after b = none) :
    (p = .status ∧ b.getLsbD 0 = false) ∨ ∃ xl xh yl yh zl, p = .zHigh xl xh yl yh zl := by
  cases p with
  | status => exact .inl ⟨rfl, by simpa [after] using h⟩
  | zHigh xl xh yl yh zl => exact .inr ⟨xl, xh, yl, yh, zl, rfl⟩
  | xLow | xHigh | yLow | yHigh | zLow => cases h

theorem sampleStep_of_fail {s u : State} {c : Byte} (h : drawAnswer s = (.fail c, u)) :
    sampleStep s = (.failed c (sampleRegister s.sample), appendTranscript (.readFail (sampleRegister s.sample) c) u) := by
  cases hp : s.sample <;> simp [sampleStep, readAxisByte, hp, memRead_of_draw h, sampleRegister, readEntry]

theorem sampleStep_of_more {s u : State} {b : Byte} {q : SampleProgress} (h : drawAnswer s = (.byte b, u))
    (hq : s.sample.after b = some q) :
    sampleStep s = (.more, { appendTranscript (.readOk (sampleRegister s.sample) b) u with sample := q }) := by
  cases hp : s.sample with
  | status =>
    obtain ⟨hb, rfl⟩ : b.getLsbD 0 = true ∧ .xLow = q := by simpa [hp, SampleProgress.after] using hq
    simp only [sampleStep, hp, memRead_of_draw h, hb, if_true]
    rfl
  | zHigh => rw [hp] at hq; cases hq
  | xLow | xHigh | yLow | yHigh | zLow =>
    rw [hp] at hq
    cases hq
    simp only [sampleStep, hp, readAxisByte, memRead_of_draw h]
    rfl

theorem sampleStep_of_notReady {s u : State} {st : Byte} (hp : s.sample = .status) (h : drawAnswer s = (.byte st, u))
    (hst : st.getLsbD 0 = false) : sampleStep s = (.notReady, appendTranscript (.readOk 0x06 st) u) := by
  simp [sampleStep, hp, memRead_of_draw h, hst, readEntry, -BitVec.getLsbD_eq_getElem]

theorem sampleStep_of_last {s u : State} {xl xh yl yh zl zh : Byte} (hp : s.sample = .zHigh xl xh yl yh zl)
    (h : drawAnswer s = (.byte zh, u)) :
    sampleStep s = (.done (scaleOff (dec16 xl xh) (dec16 yl yh) (dec16 zl zh) s),
      { appendTranscript (.readOk 0x05 zh) u with sample := .status }) := by
  simp only [sampleStep, hp, memRead_of_draw h]
  obtain ⟨ans, ix, rfl⟩ := drawAnswer_spec h
  rfl

/-! ### Engine steps of READ_AXES and of a calibration's attempt (R115, R164) -/

theorem exec_readAxes (s : State) : exec .readAxes s = .next (readAxesStep s) := rfl

theorem exec_calibrate_attempt {s : State} {k r : Nat} (h : s.seq = .cal .attempt k r) :
    exec .calibrate s = attemptStep k r s := by
  simp only [exec, execCalibrate, h]

/-- A read that is not the last of its sample: one entry, and the byte held. -/
theorem exec_of_more {s u : State} {b : Byte} {i : Instr} {q : SampleProgress} (h : drawAnswer s = (.byte b, u))
    (hi : i = .readAxes ∨ (i = .calibrate ∧ ∃ k r, s.seq = .cal .attempt k r)) (hq : s.sample.after b = some q) :
    exec i s = .next { u with transcript := u.transcript ++ [.readOk (sampleRegister s.sample) b], sample := q } := by
  rcases hi with rfl | ⟨rfl, k, r, hs⟩
  · rw [exec_readAxes, readAxesStep, sampleStep_of_more h hq]
    rfl
  · rw [exec_calibrate_attempt hs, attemptStep, sampleStep_of_more h hq]
    rfl

/-- Settles O22: the read ends the sample with `NONE` (R112), which READ_AXES reports. -/
theorem notReadyEndsReadAxes : Obligations.NotReadyEndsReadAxes := by
  intro s u st hp h hst
  rw [exec_readAxes, readAxesStep, sampleStep_of_notReady hp h hst]
  rfl

/-- Settles O23: at each of the six places, the place after it. -/
theorem sampleReadsInOrder : Obligations.SampleReadsInOrder := by
  intro s u b i h hi
  have read {p q : SampleProgress} (hp : s.sample = p) (hq : p.after b = some q) :
      exec i s = .next { u with transcript := u.transcript ++ [.readOk (sampleRegister p) b], sample := q } := by
    subst hp
    exact exec_of_more h hi hq
  exact ⟨fun hp hb => read hp (if_pos hb), fun hp => read hp rfl, fun _ hp => read hp rfl, fun _ _ hp => read hp rfl,
    fun _ _ _ hp => read hp rfl, fun _ _ _ _ hp => read hp rfl⟩

/-- Settles O24: the read ends the sample with its vector (R111), which READ_AXES stores. -/
theorem lastReadWritesTheVector : Obligations.LastReadWritesTheVector := by
  intro s u xl xh yl yh zl zh hp h
  rw [exec_readAxes, readAxesStep, sampleStep_of_last hp h]
  rfl

/-- Settles O26: whichever read fails, the sample ends with its register (R114), which READ_AXES records. -/
theorem readAxesFailureKeepsTheVector : Obligations.ReadAxesFailureKeepsTheVector := by
  intro s u c h
  rw [exec_readAxes, readAxesStep, sampleStep_of_fail h]
  rfl

/-! ### Runs of READ_AXES (R115, R116) -/

theorem drawAnswer_of_answers {s : State} {a : PortAnswer} {rest : List PortAnswer} (h : s.answers = a :: rest) :
    drawAnswer s = (a, { s with answers := rest }) := by
  simp [drawAnswer, h]

/-- READ_AXES runs alone, at place `p` of its sample, with answers `a` to come. -/
structure Reading (p : SampleProgress) (a : List PortAnswer) (s : State) : Prop where
  schedule : s.schedule = []
  seq : s.seq = .run (.legal .readAxes)
  sample : s.sample = p
  answers : s.answers = a

theorem Reading.step_eq {p : SampleProgress} {a : List PortAnswer} {s : State} (h : Reading p a s) :
    step s = exec .readAxes s := by
  rw [step_run h.schedule h.seq]
  exact engineMove_of_legal (by rw [running, h.seq])

/-- The state of READ_AXES after a read that is not the last: byte `b` at place `p`, then place `q`. -/
def afterRead (p q : SampleProgress) (b : Byte) (rest : List PortAnswer) (s : State) : State :=
  { s with answers := rest, transcript := s.transcript ++ [.readOk (sampleRegister p) b], sample := q }

theorem Reading.run_more {p q : SampleProgress} {b : Byte} {rest : List PortAnswer} {s : State}
    (h : Reading p (.byte b :: rest) s) (hq : p.after b = some q) (k : Nat) :
    core.run (k + 1) s = core.run k (afterRead p q b rest s) ∧ Reading q rest (afterRead p q b rest s) := by
  obtain rfl := h.sample
  have hstep : step s = .next (afterRead s.sample q b rest s) :=
    h.step_eq.trans (exec_of_more (drawAnswer_of_answers h.answers) (.inl rfl) hq)
  exact ⟨run_succ hstep, ⟨h.schedule, h.seq, rfl, rfl⟩⟩

/-- Settles O25: six reads that go on (O23), then the last (O24). -/
theorem readAxesOfReadySensorWritesVector : Obligations.ReadAxesOfReadySensorWritesVector := by
  intro s st xl xh yl yh zl zh rest hsch hseq hp hst ha
  have h0 : Reading .status (sampleAnswers st xl xh yl yh zl zh ++ rest) s := ⟨hsch, hseq, hp, ha⟩
  obtain ⟨r1, h1⟩ := h0.run_more (if_pos hst) 6
  obtain ⟨r2, h2⟩ := h1.run_more rfl 5
  obtain ⟨r3, h3⟩ := h2.run_more rfl 4
  obtain ⟨r4, h4⟩ := h3.run_more rfl 3
  obtain ⟨r5, h5⟩ := h4.run_more rfl 2
  obtain ⟨r6, h6⟩ := h5.run_more rfl 1
  rw [r1, r2, r3, r4, r5, r6,
    run_one (h6.step_eq.trans (lastReadWritesTheVector _ _ xl xh yl yh zl zh rfl (drawAnswer_of_answers h6.answers)))]
  simp [afterRead, sampleEntries, sampleRegister]

/-- The vector that READ_AXES last stored. -/
def State.vector (s : State) : Vec := ⟨s.vecX, s.vecY, s.vecZ⟩

/-- How READ_AXES ended, from `s` to `t`: the entries it added, the VALID and ERR it left, and the vector, if it stored one. -/
structure ReadEnds (new : List Transaction) (valid : Bool) (err : ErrCode) (v : Option Vec) (s t : State) : Prop where
  seq : t.seq = .idle
  transcript : t.transcript = s.transcript ++ new
  status : t.status = { s.status with valid := valid, err := err, busy := false, abortReq := false }
  vector : t.vector = v.getD s.vector

/-- R116: how READ_AXES ends is a function of the place, the answers, the scale and the offsets, whatever the state. -/
theorem readEnds_of_inputs (scale xOff yOff : Word) (a : List PortAnswer) (p : SampleProgress) (ha : a.length = p.readsLeft) :
    ∃ k new valid err v, 1 ≤ k ∧ k ≤ a.length ∧ ∀ s rest, Reading p (a ++ rest) s → s.params.scale = scale → s.xOff = xOff →
      s.yOff = yOff → ∃ t, core.run k s = .next t ∧ ReadEnds new valid err v s t := by
  induction a generalizing p with
  | nil => exact absurd ha (Nat.ne_of_lt p.readsLeft_pos)
  | cons x a ih =>
    cases x with
    | fail c =>
      refine ⟨1, [.readFail (sampleRegister p) c], false, .transport, none, Nat.le_refl 1, by simp, ?_⟩
      rintro s rest h - - -
      have he := readAxesFailureKeepsTheVector s _ c (drawAnswer_of_answers h.answers)
      rw [h.sample] at he
      exact ⟨_, run_one (h.step_eq.trans he), ⟨rfl, rfl, rfl, rfl⟩⟩
    | byte b =>
      cases hq : p.after b with
      | some q =>
        obtain ⟨k, new, valid, err, v, hk, hle, hrun⟩ := ih q (by
          have := SampleProgress.readsLeft_after hq
          simp only [List.length_cons] at ha
          omega)
        refine ⟨k + 1, .readOk (sampleRegister p) b :: new, valid, err, v, by omega, by simpa using hle, ?_⟩
        intro s rest h hscale hx hy
        obtain ⟨hs, hr⟩ := h.run_more hq k
        obtain ⟨t, ht, hend⟩ := hrun _ rest hr hscale hx hy
        exact ⟨t, hs.trans ht, ⟨hend.seq, by simp [hend.transcript, afterRead], hend.status, hend.vector⟩⟩
      | none =>
        rcases SampleProgress.after_eq_none hq with ⟨rfl, hb⟩ | ⟨xl, xh, yl, yh, zl, rfl⟩
        · refine ⟨1, [.readOk 0x06 b], false, .notReady, none, Nat.le_refl 1, by simp, ?_⟩
          rintro s rest h - - -
          have he := notReadyEndsReadAxes s _ b h.sample (drawAnswer_of_answers h.answers) hb
          exact ⟨_, run_one (h.step_eq.trans he), ⟨rfl, rfl, rfl, rfl⟩⟩
        · refine ⟨1, [.readOk 0x05 b], true, .ok,
            some ⟨scaledOffset scale xOff (dec16 xl xh), scaledOffset scale yOff (dec16 yl yh), scaledOnly scale (dec16 zl b)⟩,
            Nat.le_refl 1, by simp, ?_⟩
          rintro s rest h rfl rfl rfl
          have he := lastReadWritesTheVector s _ xl xh yl yh zl b h.sample (drawAnswer_of_answers h.answers)
          exact ⟨_, run_one (h.step_eq.trans he), ⟨rfl, rfl, rfl, rfl⟩⟩

/-- Settles O27: both runs end as their common inputs say. -/
theorem readAxesDependsOnItsInputsOnly : Obligations.ReadAxesDependsOnItsInputsOnly := by
  intro s t a rs rt hlen hschs hscht hseqs hseqt hps hpt has hat hscale hx hy
  obtain ⟨k, new, valid, err, v, hk, hle, hrun⟩ := readEnds_of_inputs t.params.scale t.xOff t.yOff a .status hlen
  obtain ⟨s', hs', hends⟩ := hrun s rs ⟨hschs, hseqs, hps, has⟩ hscale hx hy
  obtain ⟨t', ht', hendt⟩ := hrun t rt ⟨hscht, hseqt, hpt, hat⟩ rfl rfl rfl
  refine ⟨k, s', t', new, hk, hlen ▸ hle, hs', ht', hends.seq, hendt.seq, ?_, ?_, hends.transcript, hendt.transcript, ?_⟩
  · rw [hends.status]
  · rw [hends.status, hendt.status]
  · have hvs := hends.vector
    have hvt := hendt.vector
    cases v with
    | none => exact .inr (by simpa [State.vector, and_assoc] using And.intro hvs hvt)
    | some w => exact .inl (by simpa [State.vector] using hvs.trans hvt.symm)

/-! ### Values that are neither a NaN nor −0 (R117) -/

/-- A value whose pattern is neither a NaN's nor −0's. -/
inductive F64.Clean : F64 → Prop where
  | inf (neg : Bool) : Clean (.inf neg)
  | fin {neg : Bool} {u : Nat} (h : neg = true → 0 < u) : Clean (.fin neg u)

theorem cleanPattern_toBits {v : F64} (hv : v.Valid) (hc : v.Clean) : cleanPattern v.toBits = true := by
  cases hc with
  | inf neg => cases neg <;> decide
  | @fin neg u hu =>
    cases hv with
    | fin _ hr =>
      have hne : (F64.fin neg u).toBits ≠ 0x8000000000000000#64 := by
        intro h
        have hval : F64.fin neg u = .fin true 0 := by
          rw [← F64.ofBits_toBits_fin neg hr, h]
          decide
        cases hval
        exact absurd (hu rfl) (Nat.lt_irrefl 0)
      simp [cleanPattern, F64.isNanPattern_toBits_fin neg hr, hne]

/-- A rounding is −0 only where its exact value is negative and below a unit. -/
theorem F64.round_clean {neg : Bool} {n d : Nat} (hd : 0 < d) (h : neg = true → d ≤ n) : (round neg n d).Clean := by
  rcases round_cases neg (n := n) hd with ⟨hr, -⟩ | ⟨hr, -⟩ <;> rw [hr]
  · exact .inf neg
  · exact .fin fun hneg => roundedUnits_pos hd (h hneg)

theorem F64.addFinite_clean {na : Bool} {ua : Nat} (ha : na = true → 0 < ua) (nb : Bool) (ub : Nat) :
    (addFinite na ua nb ub).Clean := by
  unfold addFinite
  split_ifs with hsign hlt hgt
  · exact round_clean Nat.one_pos fun hn => Nat.le_add_right_of_le (ha hn)
  · exact round_clean Nat.one_pos fun _ => Nat.sub_pos_of_lt hlt
  · exact round_clean Nat.one_pos fun _ => Nat.sub_pos_of_lt hgt
  · exact .fin nofun

/-- An infinity less a finite value is the infinity; a difference of finite values is −0 only for −0 less +0. -/
theorem F64.fsub_clean {a b : F64} (ha : a.Clean) (hb : b.finite = true) : (fsub a b).Clean := by
  obtain ⟨nb, ub, rfl⟩ := finite_cases hb
  cases ha with
  | inf na => exact .inf na
  | fin h => exact addFinite_clean h _ _

theorem ofBits_scale_of_legal {p : Params} (h : p.legal = true) : ∃ u, 0 < u ∧ F64.ofBits p.scale = .fin false u := by
  obtain ⟨⟨hfin, hsign, hzero⟩, -⟩ :
      (p.scale.extractLsb' 52 11 ≠ 0x7FF#11 ∧ p.scale.msb = false ∧ p.scale ≠ 0) ∧ p.calMax ≠ 0 := by
    simpa [Params.legal, Params.scaleFinite, Params.scalePositive, Params.windowNonempty] using h
  rcases F64.ofBits_cases p.scale with ⟨hn, -⟩ | ⟨-, hw, -⟩ | ⟨-, -, u, hu, -, -⟩
  · simp only [F64.isNanPattern, Bool.and_eq_true, beq_iff_eq] at hn
    exact absurd hn.1 hfin
  · rw [hsign] at hw
    exact absurd (by rw [hw]; decide) hfin
  · rw [hsign] at hu
    refine ⟨u, Nat.pos_of_ne_zero ?_, hu⟩
    rintro rfl
    exact hzero (by rw [← F64.toBits_ofBits p.scale, hu]; decide)

/-- A product by a positive scale is a zero only for the integer 0, whose sign is clear. -/
theorem fmul_scale_clean {p : Params} (h : p.legal = true) (d : Int) :
    (F64.fmul (F64.ofInt d) (F64.ofBits p.scale)).Clean := by
  obtain ⟨u, hu, hscale⟩ := ofBits_scale_of_legal h
  rw [hscale, F64.ofInt, fmul_fin']
  refine F64.round_clean F64.units_pos fun hneg => ?_
  have hd : 0 < d.natAbs := by
    have : d < 0 := by simpa using hneg
    omega
  exact Nat.le_trans (Nat.le_mul_of_pos_left F64.one hd) (Nat.le_mul_of_pos_right _ hu)

theorem scaledOnly_clean {p : Params} (h : p.legal = true) (d : Int) : cleanPattern (scaledOnly p.scale d) = true :=
  cleanPattern_toBits (F64.fmul_valid _ _) (fmul_scale_clean h d)

theorem scaledOffset_clean {p : Params} {off : Word} (h : p.legal = true) (hoff : (F64.ofBits off).finite = true) (d : Int) :
    cleanPattern (scaledOffset p.scale off d) = true :=
  cleanPattern_toBits (F64.fsub_valid _ _) (F64.fsub_clean (fmul_scale_clean h d) hoff)

/-- Settles O28, for any integer in the place of the decoded pair. -/
theorem scaledSamplesAreNeverNanOrMinusZero : Obligations.ScaledSamplesAreNeverNanOrMinusZero := fun _ _ _ _ h hoff =>
  ⟨scaledOffset_clean h hoff _, scaledOnly_clean h _⟩

/-! ### What a step does to the samples of a calibration (R165, R166) -/

/-- The samples that the running calibration has stored; 0 when none runs. -/
def State.samplesStored (s : State) : Nat :=
  match s.seq with
  | .cal _ i _ => i
  | .idle => 0
  | .run _ => 0

/-- From `s` to `t` the samples stay, and so does their number while the calibration runs on. -/
def KeepsSamples (s t : State) : Prop :=
  t.wx = s.wx ∧ t.wy = s.wy ∧ t.extrema = s.extrema ∧ (t.samplesStored = 0 ∨ t.samplesStored = s.samplesStored)

/-- From `s` to `t` one more sample is stored: decoded integers scaled and offset (R111, R165, R166). -/
def StoresSample (s t : State) : Prop :=
  ∃ dx dy dz, let v := scaleOff dx dy dz s
    t.wx = s.wx.write s.samplesStored v.x ∧ t.wy = s.wy.write s.samplesStored v.y ∧
      t.extrema = s.extrema.update s.samplesStored v ∧ t.samplesStored = s.samplesStored + 1

theorem attempt_samples {s t : State} {i r : Nat} (hq : s.seq = .cal .attempt i r) (h : AttemptResult s t i r) :
    KeepsSamples s t ∨ StoresSample s t := by
  have hi : s.samplesStored = i := by rw [State.samplesStored, hq]
  obtain ⟨ans, ix, e, p, -, rfl | ⟨-, rfl⟩ | ⟨c, reg, rfl⟩ | ⟨-, -, dx, dy, dz, v, rfl, -, -, -, rfl⟩⟩ := h
  · exact .inl ⟨rfl, rfl, rfl, .inr rfl⟩
  · rcases afterNotReady_spec i r { s with answers := ans, drawIx := ix, transcript := s.transcript ++ [e], sample := p } with
      ⟨-, -, h⟩ | ⟨-, h⟩ <;> rw [h]
    · exact .inl ⟨rfl, rfl, rfl, .inl rfl⟩
    · exact .inl ⟨rfl, rfl, rfl, .inr hi.symm⟩
  · exact .inl ⟨rfl, rfl, rfl, .inl rfl⟩
  · refine .inr ⟨dx, dy, dz, ?_⟩
    rw [hi]
    unfold afterSample
    split <;> exact ⟨rfl, rfl, rfl, rfl⟩

theorem execCalibrate_samples {s t : State} (h : exec .calibrate s = .next t) : KeepsSamples s t ∨ StoresSample s t := by
  rcases execCalibrate_spec h with ⟨i, r, hq, ha⟩ | ⟨i, r, r', hq, rfl | ⟨-, rfl⟩ | ⟨-, -, rfl⟩⟩ | ⟨i, r, -, rfl⟩ |
    ⟨-, rfl | ⟨-, rfl⟩⟩
  · exact attempt_samples hq ha
  · exact .inl ⟨rfl, rfl, rfl, .inr rfl⟩
  · exact .inl ⟨rfl, rfl, rfl, .inl rfl⟩
  · have hi : s.samplesStored = i := by
      rcases hq with ⟨hq, -⟩ | ⟨hq, -⟩ <;> rw [State.samplesStored, hq]
    exact .inl ⟨rfl, rfl, rfl, .inr hi.symm⟩
  · rcases finishStep_spec s with h | ⟨-, -, -, h⟩ <;> rw [h] <;> exact .inl ⟨rfl, rfl, rfl, .inl rfl⟩
  · exact .inl ⟨rfl, rfl, rfl, .inl rfl⟩
  · exact .inl ⟨rfl, rfl, rfl, .inl rfl⟩

theorem exec_samples {i : Instr} {s t : State} (h : exec i s = .next t) : KeepsSamples s t ∨ StoresSample s t := by
  cases i with
  | calibrate => exact execCalibrate_samples h
  | readAxes =>
    obtain ⟨ans, ix, e, p, -, rfl | rfl | ⟨c, r, rfl⟩ | ⟨v, rfl⟩⟩ := execReadAxes_spec h
    · exact .inl ⟨rfl, rfl, rfl, .inr rfl⟩
    all_goals exact .inl ⟨rfl, rfl, rfl, .inl rfl⟩
  | setup =>
    obtain ⟨ans, ix, e, -, ⟨c, r, rfl⟩ | ⟨q, -, rfl⟩ | ⟨-, rfl⟩⟩ := execSetup_spec h
    · exact .inl ⟨rfl, rfl, rfl, .inl rfl⟩
    · exact .inl ⟨rfl, rfl, rfl, .inr rfl⟩
    · exact .inl ⟨rfl, rfl, rfl, .inl rfl⟩
  | setDecl => rcases execSetDecl_spec h with rfl | ⟨-, rfl⟩ <;> exact .inl ⟨rfl, rfl, rfl, .inl rfl⟩
  | heading => rcases execHeading_spec h with ⟨e, rfl⟩ | ⟨a, -, -, rfl⟩ <;> exact .inl ⟨rfl, rfl, rfl, .inl rfl⟩
  | nop | decode lo hi | abort | clrErr => cases h; exact .inl ⟨rfl, rfl, rfl, .inl rfl⟩

theorem hostMove_keepsSamples (s : State) : KeepsSamples s (hostMove s) := by
  rcases hostMove_spec s with ⟨addr, v, rest, h⟩ | ⟨lines, d, h⟩ <;> rw [h]
  · rcases hostWrite_spec addr v { s with host := rest } with ⟨-, h⟩ | ⟨-, a, x, y, z, w, h⟩ | ⟨-, h⟩ | ⟨-, h⟩ <;> rw [h]
    · obtain ⟨q, d, n, t, c, hacc, hq⟩ := accept_spec v { s with host := rest }
      rw [hacc]
      rcases hq with ⟨k, rfl, -⟩ | ⟨rfl, -⟩ <;> exact ⟨rfl, rfl, rfl, .inl rfl⟩
    all_goals exact ⟨rfl, rfl, rfl, .inr rfl⟩
  · exact ⟨rfl, rfl, rfl, .inr rfl⟩

theorem tickMove_keepsSamples (s : State) : KeepsSamples s (tickMove s) := by
  unfold tickMove
  split <;> exact ⟨rfl, rfl, rfl, .inr rfl⟩

/-- Only reset clears the samples, and only an attempt's last read adds one. -/
theorem step_samples {s t : State} (h : step s = .next t) :
    (t.wx = [] ∧ t.wy = [] ∧ t.samplesStored = 0) ∨ KeepsSamples s t ∨ StoresSample s t := by
  obtain ⟨sch, ⟨-, h⟩ | ⟨-, rfl⟩ | ⟨-, rfl⟩ | ⟨-, rfl⟩⟩ := step_spec h
  · refine .inr ?_
    rcases engineMove_spec h with ⟨-, rfl⟩ | ⟨-, rfl⟩ | ⟨i, -, he⟩
    · exact .inl ⟨rfl, rfl, rfl, .inr rfl⟩
    · exact .inl ⟨rfl, rfl, rfl, .inl rfl⟩
    · exact exec_samples (s := { s with schedule := sch }) he
  · exact .inr (.inl (hostMove_keepsSamples { s with schedule := sch }))
  · exact .inr (.inl (tickMove_keepsSamples { s with schedule := sch }))
  · exact .inl ⟨rfl, rfl, rfl⟩

/-! ### Clean samples (R117, R166) -/

theorem F64.lt_irrefl (v : F64) : lt v v = false := by
  cases v with
  | nan w => rfl
  | inf neg => exact Bool.and_not_self neg
  | fin neg u => simp [lt]

/-- The accumulators of one axis: two clean patterns, the minimum at most the maximum. -/
def RangeClean (low high : Word) : Prop :=
  cleanPattern low = true ∧ cleanPattern high = true ∧ F64.lt (F64.ofBits high) (F64.ofBits low) = false

theorem rangeClean_self {v : Word} (h : cleanPattern v = true) : RangeClean v v := ⟨h, h, F64.lt_irrefl _⟩

/-- R166 keeps the order: a value replaces only what it is beyond. -/
theorem RangeClean.update {low high v : Word} (h : RangeClean low high) (hv : cleanPattern v = true) :
    RangeClean (lesser v low) (greater v high) := by
  obtain ⟨hlow, hhigh, hle⟩ := h
  unfold lesser greater
  by_cases hl : F64.lt (F64.ofBits v) (F64.ofBits low) = true <;>
    by_cases hh : F64.lt (F64.ofBits high) (F64.ofBits v) = true
  · rw [if_pos hl, if_pos hh]; exact rangeClean_self hv
  · rw [if_pos hl, if_neg hh]; exact ⟨hv, hhigh, Bool.eq_false_iff.2 hh⟩
  · rw [if_neg hl, if_pos hh]; exact ⟨hlow, hv, Bool.eq_false_iff.2 hl⟩
  · rw [if_neg hl, if_neg hh]; exact ⟨hlow, hhigh, hle⟩

/-- The accumulators of all three axes. -/
def Extrema.Clean (e : Extrema) : Prop :=
  RangeClean e.xmin e.xmax ∧ RangeClean e.ymin e.ymax ∧ RangeClean e.zmin e.zmax

theorem Extrema.update_clean {e : Extrema} {i : Nat} {v : Vec} (he : i ≠ 0 → e.Clean) (hx : cleanPattern v.x = true)
    (hy : cleanPattern v.y = true) (hz : cleanPattern v.z = true) : (e.update i v).Clean := by
  unfold Extrema.update
  split_ifs with hi
  · exact ⟨rangeClean_self hx, rangeClean_self hy, rangeClean_self hz⟩
  · obtain ⟨hex, hey, hez⟩ := he hi
    exact ⟨hex.update hx, hey.update hy, hez.update hz⟩

/-- The invariant, with the accumulators as the number of stored samples asks. -/
theorem samplesClean_iff (s : State) :
    s.SamplesClean ↔ s.wx.all (fun e => cleanPattern e.2) = true ∧ s.wy.all (fun e => cleanPattern e.2) = true ∧
      (s.samplesStored ≠ 0 → s.extrema.Clean) := by
  unfold State.SamplesClean State.samplesStored
  cases s.seq with
  | idle => simp
  | run c => simp
  | cal phase i r =>
    cases i with
    | zero => simp
    | succ i => simp [Extrema.Clean, RangeClean]; tauto

theorem write_clean {m : Memory} {v : Word} (hm : m.all (fun e => cleanPattern e.2) = true) (hv : cleanPattern v = true)
    (ix : Nat) : (m.write ix v).all (fun e => cleanPattern e.2) = true := by
  rw [List.all_eq_true] at hm ⊢
  intro e he
  rcases Memory.mem_write he with h | rfl
  · exact hm e h
  · exact hv

/-- Settles O56: what a step stores is a scaled sample, clean by O28, and R166 keeps the accumulators clean and in order. -/
theorem stepKeepsSamplesClean : Obligations.StepKeepsSamplesClean := by
  intro s t hp hfin hs h
  obtain ⟨-, hxOff, hyOff, -⟩ := hfin
  rw [samplesClean_iff] at hs ⊢
  obtain ⟨hx, hy, he⟩ := hs
  rcases step_samples h with ⟨hwx, hwy, hn⟩ | ⟨hwx, hwy, hext, hn⟩ | ⟨dx, dy, dz, hwx, hwy, hext, -⟩ <;> rw [hwx, hwy]
  · exact ⟨rfl, rfl, fun h => absurd hn h⟩
  · refine ⟨hx, hy, fun hne => ?_⟩
    rw [hext]
    exact he (hn.resolve_left hne ▸ hne)
  · have hvx := scaledOffset_clean hp hxOff dx
    have hvy := scaledOffset_clean hp hyOff dy
    have hvz := scaledOnly_clean hp dz
    refine ⟨write_clean hx hvx _, write_clean hy hvy _, fun _ => ?_⟩
    rw [hext]
    exact Extrema.update_clean he hvx hvy hvz

end Sys2Proof.Machine
end

section
/-! PROOFS. The statements about SET_DECL and HEADING (42_heading.md): what the two commands do, the arctangent beside the real
angle, and the primitives beside the real operations they round (00_scope.md R12). -/

namespace Sys2Proof.Machine

/-! ### SET_DECL (R130 to R132) -/

theorem exec_setDecl (s : State) : exec .setDecl s = .next (setDeclStep s) := rfl

/-- Settles O29: the step tests both the input and the result. -/
theorem setDeclStoresRadiansOrRejects : Obligations.SetDeclStoresRadiansOrRejects := by
  intro s
  rw [exec_setDecl, setDeclStep]
  constructor
  · intro hd hr
    have hboth : ((F64.ofBits s.degrees).finite && (deg2rad (F64.ofBits s.degrees)).finite) = true :=
      Bool.and_eq_true_iff.2 ⟨hd, hr⟩
    rw [if_pos hboth]
    rfl
  · intro h
    have hnot : ((F64.ofBits s.degrees).finite && (deg2rad (F64.ofBits s.degrees)).finite) = false :=
      Bool.and_eq_false_iff.2 h
    rw [if_neg (Bool.eq_false_iff.1 hnot)]
    rfl

/-! ### HEADING, by what its vector and angle are (R135, R136) -/

theorem exec_heading (s : State) : exec .heading s = .next (headingStep s) := rfl

theorem ofBits_zero : F64.ofBits 0 = .fin false 0 := by decide

/-- The angle of HEADING after the wraps: steps 1 to 4 (R138, R141). -/
def State.headingAngle (s : State) : F64 :=
  wrapAngle (F64.fadd (atan2 s.params.atan2 (canonicalZero (F64.ofBits s.vecY)) (canonicalZero (F64.ofBits s.vecX)))
    (F64.ofBits s.decl))

/-- Both components of the vector are finite (R140). -/
def State.VectorFinite (s : State) : Prop := (F64.ofBits s.vecX).finite = true ∧ (F64.ofBits s.vecY).finite = true

/-- Both components of the vector are zeros, of either sign (R139). -/
def State.VectorZero (s : State) : Prop :=
  F64.eq (F64.ofBits s.vecX) (.fin false 0) = true ∧ F64.eq (F64.ofBits s.vecY) (.fin false 0) = true

theorem headingStep_of_not_finite {s : State} (h : ¬ s.VectorFinite) : headingStep s = complete .nonfinite s := by
  have hcond : (!((F64.ofBits s.vecX).finite && (F64.ofBits s.vecY).finite)) = true := by
    rw [Bool.not_eq_true', Bool.eq_false_iff]
    exact fun hand => h (Bool.and_eq_true_iff.1 hand)
  rw [headingStep, headingOf, if_pos hcond]

theorem headingStep_of_zero {s : State} (hfin : s.VectorFinite) (h : s.VectorZero) : headingStep s = complete .degenerate s := by
  obtain ⟨hx, hy⟩ := hfin
  rw [headingStep, headingOf, if_neg (by simp [hx, hy]), if_pos (Bool.and_eq_true_iff.2 h)]

/-- The heading of a vector that has one, by R142's test. -/
theorem headingStep_of_vector {s : State} (hfin : s.VectorFinite) (hne : ¬ s.VectorZero) :
    headingStep s =
      if angleInRange s.headingAngle = true then
        complete .ok { s with hdg := headingWord (degreesMinutes s.params.minuteCarry s.headingAngle).1
                                (degreesMinutes s.params.minuteCarry s.headingAngle).2 }
      else complete .hdgRange s := by
  obtain ⟨hx, hy⟩ := hfin
  have hnz : ¬ (F64.eq (F64.ofBits s.vecX) (.fin false 0) && F64.eq (F64.ofBits s.vecY) (.fin false 0)) = true :=
    fun h => hne (Bool.and_eq_true_iff.1 h)
  have hof : headingOf s.params (F64.ofBits s.vecX) (F64.ofBits s.vecY) (F64.ofBits s.decl) =
      if angleInRange s.headingAngle = true then .ok (degreesMinutes s.params.minuteCarry s.headingAngle)
      else .error .hdgRange := by
    rw [headingOf, if_neg (by simp [hx, hy]), if_neg hnz]
    rfl
  rw [headingStep, hof]
  split_ifs <;> rfl

theorem headingStep_of_inRange {s : State} (hfin : s.VectorFinite) (hne : ¬ s.VectorZero)
    (hrange : angleInRange s.headingAngle = true) {d m : Int} (hdm : degreesMinutes s.params.minuteCarry s.headingAngle = (d, m)) :
    headingStep s = complete .ok { s with hdg := headingWord d m } := by
  rw [headingStep_of_vector hfin hne, if_pos hrange, hdm]

theorem vectorZero_iff (s : State) :
    s.VectorZero ↔ (s.vecX = 0 ∨ s.vecX = 0x8000000000000000) ∧ (s.vecY = 0 ∨ s.vecY = 0x8000000000000000) :=
  and_congr (eq_zero_iff _) (eq_zero_iff _)

theorem finite_of_eq_zero {v : F64} (h : F64.eq v (.fin false 0) = true) : v.finite = true := by
  cases v with
  | nan w => cases h
  | inf neg => cases h
  | fin neg u => rfl

theorem State.VectorZero.finite {s : State} (h : s.VectorZero) : s.VectorFinite :=
  ⟨finite_of_eq_zero h.1, finite_of_eq_zero h.2⟩

/-- Settles O30: the two tests come first, in that order (R209). -/
theorem headingRejectsBadVectors : Obligations.HeadingRejectsBadVectors := by
  intro s
  rw [exec_heading]
  constructor
  · intro h
    have hbad : ¬ s.VectorFinite := by
      rintro ⟨hx, hy⟩
      rcases h with h | h
      · exact absurd hx (Bool.eq_false_iff.1 h)
      · exact absurd hy (Bool.eq_false_iff.1 h)
    rw [headingStep_of_not_finite hbad, complete]
  · intro hx hy
    have hzero := (vectorZero_iff s).2 ⟨hx, hy⟩
    rw [headingStep_of_zero hzero.finite hzero, complete]

/-! ### The arctangent on the axes (R137, P2 and P3) -/

theorem lt_zero_fin (neg : Bool) (u : Nat) : F64.lt (.fin neg u) (.fin false 0) = true ↔ neg = true ∧ u ≠ 0 := by
  rw [lt_fin, signedUnits_false]
  cases neg with
  | false => simp [signedUnits_false]
  | true => simp [signedUnits_true, Nat.pos_iff_ne_zero]

theorem zero_lt_fin (neg : Bool) (u : Nat) : F64.lt (.fin false 0) (.fin neg u) = true ↔ neg = false ∧ u ≠ 0 := by
  rw [lt_fin, signedUnits_false]
  cases neg with
  | false => simp [signedUnits_false, Nat.pos_iff_ne_zero]
  | true => simp [signedUnits_true]

theorem fin_of_pos {v : F64} (hfin : v.finite = true) (h : F64.lt (.fin false 0) v = true) : ∃ u, u ≠ 0 ∧ v = .fin false u := by
  obtain ⟨neg, u, rfl⟩ := finite_cases hfin
  obtain ⟨rfl, hu⟩ := (zero_lt_fin neg u).1 h
  exact ⟨u, hu, rfl⟩

theorem fin_of_neg {v : F64} (hfin : v.finite = true) (h : F64.lt v (.fin false 0) = true) : ∃ u, u ≠ 0 ∧ v = .fin true u := by
  obtain ⟨neg, u, rfl⟩ := finite_cases hfin
  obtain ⟨rfl, hu⟩ := (lt_zero_fin neg u).1 h
  exact ⟨u, hu, rfl⟩

theorem atan2_right (unit : Atan2Unit) {u : Nat} (hu : u ≠ 0) : atan2 unit (.fin false 0) (.fin false u) = .fin false 0 := by
  rw [atan2_cases, if_pos rfl, if_neg hu, if_neg Bool.false_ne_true]

theorem atan2_left (unit : Atan2Unit) {u : Nat} (hu : u ≠ 0) :
    atan2 unit (.fin false 0) (.fin true u) = F64.ofBits Config.pi64 := by
  rw [atan2_cases, if_pos rfl, if_neg hu, if_pos rfl]

theorem atan2_up (unit : Atan2Unit) {u : Nat} (hu : u ≠ 0) :
    atan2 unit (.fin false u) (.fin false 0) = F64.ofBits Config.halfPi64 := by
  rw [atan2_cases, if_neg hu, if_pos rfl, if_neg Bool.false_ne_true]

theorem atan2_down (unit : Atan2Unit) {u : Nat} (hu : u ≠ 0) :
    atan2 unit (.fin true u) (.fin false 0) = (F64.ofBits Config.halfPi64).negate := by
  rw [atan2_cases, if_neg hu, if_pos rfl, if_pos rfl]

/-! ### Headings on the axes (R138, R141, R143, R144) -/

theorem canonicalZero_of_eq_zero {v : F64} (h : F64.eq v (.fin false 0) = true) : canonicalZero v = .fin false 0 := if_pos h

theorem eq_zero_fin (neg : Bool) (u : Nat) : F64.eq (.fin neg u) (.fin false 0) = true ↔ u = 0 := by
  rw [eq_fin, signedUnits_false]
  cases neg with
  | false => rw [signedUnits_false]; omega
  | true => rw [signedUnits_true]; omega

theorem canonicalZero_fin (neg : Bool) {u : Nat} (hu : u ≠ 0) : canonicalZero (.fin neg u) = .fin neg u :=
  if_neg fun h => hu ((eq_zero_fin neg u).1 h)

/-- The angle `a`, with declination +0 added, makes `d` degrees and no minutes, with and without the carry. -/
def HeadsAt (a : F64) (d : Int) : Prop :=
  angleInRange (wrapAngle (F64.fadd a (F64.ofBits 0))) = true ∧
    ∀ carry, degreesMinutes carry (wrapAngle (F64.fadd a (F64.ofBits 0))) = (d, 0)

theorem headsAt_right : HeadsAt (.fin false 0) 0 := by unfold HeadsAt; decide +kernel
theorem headsAt_up : HeadsAt (F64.ofBits Config.halfPi64) 90 := by unfold HeadsAt; decide +kernel
theorem headsAt_left : HeadsAt (F64.ofBits Config.pi64) 180 := by unfold HeadsAt; decide +kernel
theorem headsAt_down : HeadsAt (F64.ofBits Config.halfPi64).negate 270 := by unfold HeadsAt; decide +kernel

/-- A vector with declination +0 heads where its arctangent does. -/
theorem headingStep_of_headsAt {s : State} {a : F64} {d : Int} (hfin : s.VectorFinite) (hne : ¬ s.VectorZero) (hdecl : s.decl = 0)
    (hatan : atan2 s.params.atan2 (canonicalZero (F64.ofBits s.vecY)) (canonicalZero (F64.ofBits s.vecX)) = a)
    (ha : HeadsAt a d) : headingStep s = complete .ok { s with hdg := headingWord d 0 } := by
  have hangle : s.headingAngle = wrapAngle (F64.fadd a (F64.ofBits 0)) := by rw [State.headingAngle, hatan, hdecl]
  obtain ⟨hrange, hdm⟩ := ha
  rw [← hangle] at hrange hdm
  exact headingStep_of_inRange hfin hne hrange (hdm _)

theorem headingStep_of_xAxis {s : State} {neg : Bool} {u : Nat} {a : F64} {d : Int}
    (hy : F64.eq (F64.ofBits s.vecY) (.fin false 0) = true) (hx : F64.ofBits s.vecX = .fin neg u) (hu : u ≠ 0)
    (hdecl : s.decl = 0) (hatan : atan2 s.params.atan2 (.fin false 0) (.fin neg u) = a) (ha : HeadsAt a d) :
    headingStep s = complete .ok { s with hdg := headingWord d 0 } :=
  headingStep_of_headsAt ⟨by rw [hx]; rfl, finite_of_eq_zero hy⟩ (fun h => hu ((eq_zero_fin neg u).1 (hx ▸ h.1))) hdecl
    (by rw [canonicalZero_of_eq_zero hy, hx, canonicalZero_fin neg hu, hatan]) ha

theorem headingStep_of_yAxis {s : State} {neg : Bool} {u : Nat} {a : F64} {d : Int}
    (hx : F64.eq (F64.ofBits s.vecX) (.fin false 0) = true) (hy : F64.ofBits s.vecY = .fin neg u) (hu : u ≠ 0)
    (hdecl : s.decl = 0) (hatan : atan2 s.params.atan2 (.fin neg u) (.fin false 0) = a) (ha : HeadsAt a d) :
    headingStep s = complete .ok { s with hdg := headingWord d 0 } :=
  headingStep_of_headsAt ⟨finite_of_eq_zero hx, by rw [hy]; rfl⟩ (fun h => hu ((eq_zero_fin neg u).1 (hy ▸ h.2))) hdecl
    (by rw [canonicalZero_of_eq_zero hx, hy, canonicalZero_fin neg hu, hatan]) ha

/-- Settles O33: P2 and P3 give each axis its constant, whose heading is computed. -/
theorem axisHeadingsAreRightAngles : Obligations.AxisHeadingsAreRightAngles := by
  intro s zero hzero hdecl
  have heq : F64.eq (F64.ofBits zero) (.fin false 0) = true := (eq_zero_iff zero).2 hzero
  rw [exec_heading, ofBits_zero]
  refine ⟨?_, ?_, ?_, ?_⟩ <;> rintro rfl hfin hsign
  · obtain ⟨u, hu, hx⟩ := fin_of_pos hfin hsign
    rw [headingStep_of_xAxis heq hx hu hdecl (atan2_right _ hu) headsAt_right]
    rfl
  · obtain ⟨u, hu, hy⟩ := fin_of_pos hfin hsign
    rw [headingStep_of_yAxis heq hy hu hdecl (atan2_up _ hu) headsAt_up]
    rfl
  · obtain ⟨u, hu, hx⟩ := fin_of_neg hfin hsign
    rw [headingStep_of_xAxis heq hx hu hdecl (atan2_left _ hu) headsAt_left]
    rfl
  · obtain ⟨u, hu, hy⟩ := fin_of_neg hfin hsign
    rw [headingStep_of_yAxis heq hy hu hdecl (atan2_down _ hu) headsAt_down]
    rfl

/-! ### Headings while the declination is small (R146) -/

/-- The angle is a value that an operation made. -/
theorem State.headingAngle_valid (s : State) : s.headingAngle.Valid := wrap_valid (F64.fadd_valid _ _)

theorem ofBits_pi64 : F64.ofBits Config.pi64 = .fin false P0 := pi_eq

/-- A value that two finite ones enclose is finite, and so is its magnitude. -/
theorem fin_of_within {v : F64} {B : Nat} (hle : F64.ge (.fin false B) v = true) (hge : F64.ge v (.fin true B) = true) :
    ∃ neg u, v = .fin neg u ∧ u ≤ B := by
  cases v with
  | nan w => cases hle
  | inf neg => cases neg with
    | false => cases hle
    | true => cases hge
  | fin neg u =>
    rw [ge_fin, signedUnits_false] at hle
    rw [ge_fin, signedUnits_true] at hge
    refine ⟨neg, u, rfl, ?_⟩
    cases neg with
    | false => rw [signedUnits_false] at hle; omega
    | true => rw [signedUnits_true] at hge; omega

/-- R146: P1 and a declination within PI64 bring the angle into range. -/
theorem headingAngle_inRange {s : State} (hfin : s.VectorFinite) (hne : ¬ s.VectorZero)
    (hle : F64.ge (.fin false P0) (F64.ofBits s.decl) = true) (hge : F64.ge (F64.ofBits s.decl) (.fin true P0) = true) :
    angleInRange s.headingAngle = true := by
  obtain ⟨hx, hy⟩ := hfin
  obtain ⟨x, hx', hxfin, hxz⟩ := canonicalZero_bits s.vecX
  obtain ⟨y, hy', hyfin, hyz⟩ := canonicalZero_bits s.vecY
  obtain ⟨na, ua, hatan, hua, -, -⟩ := atan2_spec s.params.atan2 y x (hyfin.trans hy) (hxfin.trans hx) (by
    rw [hxz, hyz]
    exact fun h => hne h.symm)
  obtain ⟨nd, ud, hdecl, hud⟩ := fin_of_within hle hge
  obtain ⟨n, u, hsum, hu⟩ := fadd_within (na := na) (nb := nd) hua hud
  rw [State.headingAngle, hy', hx', hatan, hdecl, hsum]
  exact wrap_inRange hu

/-- R146's example: after the wraps the angle is still negative. -/
theorem wrap_example_out_of_range :
    angleInRange (wrapAngle (F64.fadd (F64.ofBits 0xC0091FEF0A9542EB) (F64.ofBits 0xC014F1A6C638D03F))) = false := by
  decide +kernel

/-- Settles O34: the angle is in range, whose degrees and minutes R143 and R144 bound; the example is computed. -/
theorem headingSucceedsForSmallDeclination : Obligations.HeadingSucceedsForSmallDeclination := by
  constructor
  · intro s hx hy hne hle hge
    rw [← vectorZero_iff] at hne
    rw [pi_eq] at hle
    rw [npi_eq] at hge
    have hrange := headingAngle_inRange ⟨hx, hy⟩ hne hle hge
    obtain ⟨d, m, hdm, hd0, hd, hm0, hm, hcarry⟩ := dm_ok (carry := s.params.minuteCarry) s.headingAngle_valid hrange
    refine ⟨d, m, hdm, hd0, hd, hm0, hm, hcarry, ?_⟩
    rw [exec_heading, headingStep_of_inRange ⟨hx, hy⟩ hne hrange hdm, complete]
  · refine ⟨by decide +kernel, by decide +kernel, by decide +kernel, fun s hx hy hne hatan hdecl => ?_⟩
    rw [← vectorZero_iff] at hne
    have hrange : angleInRange s.headingAngle = false := by
      rw [State.headingAngle, hatan, hdecl]
      exact wrap_example_out_of_range
    rw [exec_heading, headingStep_of_vector ⟨hx, hy⟩ hne, if_neg (Bool.eq_false_iff.1 hrange), complete]

/-! ### The properties of every arctangent unit (R137, P1 and P4) -/

theorem ofBits_eq_zero_iff {w : Word} (h : w ≠ 0x8000000000000000) : F64.eq (F64.ofBits w) (.fin false 0) = true ↔ w = 0 :=
  (eq_zero_iff w).trans (or_iff_left h)

theorem negate_halfPi64 : (F64.ofBits Config.halfPi64).negate = F64.ofBits 0xBFF921FB54442D18 := by decide +kernel

theorem signedUnits_within (neg : Bool) (u : Nat) : -(u : Int) ≤ F64.signedUnits neg u ∧ F64.signedUnits neg u ≤ u := by
  cases neg with
  | false => rw [signedUnits_false]; omega
  | true => rw [signedUnits_true]; omega

/-- P4 for every unit: off the x axis the angle has the sign of y. -/
theorem atan2_sign (unit : Atan2Unit) (ny : Bool) {uy : Nat} (hy : uy ≠ 0) (nx : Bool) (ux : Nat) :
    ∃ u, u ≠ 0 ∧ atan2 unit (.fin ny uy) (.fin nx ux) = .fin ny u := by
  rw [atan2_cases, if_neg hy]
  split_ifs with hx hneg hallowed
  · subst hneg
    exact ⟨H0, H0_pos.ne', by rw [half_eq']; rfl⟩
  · rw [Bool.not_eq_true] at hneg
    subst hneg
    exact ⟨H0, H0_pos.ne', half_eq'⟩
  · cases hraw : rawAtan2 unit (.fin ny uy) (.fin nx ux) with
    | nan w => rw [hraw] at hallowed; cases hallowed
    | inf n => rw [hraw] at hallowed; cases hallowed
    | fin n u =>
      rw [hraw] at hallowed
      obtain ⟨⟨rfl, hu⟩, -⟩ : (n = ny ∧ u ≠ 0) ∧ _ := by simpa [angleAllowed] using hallowed
      exact ⟨u, hu, rfl⟩
  · exact ⟨1, Nat.one_ne_zero, rfl⟩

/-- Settles O31: P1 bounds every angle, P2 and P3 are the axes, and P4 is the sign off the x axis. -/
theorem atan2HasPropertiesP1ToP4 : Obligations.Atan2HasPropertiesP1ToP4 := by
  intro unit y x hyfin hxfin hne hy0 hx0
  have hne' : ¬ (F64.eq (F64.ofBits y) (.fin false 0) = true ∧ F64.eq (F64.ofBits x) (.fin false 0) = true) := by
    rwa [ofBits_eq_zero_iff hy0, ofBits_eq_zero_iff hx0]
  obtain ⟨na, ua, ha, hua, -, -⟩ := atan2_spec unit y x hyfin hxfin hne'
  have hsigned := signedUnits_within na ua
  rw [ofBits_zero, pi_eq, npi_eq]
  refine ⟨by rw [ha]; rfl, ?_, ?_, ?_, ?_, ?_, ?_, ?_, ?_⟩
  · rw [ha, ge_fin, signedUnits_true]; omega
  · rw [ha, ge_fin, signedUnits_false]; omega
  · rintro rfl hx
    obtain ⟨u, hu, hxu⟩ := fin_of_pos hxfin hx
    rw [hxu, ofBits_zero, atan2_right unit hu]
  · rintro rfl hx
    obtain ⟨u, hu, hxu⟩ := fin_of_neg hxfin hx
    rw [hxu, ofBits_zero, atan2_left unit hu, ofBits_pi64]
  · rintro rfl hy
    obtain ⟨u, hu, hyu⟩ := fin_of_pos hyfin hy
    rw [hyu, ofBits_zero, atan2_up unit hu]
    rfl
  · rintro rfl hy
    obtain ⟨u, hu, hyu⟩ := fin_of_neg hyfin hy
    rw [hyu, ofBits_zero, atan2_down unit hu, negate_halfPi64]
  · intro hy
    obtain ⟨u, hu, hyu⟩ := fin_of_pos hyfin hy
    obtain ⟨nx, ux, hxu⟩ := finite_cases hxfin
    obtain ⟨v, hv, hav⟩ := atan2_sign unit false hu nx ux
    rw [hyu, hxu, hav, zero_lt_fin]
    exact ⟨rfl, hv⟩
  · intro hy
    obtain ⟨u, hu, hyu⟩ := fin_of_neg hyfin hy
    obtain ⟨nx, ux, hxu⟩ := finite_cases hxfin
    obtain ⟨v, hv, hav⟩ := atan2_sign unit true hu nx ux
    rw [hyu, hxu, hav, lt_zero_fin]
    exact ⟨rfl, hv⟩

/-! ### Values as real numbers (R12) -/

theorem realOf_fin (neg : Bool) (u : Nat) : realOf (.fin neg u) = (F64.signedUnits neg u : ℝ) / F64.one := by
  rw [realOf, F64.one_cast]
  cases neg with
  | false => rw [signedUnits_false, if_neg Bool.false_ne_true, one_mul, Int.cast_natCast]
  | true => rw [signedUnits_true, if_pos rfl, neg_one_mul, Int.cast_neg, Int.cast_natCast]

theorem realOf_negate (v : F64) : realOf v.negate = -realOf v := by
  cases v with
  | nan w => exact neg_zero.symm
  | inf neg => exact neg_zero.symm
  | fin neg u => cases neg <;> simp [F64.negate, realOf, neg_div]

theorem realOf_true (u : Nat) : realOf (.fin true u) = -realOf (.fin false u) := realOf_negate (.fin false u)

/-! ### The default unit beside the real angle (R137, P5) -/

/-- The angle of the point (±`ux`, `uy`). -/
noncomputable def angleOf (xNeg : Bool) (uy ux : Nat) : ℝ := Complex.arg ⟨if xNeg then -(ux : ℝ) else ux, uy⟩

theorem angleOf_nonneg (xNeg : Bool) (uy ux : Nat) : 0 ≤ angleOf xNeg uy ux :=
  Complex.arg_nonneg_iff.2 (Nat.cast_nonneg uy)

theorem angleOf_le_pi (xNeg : Bool) (uy ux : Nat) : angleOf xNeg uy ux ≤ Real.pi := Complex.arg_le_pi _

/-- The angle does not depend on the unit in which both coordinates are measured. -/
theorem arg_realOf (xNeg : Bool) (uy ux : Nat) :
    Complex.arg ⟨realOf (.fin xNeg ux), realOf (.fin false uy)⟩ = angleOf xNeg uy ux := by
  have hscale : (⟨realOf (.fin xNeg ux), realOf (.fin false uy)⟩ : ℂ) =
      ((F64.one : ℝ)⁻¹ : ℝ) * ⟨if xNeg then -(ux : ℝ) else ux, uy⟩ := by
    rw [realOf_fin, realOf_fin]
    generalize (F64.one : ℝ) = one
    apply Complex.ext
    · rw [Complex.re_ofReal_mul]
      cases xNeg <;> simp [signedUnits_false, signedUnits_true, div_eq_inv_mul]
    · rw [Complex.im_ofReal_mul]
      simp [signedUnits_false, div_eq_inv_mul]
  rw [hscale, Complex.arg_real_mul _ (inv_pos.2 F64.one_cast_pos), angleOf]

/-- Below the x axis the angle changes its sign only. -/
theorem arg_realOf_true (xNeg : Bool) {uy : Nat} (hy : 0 < uy) (ux : Nat) :
    Complex.arg ⟨realOf (.fin xNeg ux), realOf (.fin true uy)⟩ = -angleOf xNeg uy ux := by
  have hpos : realOf (.fin false uy) ≠ 0 := by
    rw [realOf_fin, signedUnits_false, Int.cast_natCast]
    exact (div_pos (Nat.cast_pos.2 hy) F64.one_cast_pos).ne'
  have hconj : (⟨realOf (.fin xNeg ux), realOf (.fin true uy)⟩ : ℂ) =
      (starRingEnd ℂ) ⟨realOf (.fin xNeg ux), realOf (.fin false uy)⟩ := by
    rw [realOf_true]
    rfl
  have hne : Complex.arg ⟨realOf (.fin xNeg ux), realOf (.fin false uy)⟩ ≠ Real.pi :=
    fun h => hpos (Complex.arg_eq_pi_iff.1 h).2
  rw [hconj, Complex.arg_conj, if_neg hne, arg_realOf]

/-- The ends of an enclosure, cut at 0, enclose the value as a number of units. -/
theorem Enclosure.Holds.units {a : Enclosure} {p : Nat} {θ : ℝ} (h : a.Holds p θ) (h0 : 0 ≤ θ) :
    ((a.lo.toNat * F64.one : Nat) : ℝ) / (2 ^ p : Nat) ≤ θ * F64.one ∧
      θ * F64.one ≤ ((a.hi.toNat * F64.one : Nat) : ℝ) / (2 ^ p : Nat) := by
  obtain ⟨hlo, hhi⟩ := h
  have hp : (0 : ℝ) < 2 ^ p := by positivity
  have hone := F64.one_cast_pos
  have hlo' : (a.lo.toNat : ℝ) ≤ θ * 2 ^ p := by
    rw [← Int.cast_natCast, Int.toNat_eq_max, Int.cast_max, Int.cast_zero]
    exact max_le hlo (by positivity)
  have hhi' : θ * 2 ^ p ≤ (a.hi.toNat : ℝ) := hhi.trans (by exact_mod_cast Int.self_le_toNat a.hi)
  rw [Nat.cast_mul, Nat.cast_mul, Nat.cast_pow, Nat.cast_ofNat, div_le_iff₀ hp, le_div_iff₀ hp, mul_right_comm]
  exact ⟨mul_le_mul_of_nonneg_right hlo' hone.le, mul_le_mul_of_nonneg_right hhi' hone.le⟩

/-- The unit in the last place of PI64. -/
@[irreducible] def ulpPi64 : Nat := 2 ^ 0x3FF

theorem ulpPi64_pos : 0 < ulpPi64 := by decide +kernel

theorem one_eq_ulps : F64.one = 2 ^ 51 * ulpPi64 := by decide +kernel

theorem P0_eq_ulps : P0 = (2 ^ 52 + 0x921FB54442D18) * ulpPi64 := by decide +kernel

/-- π lies less than half a unit in the last place above PI64. -/
theorem two_pi_lt : 2 * (Real.pi * F64.one) < 2 * P0 + ulpPi64 := by
  have hulp : (0 : ℝ) < ulpPi64 := Nat.cast_pos.2 ulpPi64_pos
  have hpi := Real.pi_lt_d20
  rw [one_eq_ulps, P0_eq_ulps]
  push_cast
  nlinarith

/-- The numbers of units above PI64 that a value can have begin one unit in the last place above it. -/
theorem next_significand {u : Nat} (hu : F64.Significand u) (h : P0 < u) : P0 + ulpPi64 ≤ u := by
  obtain ⟨e, he, hulp⟩ : ∃ e, e ≠ 0 ∧ ulpPi64 = 2 ^ e := ⟨0x3FF, by decide, by unfold ulpPi64; rfl⟩
  rw [P0_eq_ulps, hulp] at h ⊢
  rcases F64.significand_cases hu he with hlow | ⟨k, rfl⟩
  · have hbelow : 2 ^ 52 * 2 ^ e ≤ (2 ^ 52 + 0x921FB54442D18) * 2 ^ e := Nat.mul_le_mul_right _ (Nat.le_add_right _ _)
    exact absurd h (Nat.not_lt.2 (hlow.trans hbelow))
  · rw [← Nat.succ_mul]
    exact Nat.mul_le_mul_right _ (Nat.lt_of_mul_lt_mul_right h)

/-- A number of units as near as PI64 to an angle of at most π is at most PI64. -/
theorem nearest_le_pi64 {u : Nat} {θ : ℝ} (hu : F64.Significand u) (hθ : θ ≤ Real.pi)
    (hnear : |(u : ℝ) - θ * F64.one| ≤ |(P0 : ℝ) - θ * F64.one|) : u ≤ P0 := by
  by_contra hlt
  rw [Nat.not_le] at hlt
  have hnext : (P0 : ℝ) + ulpPi64 ≤ u := by exact_mod_cast next_significand hu hlt
  have hlt' : (P0 : ℝ) < u := Nat.cast_lt.2 hlt
  have hpi := two_pi_lt
  have hle : θ * F64.one ≤ Real.pi * F64.one := mul_le_mul_of_nonneg_right hθ F64.one_cast_pos.le
  have hu' := (le_abs_self _).trans hnear
  rcases abs_cases ((P0 : ℝ) - θ * F64.one) with ⟨h, -⟩ | ⟨h, -⟩ <;> rw [h] at hu' <;> linarith

/-- No number of units that a value can have is nearer to `x` than `u`. -/
def NearestUnits (u : Nat) (x : ℝ) : Prop :=
  ∀ v, F64.Significand v → |(u : ℝ) - x * F64.one| ≤ |(v : ℝ) - x * F64.one|

/-- What a decided ladder answers, as a number of units. -/
theorem nearestAngle_units {xNeg : Bool} {uy ux : Nat} {r : F64} (hy : 0 < uy) (hx : 0 < ux)
    (h : nearestAngle xNeg uy ux = some r) :
    ∃ u, r = .fin false u ∧ F64.Representable u ∧ u ≤ P0 ∧ NearestUnits u (angleOf xNeg uy ux) := by
  obtain ⟨p, hp⟩ := nearestAngle_spec h
  obtain ⟨hlo, hhi⟩ := nearest_spec hp
  have hD : 0 < 2 ^ p := Nat.two_pow_pos p
  obtain ⟨hL, hH⟩ := (angleEnclosure_holds p xNeg hy hx).units (angleOf_nonneg xNeg uy ux)
  change _ ≤ angleOf xNeg uy ux * _ at hL
  change angleOf xNeg uy ux * _ ≤ _ at hH
  generalize (angleEnclosure p xNeg uy ux).lo.toNat * F64.one = L at hlo hL
  generalize (angleEnclosure p xNeg uy ux).hi.toNat * F64.one = H at hhi hH
  have hle4 : F64.roundedUnits L (2 ^ p) ≤ 4 * F64.one := by
    refine F64.roundedUnits_le hD (F64.significand_units (by decide)) ?_
    have h4 : angleOf xNeg uy ux * F64.one ≤ 4 * F64.one :=
      mul_le_mul_of_nonneg_right ((angleOf_le_pi xNeg uy ux).trans Real.pi_le_four) F64.one_cast_pos.le
    have := hL.trans h4
    rw [div_le_iff₀ (Nat.cast_pos.2 hD)] at this
    exact_mod_cast this
  have hlow := hlo.symm.trans (round_fin false hD (F64.significand_units (by decide)) hle4 (by decide +kernel))
  have hhigh : F64.roundedUnits H (2 ^ p) = F64.roundedUnits L (2 ^ p) := by
    rcases F64.round_cases false (n := H) hD with ⟨h1, -⟩ | ⟨h1, -⟩
    · cases hlow.symm.trans (hhi.symm.trans h1)
    · exact (F64.fin.inj (h1.symm.trans (hhi.trans hlow))).2
  have hnear (v : Nat) (hv : F64.Significand v) := rounded_nearest_of_enclosed hD hL hH rfl hhigh hv
  have hrep : F64.Representable (F64.roundedUnits L (2 ^ p)) := by
    have hvalid := nearestAngle_valid h
    rw [hlow] at hvalid
    cases hvalid
    assumption
  exact ⟨_, hlow, hrep, nearest_le_pi64 hrep.1 (angleOf_le_pi _ _ _) (hnear P0 P0_sig), hnear⟩

/-- A distance from a value to a real number, in units. -/
theorem abs_realOf_sub (neg : Bool) (v : Nat) (x : ℝ) :
    |realOf (.fin neg v) - x| = |(F64.signedUnits neg v : ℝ) - x * F64.one| / F64.one := by
  have hone := F64.one_cast_pos
  rw [realOf_fin]
  generalize (F64.one : ℝ) = one at hone ⊢
  rw [div_sub' hone.ne', abs_div, abs_of_pos hone, mul_comm x]

theorem abs_neg_units_sub (v : Nat) {x : ℝ} (h0 : 0 ≤ x) : |((F64.signedUnits true v : Int) : ℝ) - x| = v + x := by
  rw [signedUnits_true, Int.cast_neg, Int.cast_natCast, ← neg_add', abs_neg, abs_of_nonneg (add_nonneg (Nat.cast_nonneg v) h0)]

/-- A number of units nearest to a real number that is not negative is nearest among the values of both signs. -/
theorem realOf_nearest {u : Nat} {x : ℝ} (h0 : 0 ≤ x) (hnear : NearestUnits u x) {w : F64} (hw : w.Valid)
    (hfin : w.finite = true) : |realOf (.fin false u) - x| ≤ |realOf w - x| := by
  have hx : 0 ≤ x * F64.one := mul_nonneg h0 F64.one_cast_pos.le
  cases hw with
  | nan _ => cases hfin
  | inf _ => cases hfin
  | @fin neg v hv =>
    rw [abs_realOf_sub, abs_realOf_sub, signedUnits_false, Int.cast_natCast]
    refine div_le_div_of_nonneg_right ?_ F64.one_cast_pos.le
    cases neg with
    | false => exact hnear v hv.1
    | true =>
      refine (hnear 0 F64.representable_zero.1).trans ?_
      rw [abs_neg_units_sub v hx, Nat.cast_zero, zero_sub, abs_neg, abs_of_nonneg hx]
      exact le_add_of_nonneg_left (Nat.cast_nonneg v)

/-- A value is a binary64 value no other of which is nearer to `θ`. -/
def NearestTo (v : F64) (θ : ℝ) : Prop :=
  (∃ w : Word, v = F64.ofBits w) ∧ v.finite = true ∧
    ∀ w : Word, (F64.ofBits w).finite = true → |realOf v - θ| ≤ |realOf (F64.ofBits w) - θ|

theorem negate_valid {v : F64} (h : v.Valid) : v.negate.Valid := by
  cases h with
  | nan w => exact .nan w
  | inf neg => exact .inf _
  | fin neg h => exact .fin _ h

theorem finite_negate (v : F64) : v.negate.finite = v.finite := by cases v <;> rfl

theorem nearestTo_of_units {u : Nat} {θ : ℝ} (hu : F64.Representable u) (h0 : 0 ≤ θ)
    (hnear : NearestUnits u θ) : NearestTo (.fin false u) θ :=
  ⟨⟨_, (F64.ofBits_toBits_fin false hu).symm⟩, rfl, fun w => realOf_nearest h0 hnear (F64.ofBits_valid w)⟩

/-- The same below the x axis. -/
theorem nearestTo_neg_of_units {u : Nat} {θ : ℝ} (hu : F64.Representable u) (h0 : 0 ≤ θ)
    (hnear : NearestUnits u θ) : NearestTo (.fin true u) (-θ) := by
  refine ⟨⟨_, (F64.ofBits_toBits_fin true hu).symm⟩, rfl, fun w hw => ?_⟩
  have h := realOf_nearest h0 hnear (negate_valid (F64.ofBits_valid w)) ((finite_negate _).trans hw)
  rwa [realOf_negate, ← abs_neg, neg_sub', ← abs_neg (-_ - θ), neg_sub', neg_neg, ← realOf_true] at h

/-- Where the ladder decides on an angle that is not 0, the guard of P1 to P4 leaves it. -/
theorem atan2_correctlyRounded {yNeg xNeg : Bool} {uy ux u : Nat} (hy : 0 < uy) (hx : 0 < ux)
    (h : nearestAngle xNeg uy ux = some (.fin false u)) (hu : u ≠ 0) (hle : u ≤ P0) :
    atan2 .correctlyRounded (.fin yNeg uy) (.fin xNeg ux) = .fin yNeg u := by
  have hallowed : angleAllowed yNeg (.fin yNeg u) = true := by
    rw [angleAllowed, ofBits_pi64, beq_self_eq_true, Bool.true_and, Bool.and_eq_true, bne_iff_ne, Bool.not_eq_true',
      Bool.eq_false_iff, ne_eq, ne_eq, lt_fin, signedUnits_false, signedUnits_false]
    exact ⟨hu, by omega⟩
  rw [atan2_cases, if_neg hy.ne', if_neg hx.ne', rawAtan2_correctlyRounded_fin, h, signedAngle, if_pos hallowed]

/-- Settles O32: the enclosures hold the real angle (Laws/Arctan.lean), and what both of their ends round to is nearest to it. -/
theorem defaultAngleIsNearestToRealAngle : Obligations.DefaultAngleIsNearestToRealAngle := by
  constructor
  · intro xNeg uy ux r hy hx h
    obtain ⟨u, rfl, hu, -, hnear⟩ := nearestAngle_units hy hx h
    rw [arg_realOf]
    exact nearestTo_of_units hu (angleOf_nonneg _ _ _) hnear
  · intro y x yNeg xNeg uy ux r hyw hxw hy hx h hr
    obtain ⟨u, rfl, hu, hle, hnear⟩ := nearestAngle_units hy hx h
    have hu0 : u ≠ 0 := by
      rintro rfl
      exact hr rfl
    rw [hyw, hxw, atan2_correctlyRounded hy hx h hu0 hle]
    cases yNeg with
    | false =>
      rw [arg_realOf]
      exact nearestTo_of_units hu (angleOf_nonneg _ _ _) hnear
    | true =>
      rw [arg_realOf_true xNeg hy]
      exact nearestTo_neg_of_units hu (angleOf_nonneg _ _ _) hnear

/-! ### HEADING by its algorithm (R135, R136) -/

theorem headingWord_degreesMinutes (carry : Bool) (a : F64) :
    let deg := angleDegrees a
    let d := F64.floor deg
    let m := angleMinutes deg d
    headingWord (degreesMinutes carry a).1 (degreesMinutes carry a).2 =
      if m = 60 ∧ carry = true then 0#40 ++ 0#8 ++ BitVec.ofInt 16 (if d + 1 = 360 then 0 else d + 1)
      else 0#40 ++ BitVec.ofInt 8 m ++ BitVec.ofInt 16 d := by
  dsimp only [degreesMinutes, minuteCarry]
  by_cases h : angleMinutes (angleDegrees a) (F64.floor (angleDegrees a)) = 60 ∧ carry = true
  · rw [if_pos h, if_pos h]; rfl
  · rw [if_neg h, if_neg h]; rfl

/-- R135 with R136 and R145: the errors in their order of priority, else the heading of the angle. -/
theorem exec_heading_cases (s : State) :
    exec .heading s = .next (
      if (F64.ofBits s.vecX).finite = false ∨ (F64.ofBits s.vecY).finite = false then complete .nonfinite s
      else if F64.eq (F64.ofBits s.vecX) (.fin false 0) = true ∧ F64.eq (F64.ofBits s.vecY) (.fin false 0) = true then
        complete .degenerate s
      else if F64.ge s.headingAngle (.fin false 0) = true ∧ F64.lt s.headingAngle (F64.ofBits Config.twoPi64) = true then
        complete .ok { s with hdg := headingWord (degreesMinutes s.params.minuteCarry s.headingAngle).1
                                (degreesMinutes s.params.minuteCarry s.headingAngle).2 }
      else complete .hdgRange s) := by
  have hfinite : ((F64.ofBits s.vecX).finite = false ∨ (F64.ofBits s.vecY).finite = false) ↔ ¬ s.VectorFinite := by
    rw [State.VectorFinite, not_and_or, Bool.not_eq_true, Bool.not_eq_true]
  rw [exec_heading]
  congr 1
  by_cases hfin : s.VectorFinite
  · rw [if_neg fun h => hfinite.1 h hfin]
    by_cases hzero : s.VectorZero
    · rw [headingStep_of_zero hfin hzero]
      exact (if_pos hzero).symm
    · rw [headingStep_of_vector hfin hzero]
      refine Eq.trans ?_ (if_neg hzero).symm
      simp only [angleInRange, Bool.and_eq_true]
  · rw [headingStep_of_not_finite hfin, if_pos (hfinite.2 hfin)]

/-! ### Rounding to the nearest value (R12) -/

/-- The sign of a value, as a factor. -/
noncomputable def signOf (neg : Bool) : ℝ := if neg then -1 else 1

theorem signOf_xor (a b : Bool) : signOf (a ^^ b) = signOf a * signOf b := by
  cases a <;> cases b <;> simp [signOf]

theorem realOf_eq_sign (neg : Bool) (u : Nat) : realOf (.fin neg u) = signOf neg * (u / F64.one) := by
  rw [realOf, F64.one_cast, signOf, mul_div_assoc]

theorem msb_toBits_fin (neg : Bool) (u : Nat) : (F64.fin neg u).toBits.msb = neg := F64.msb_withSign _ _

theorem getLsbD_toBits_fin (neg : Bool) (u : Nat) :
    (F64.fin neg u).toBits.getLsbD 0 = decide (F64.magnitudeBits u % 2 = 1) := F64.getLsbD_zero_withSign _ _

theorem overflow_bound_pos : (0 : ℝ) < 2 ^ 1024 - 2 ^ 970 :=
  sub_pos.2 (pow_lt_pow_right₀ one_lt_two (by decide))

/-- Where a value is as near to `n / d` units as the rounded one, and another, the rounded one's pattern is even. -/
theorem even_of_tie {n d : Nat} (hd : 0 < d) {neg : Bool} {v : Nat} (hv : F64.Significand v)
    (hne : (F64.signedUnits neg v : ℝ) ≠ F64.roundedUnits n d)
    (htie : |(F64.signedUnits neg v : ℝ) - n / d| = |(F64.roundedUnits n d : ℝ) - n / d|) :
    F64.magnitudeBits (F64.roundedUnits n d) % 2 = 0 := by
  cases neg with
  | false =>
    rw [signedUnits_false, Int.cast_natCast] at hne htie
    exact F64.roundedUnits_even_of_tie_real hd hv (fun h => hne (by rw [h])) htie
  | true =>
    have hx : 0 ≤ (n : ℝ) / d := div_nonneg (Nat.cast_nonneg n) (Nat.cast_nonneg d)
    have hnear := F64.roundedUnits_nearest_real (n := n) hd F64.representable_zero.1
    have hzero : |((0 : Nat) : ℝ) - n / d| = n / d := by rw [Nat.cast_zero, zero_sub, abs_neg, abs_of_nonneg hx]
    rw [← htie, abs_neg_units_sub v hx, hzero] at hnear
    have hv0 : v = 0 := Nat.cast_eq_zero.1 (le_antisymm (nonpos_of_add_le_left hnear) (Nat.cast_nonneg (α := ℝ) v))
    subst hv0
    rw [signedUnits_true_zero, Int.cast_zero, ← Nat.cast_zero] at hne htie
    exact F64.roundedUnits_even_of_tie_real hd F64.representable_zero.1 (fun h => hne (by rw [h])) htie

/-- A number of units that is not negative, rounded. -/
theorem round_false_roundsTo {n d : Nat} (hd : 0 < d) : RoundsTo (F64.round false n d) ((n : ℝ) / d / F64.one) := by
  have hx : 0 ≤ (n : ℝ) / d := div_nonneg (Nat.cast_nonneg n) (Nat.cast_nonneg d)
  have hx' : 0 ≤ (n : ℝ) / d / F64.one := div_nonneg hx F64.one_cast_pos.le
  have hbound := overflow_bound_pos
  have hover := F64.infBits_le_rounded_real (n := n) hd
  have hneg : ¬ (2 ^ 1024 - 2 ^ 970 : ℝ) ≤ -((n : ℝ) / d / F64.one) :=
    not_le.2 ((neg_nonpos.2 hx').trans_lt hbound)
  have hunits : (n : ℝ) / d / F64.one * F64.one = n / d := div_mul_cancel₀ _ F64.one_cast_pos.ne'
  rcases F64.round_cases false (n := n) hd with ⟨hr, hinf⟩ | ⟨hr, hrep⟩ <;> rw [hr]
  · refine ⟨fun _ => rfl, fun h => absurd h hneg, fun h => ?_⟩
    rw [abs_of_nonneg hx'] at h
    exact absurd (hover.1 hinf) (not_le.2 h)
  · refine ⟨fun h => absurd (hover.2 h) (Nat.not_le.2 hrep.2), fun h => absurd h hneg, fun _ => ?_⟩
    refine ⟨⟨_, (F64.ofBits_toBits_fin false hrep).symm⟩, rfl, fun h => absurd hx' (not_le.2 h), fun _ => msb_toBits_fin _ _, ?_⟩
    intro w hw
    refine ⟨realOf_nearest hx' (fun v hv => ?_) (F64.ofBits_valid w) hw, fun htie hne => ?_⟩
    · rw [hunits]
      exact F64.roundedUnits_nearest_real hd hv
    · have hvalid := F64.ofBits_valid w
      obtain ⟨neg, v, hwv⟩ := finite_cases hw
      rw [hwv] at htie hne hvalid
      have hsig : F64.Significand v := by
        cases hvalid with
        | fin _ h => exact h.1
      rw [abs_realOf_sub, abs_realOf_sub, hunits, div_left_inj' F64.one_cast_pos.ne', signedUnits_false, Int.cast_natCast] at htie
      rw [realOf_fin, realOf_fin, ne_eq, div_left_inj' F64.one_cast_pos.ne', signedUnits_false, Int.cast_natCast] at hne
      rw [getLsbD_toBits_fin, even_of_tie hd hsig hne htie]
      rfl

/-- Every finite pattern has one of the other sign. -/
theorem exists_ofBits_negate {w : Word} (h : (F64.ofBits w).finite = true) :
    ∃ w', F64.ofBits w' = (F64.ofBits w).negate ∧ (F64.ofBits w').finite = true ∧
      realOf (F64.ofBits w') = -realOf (F64.ofBits w) := by
  have hvalid := negate_valid (F64.ofBits_valid w)
  obtain ⟨neg, u, hw⟩ := finite_cases h
  have hback : F64.ofBits (F64.ofBits w).negate.toBits = (F64.ofBits w).negate :=
    F64.ofBits_toBits hvalid fun x => by rw [hw]; exact nofun
  exact ⟨_, hback, by rw [hback, finite_negate, h], by rw [hback, realOf_negate]⟩

/-- Rounding is symmetric about 0. -/
theorem roundsTo_negate {v : F64} {x : ℝ} (h : RoundsTo v x) : RoundsTo v.negate (-x) := by
  obtain ⟨hpos, hneg, hfin⟩ := h
  refine ⟨fun hx => by rw [hneg hx]; rfl, fun hx => by rw [hpos (by rwa [neg_neg] at hx)]; rfl, fun hx => ?_⟩
  obtain ⟨⟨w, hw⟩, hf, hlow, hhigh, hnear⟩ := hfin (by rwa [abs_neg] at hx)
  have hdist (y z : ℝ) : |-y - -z| = |y - z| := by rw [← neg_sub', abs_neg]
  obtain ⟨nv, u, rfl⟩ := finite_cases hf
  have hmsb := msb_toBits_fin nv u
  refine ⟨?_, rfl, fun hx => ?_, fun hx => ?_, fun w' hw' => ?_⟩
  · obtain ⟨w', hw', -⟩ := exists_ofBits_negate (hw ▸ hf)
    exact ⟨w', by rw [hw', ← hw]⟩
  · rw [F64.negate, msb_toBits_fin, ← hmsb, hhigh (neg_lt_zero.1 hx)]
    rfl
  · rw [F64.negate, msb_toBits_fin, ← hmsb, hlow (neg_pos.1 hx)]
    rfl
  · obtain ⟨w'', -, hf'', hreal⟩ := exists_ofBits_negate hw'
    obtain ⟨hle, htie⟩ := hnear w'' hf''
    have hreal' : realOf (F64.ofBits w') = -realOf (F64.ofBits w'') := by rw [hreal, neg_neg]
    rw [hreal', realOf_negate, hdist, hdist]
    refine ⟨hle, fun heq hne => ?_⟩
    rw [F64.negate, getLsbD_toBits_fin, ← getLsbD_toBits_fin nv]
    exact htie heq fun h => hne (by rw [h])

theorem round_not (neg : Bool) (n d : Nat) : F64.round (!neg) n d = (F64.round neg n d).negate := by
  rw [F64.round_eq, F64.round_eq]
  split_ifs <;> rfl

/-- ±(n / d) units, rounded. -/
theorem round_roundsTo (neg : Bool) {n d : Nat} (hd : 0 < d) :
    RoundsTo (F64.round neg n d) (signOf neg * ((n : ℝ) / d / F64.one)) := by
  have h := round_false_roundsTo (n := n) hd
  cases neg with
  | false => rwa [signOf, if_neg Bool.false_ne_true, one_mul]
  | true =>
    rw [signOf, if_pos rfl, neg_one_mul, ← Bool.not_false, round_not]
    exact roundsTo_negate h

/-! ### The operations beside the real ones (R12) -/

theorem zero_roundsTo : RoundsTo (.fin false 0) 0 := by
  have h := round_false_roundsTo (n := 0) Nat.one_pos
  rwa [round_zero false Nat.one_pos, Nat.cast_zero, zero_div, zero_div] at h

theorem addFinite_roundsTo (na : Bool) (ua : Nat) (nb : Bool) (ub : Nat) :
    RoundsTo (F64.addFinite na ua nb ub) (realOf (.fin na ua) + realOf (.fin nb ub)) := by
  have hround (neg : Bool) (n : Nat) : RoundsTo (F64.round neg n 1) (signOf neg * ((n : ℝ) / F64.one)) := by
    have h := round_roundsTo neg (n := n) Nat.one_pos
    rwa [Nat.cast_one, div_one] at h
  have hopposite (h : na ≠ nb) : signOf nb = -signOf na := by
    rw [Bool.eq_not_of_ne h.symm]
    cases na <;> simp [signOf]
  rw [realOf_eq_sign, realOf_eq_sign, F64.addFinite]
  split_ifs with hsign hlt hgt
  · rw [← hsign, ← mul_add, ← add_div, ← Nat.cast_add]
    exact hround na (ua + ub)
  · rw [hopposite hsign, neg_mul, ← sub_eq_add_neg, ← mul_sub, ← sub_div, ← Nat.cast_sub hlt.le]
    exact hround na (ua - ub)
  · rw [← neg_neg (signOf na), ← hopposite hsign, neg_mul, neg_add_eq_sub, ← mul_sub, ← sub_div, ← Nat.cast_sub hgt.le]
    exact hround nb (ub - ua)
  · rw [hopposite hsign, Nat.le_antisymm (Nat.not_lt.1 hlt) (Nat.not_lt.1 hgt), neg_mul, add_neg_cancel]
    exact zero_roundsTo

theorem fadd_roundsTo {a b : F64} (ha : a.finite = true) (hb : b.finite = true) :
    RoundsTo (F64.fadd a b) (realOf a + realOf b) := by
  obtain ⟨na, ua, rfl⟩ := finite_cases ha
  obtain ⟨nb, ub, rfl⟩ := finite_cases hb
  exact addFinite_roundsTo na ua nb ub

theorem fsub_roundsTo {a b : F64} (ha : a.finite = true) (hb : b.finite = true) :
    RoundsTo (F64.fsub a b) (realOf a - realOf b) := by
  obtain ⟨na, ua, rfl⟩ := finite_cases ha
  obtain ⟨nb, ub, rfl⟩ := finite_cases hb
  rw [sub_eq_add_neg, ← realOf_negate]
  exact addFinite_roundsTo na ua (!nb) ub

theorem fmul_roundsTo {a b : F64} (ha : a.finite = true) (hb : b.finite = true) :
    RoundsTo (F64.fmul a b) (realOf a * realOf b) := by
  obtain ⟨na, ua, rfl⟩ := finite_cases ha
  obtain ⟨nb, ub, rfl⟩ := finite_cases hb
  have h := round_roundsTo (na ^^ nb) (n := ua * ub) F64.units_pos
  rwa [signOf_xor, Nat.cast_mul, div_div, mul_div_mul_comm, mul_mul_mul_comm, ← realOf_eq_sign, ← realOf_eq_sign] at h

theorem fdiv_roundsTo {a b : F64} (ha : a.finite = true) (hb : b.finite = true) (hne : realOf b ≠ 0) :
    RoundsTo (F64.fdiv a b) (realOf a / realOf b) := by
  obtain ⟨na, ua, rfl⟩ := finite_cases ha
  obtain ⟨nb, ub, rfl⟩ := finite_cases hb
  have hub : ub ≠ 0 := by
    rintro rfl
    exact hne (by rw [realOf_eq_sign, Nat.cast_zero, zero_div, mul_zero])
  have hinv : (signOf nb)⁻¹ = signOf nb := by cases nb <;> simp [signOf]
  have hone := F64.one_cast_pos.ne'
  have hvalue : realOf (.fin na ua) / realOf (.fin nb ub) =
      signOf (na ^^ nb) * (((ua * F64.one : Nat) : ℝ) / ub / F64.one) := by
    rw [realOf_eq_sign, realOf_eq_sign, signOf_xor, mul_div_mul_comm, div_eq_mul_inv (signOf na), hinv, Nat.cast_mul,
      div_div_div_cancel_right₀ hone, div_right_comm, mul_div_cancel_right₀ _ hone]
  rw [hvalue, fdiv_fin' _ _ _ _ hub]
  exact round_roundsTo _ (Nat.pos_of_ne_zero hub)

theorem realOf_le_iff (na : Bool) (ua : Nat) (nb : Bool) (ub : Nat) :
    realOf (.fin na ua) ≤ realOf (.fin nb ub) ↔ F64.signedUnits na ua ≤ F64.signedUnits nb ub := by
  rw [realOf_fin, realOf_fin, div_le_div_iff_of_pos_right F64.one_cast_pos, Int.cast_le]

theorem ge_iff_realOf {a b : F64} (ha : a.finite = true) (hb : b.finite = true) :
    F64.ge a b = true ↔ realOf b ≤ realOf a := by
  obtain ⟨na, ua, rfl⟩ := finite_cases ha
  obtain ⟨nb, ub, rfl⟩ := finite_cases hb
  rw [ge_fin, realOf_le_iff]

theorem lt_iff_realOf {a b : F64} (ha : a.finite = true) (hb : b.finite = true) :
    F64.lt a b = true ↔ realOf a < realOf b := by
  obtain ⟨na, ua, rfl⟩ := finite_cases ha
  obtain ⟨nb, ub, rfl⟩ := finite_cases hb
  rw [lt_fin, ← not_le, ← not_le, realOf_le_iff]

theorem eq_iff_realOf {a b : F64} (ha : a.finite = true) (hb : b.finite = true) :
    F64.eq a b = true ↔ realOf a = realOf b := by
  obtain ⟨na, ua, rfl⟩ := finite_cases ha
  obtain ⟨nb, ub, rfl⟩ := finite_cases hb
  rw [eq_fin, le_antisymm_iff, le_antisymm_iff, realOf_le_iff, realOf_le_iff]

theorem floor_eq_realOf {a : F64} (ha : a.finite = true) : F64.floor a = ⌊realOf a⌋ := by
  obtain ⟨neg, u, rfl⟩ := finite_cases ha
  rw [realOf_fin]
  exact F64.ediv_eq_floor _ F64.units_pos

theorem roundHalfEven_realOf {a : F64} (ha : a.finite = true) :
    |(F64.roundHalfEven a : ℝ) - realOf a| ≤ 1 / 2 ∧
      (|(F64.roundHalfEven a : ℝ) - realOf a| = 1 / 2 → Even (F64.roundHalfEven a)) := by
  obtain ⟨neg, u, rfl⟩ := finite_cases ha
  obtain ⟨hle, heven⟩ := F64.divHalfEven_real (n := u) F64.units_pos
  have hsigned : |((F64.roundHalfEven (.fin neg u) : Int) : ℝ) - realOf (.fin neg u)| =
      |(F64.divHalfEven u F64.one : ℝ) - u / F64.one| := by
    rw [realOf_fin, F64.roundHalfEven]
    cases neg with
    | false => rw [signedUnits_false, signedUnits_false, Int.cast_natCast, Int.cast_natCast]
    | true =>
      rw [signedUnits_true, signedUnits_true, Int.cast_neg, Int.cast_neg, Int.cast_natCast, Int.cast_natCast, neg_div,
        ← neg_sub', abs_neg]
  rw [hsigned]
  refine ⟨hle, fun htie => ?_⟩
  have hnat : Even (F64.divHalfEven u F64.one : Int) := (Int.even_coe_nat _).2 (Nat.even_iff.2 (heven htie))
  cases neg with
  | false => exact hnat
  | true => exact hnat.neg

theorem ofInt_exact {k : Int} (hk : k.natAbs < 2 ^ 53) :
    ∃ w : Word, F64.ofInt k = F64.ofBits w ∧ (F64.ofInt k).finite = true ∧ realOf (F64.ofInt k) = k := by
  refine ⟨_, (F64.ofBits_toBits (F64.ofInt_valid hk.le) nofun).symm, rfl, ?_⟩
  have hsigned : F64.signedUnits (decide (k < 0)) (k.natAbs * F64.one) = k * F64.one := by
    by_cases hneg : k < 0
    · rw [decide_eq_true hneg, signedUnits_true, Int.natCast_mul, Int.ofNat_natAbs_of_nonpos hneg.le, neg_mul, neg_neg]
    · rw [decide_eq_false hneg, signedUnits_false, Int.natCast_mul, Int.natAbs_of_nonneg (Int.not_lt.1 hneg)]
  rw [F64.ofInt, realOf_fin, hsigned, Int.cast_mul, Int.cast_natCast, mul_div_cancel_right₀ _ F64.one_cast_pos.ne']

/-! ### The value of a pattern (20_memory.md R52) -/

theorem finite_ofBits_iff (v : Word) : (F64.ofBits v).finite = true ↔ (v.extractLsb' 52 11).toNat ≠ 2047 := by
  rw [F64.ofBits]
  split_ifs with htop hfraction hsub
  · exact iff_of_false Bool.false_ne_true (not_not.2 htop)
  · exact iff_of_false Bool.false_ne_true (not_not.2 htop)
  · exact iff_of_true rfl htop
  · exact iff_of_true rfl htop

theorem ofBits_nan {v : Word} (he : (v.extractLsb' 52 11).toNat = 2047) (hf : v.extractLsb' 0 52 ≠ 0) :
    F64.ofBits v = .nan v := by
  have hfraction : (v.extractLsb' 0 52).toNat ≠ 0 := fun h => hf (BitVec.eq_of_toNat_eq h)
  rw [F64.ofBits]
  rw [if_pos he, if_neg hfraction]

theorem nan_compares_false (w : Word) (b : F64) :
    F64.lt (.nan w) b = false ∧ F64.lt b (.nan w) = false ∧ F64.ge (.nan w) b = false ∧ F64.ge b (.nan w) = false ∧
      F64.eq (.nan w) b = false ∧ F64.eq b (.nan w) = false := by
  cases b <;> exact ⟨rfl, rfl, rfl, rfl, rfl, rfl⟩

theorem subnormal_units (f : Nat) : (f : ℝ) / F64.one = f / 2 ^ 52 * (2 : ℝ) ^ (-1022 : ℤ) := by
  have hexp : (2 : ℝ) ^ (-1022 : ℤ) = (2 ^ 1022)⁻¹ := by rw [zpow_neg, zpow_ofNat]
  rw [F64.one_cast, hexp, ← div_eq_mul_inv, div_div, ← pow_add]

theorem normal_units (f : Nat) {e : Nat} (he : e ≠ 0) :
    (((2 ^ 52 + f) * 2 ^ (e - 1) : Nat) : ℝ) / F64.one = (1 + f / 2 ^ 52) * (2 : ℝ) ^ ((e : ℤ) - 1023) := by
  obtain ⟨k, rfl⟩ := Nat.exists_eq_succ_of_ne_zero he
  have hexp : (2 : ℝ) ^ (((k + 1 : Nat) : ℤ) - 1023) = 2 ^ k / 2 ^ 1022 := by
    rw [zpow_sub₀ two_ne_zero, zpow_natCast, zpow_ofNat, pow_succ, pow_succ _ 1022, mul_div_mul_right _ _ two_ne_zero]
  have hone : (F64.one : ℝ) = 2 ^ 52 * 2 ^ 1022 := by rw [F64.one_cast, ← pow_add]
  rw [hexp, hone, Nat.succ_sub_one, Nat.cast_mul, Nat.cast_add, Nat.cast_pow, Nat.cast_pow, Nat.cast_ofNat, mul_div_mul_comm,
    add_div, div_self (pow_ne_zero 52 two_ne_zero)]

theorem realOf_ofBits {v : Word} (he : (v.extractLsb' 52 11).toNat ≠ 2047) :
    realOf (F64.ofBits v) = (if v.msb then -1 else 1) *
      (if (v.extractLsb' 52 11).toNat = 0 then ((v.extractLsb' 0 52).toNat : ℝ) / 2 ^ 52 * (2 : ℝ) ^ (-1022 : ℤ)
        else (1 + ((v.extractLsb' 0 52).toNat : ℝ) / 2 ^ 52) * (2 : ℝ) ^ (((v.extractLsb' 52 11).toNat : ℤ) - 1023)) := by
  rw [F64.ofBits]
  rw [if_neg he]
  by_cases hsub : (v.extractLsb' 52 11).toNat = 0
  · rw [if_pos hsub, if_pos hsub, realOf_eq_sign, signOf, subnormal_units]
  · rw [if_neg hsub, if_neg hsub, realOf_eq_sign, signOf, normal_units _ hsub]

/-- Settles O35: the algorithm case by case, and each primitive by its own lemma. -/
theorem headingFollowsItsAlgorithm : Obligations.HeadingFollowsItsAlgorithm := by
  refine ⟨fun s => ?_, fun v w => ⟨finite_ofBits_iff v, realOf_ofBits, fun ha hb => ?_, fun ha => ?_, fun he hf => ?_⟩,
    fun k hk => ofInt_exact hk⟩
  · intro zero
    have hzero : zero = .fin false 0 := ofBits_zero
    clear_value zero
    subst hzero
    rw [exec_heading_cases, headingWord_degreesMinutes]
    rfl
  · exact ⟨fadd_roundsTo ha hb, fsub_roundsTo ha hb, fmul_roundsTo ha hb, fdiv_roundsTo ha hb, lt_iff_realOf ha hb,
      ge_iff_realOf ha hb, eq_iff_realOf ha hb⟩
  · exact ⟨floor_eq_realOf ha, roundHalfEven_realOf ha⟩
  · rw [ofBits_nan he hf]
    exact nan_compares_false v _

end Sys2Proof.Machine
end

section
/-! PROOFS. The statements about the calibrator (43_calibrator.md): where its rules can bring it, the offsets and the deviation, and
the accumulators beside the window. -/

namespace Sys2Proof.Machine

/-! ### Where a calibration may stand (R162 to R168, R174) -/

/-- What a phase asks of the sample index `i`, the retry count `r` and the sample count `n` (R164, R168). -/
def PhaseCounts (i r n : Nat) : CalPhase → Prop
  | .attempt => i < n
  | .paceNext => (0 < i ∧ i < n) ∧ r = 0
  | .paceRetry => i < n ∧ 0 < r
  | .finish => i = n ∧ r = 0

theorem PhaseCounts.le {i r n : Nat} {phase : CalPhase} (h : PhaseCounts i r n phase) : i ≤ n := by
  cases phase with
  | attempt => exact Nat.le_of_lt h
  | paceNext => exact Nat.le_of_lt h.1.2
  | paceRetry => exact Nat.le_of_lt h.1
  | finish => exact Nat.le_of_eq h.1

/-- A calibration in one of its phases stands where its rules can bring it. -/
structure CalibratingLegal (s : State) (phase : CalPhase) (i r : Nat) : Prop where
  count : countLegal s.params s.sampleCount = true
  calN : s.calN = BitVec.ofNat 64 i
  retries : retryBelowLimit s.params r = true
  counts : PhaseCounts i r s.sampleCount.toNat phase

theorem phaseLegal_cal_iff {s : State} {phase : CalPhase} {i r : Nat} (hq : s.seq = .cal phase i r) :
    s.phaseLegal = true ↔ CalibratingLegal s phase i r := by
  have hiff : s.phaseLegal = true ↔
      ((countLegal s.params s.sampleCount = true ∧ s.calN = BitVec.ofNat 64 i) ∧ retryBelowLimit s.params r = true) ∧
        PhaseCounts i r s.sampleCount.toNat phase := by
    cases phase <;> simp [State.phaseLegal, hq, PhaseCounts]
  rw [hiff]
  exact ⟨fun ⟨⟨⟨hn, hc⟩, hr⟩, hp⟩ => ⟨hn, hc, hr, hp⟩, fun ⟨hn, hc, hr, hp⟩ => ⟨⟨⟨hn, hc⟩, hr⟩, hp⟩⟩

/-- The sample count of a legal calibration is from 1 to CAL_MAX (R162). -/
theorem countLegal_bounds {p : Params} {n : BitVec 32} (h : countLegal p n = true) : 0 < n.toNat ∧ n.toNat ≤ p.calMax.toNat := by
  obtain ⟨hne, hle⟩ := (countLegal_iff p n).1 h
  exact ⟨Nat.pos_of_ne_zero fun h0 => hne (BitVec.eq_of_toNat_eq h0), BitVec.le_def.1 hle⟩

/-- The place of a calibration bounds CAL_N by itself, for `i` is CAL_N. -/
theorem CalibratingLegal.calibrationLegal {s : State} {phase : CalPhase} {i r : Nat} (hq : s.seq = .cal phase i r)
    (h : CalibratingLegal s phase i r) : s.CalibrationLegal := by
  refine ⟨(phaseLegal_cal_iff hq).2 h, ?_⟩
  obtain ⟨-, hn⟩ := countLegal_bounds h.count
  have hi := h.counts.le
  rw [h.calN, BitVec.toNat_ofNat]
  exact (Nat.mod_le _ _).trans (hi.trans hn)

/-- Outside a calibration only the count of a rejected CALIBRATE is constrained. -/
theorem phaseLegal_of_no_calibration {s : State}
    (h : s.seq = .idle ∨ ∃ c, s.seq = .run c ∧ (c = .legal .calibrate → countLegal s.params s.sampleCount = false)) :
    s.phaseLegal = true := by
  rcases h with hq | ⟨c, hq, hc⟩
  · simp [State.phaseLegal, hq]
  · rw [State.phaseLegal, hq]
    split <;> simp_all

theorem retryBelowLimit_zero (p : Params) : retryBelowLimit p 0 = true := by
  rw [retryBelowLimit, Bool.or_eq_true, beq_iff_eq, decide_eq_true_eq]
  exact (Nat.eq_zero_or_pos _).imp_left fun h0 => BitVec.eq_of_toNat_eq h0

/-- A calibration that begins stands at its first attempt with CAL_N 0 (R162). -/
theorem calibratingLegal_begin {s : State} (hn : countLegal s.params s.sampleCount = true) (hc : s.calN = 0) :
    CalibratingLegal s .attempt 0 0 where
  count := hn
  calN := hc
  retries := retryBelowLimit_zero _
  counts := (countLegal_bounds hn).1

theorem accept_calibrationLegal {s : State} (w : Word) (h : s.CalibrationLegal) : (accept w s).CalibrationLegal := by
  obtain ⟨q, d, n, t, c, hacc, hq⟩ := accept_spec w s
  rw [hacc]
  rcases hq with ⟨k, rfl, rfl, hk⟩ | ⟨rfl, rfl, hn⟩
  · exact ⟨phaseLegal_of_no_calibration (.inr ⟨k, rfl, hk⟩), h.2⟩
  · exact (calibratingLegal_begin hn rfl).calibrationLegal rfl

/-- An attempt moves on by R164: to a retry below the limit, to the next sample while one is left, or to the finish. -/
theorem attempt_calibrationLegal {s t : State} {i r : Nat} (hq : s.seq = .cal .attempt i r) (hs : s.CalibrationLegal)
    (h : AttemptResult s t i r) : t.CalibrationLegal := by
  have hc := (phaseLegal_cal_iff hq).1 hs.1
  have hlt : i < s.sampleCount.toNat := hc.counts
  obtain ⟨ans, ix, e, p, -, rfl | ⟨-, rfl⟩ | ⟨c, reg, rfl⟩ | ⟨-, -, dx, dy, dz, v, -, -, -, -, rfl⟩⟩ := h
  · exact hs
  · rcases afterNotReady_spec i r { s with answers := ans, drawIx := ix, transcript := s.transcript ++ [e], sample := p } with
      ⟨-, -, h⟩ | ⟨hr, h⟩ <;> rw [h]
    · exact ⟨phaseLegal_of_no_calibration (.inl rfl), hs.2⟩
    · exact CalibratingLegal.calibrationLegal rfl ⟨hc.count, hc.calN, hr, hlt, Nat.succ_pos r⟩
  · exact ⟨phaseLegal_of_no_calibration (.inl rfl), hs.2⟩
  · rcases afterSample_spec i
        (storeSample i v { s with answers := ans, drawIx := ix, transcript := s.transcript ++ [e], sample := p }) with
      ⟨hn, h⟩ | ⟨hn, h⟩ <;> rw [h]
    · exact CalibratingLegal.calibrationLegal rfl ⟨hc.count, rfl, retryBelowLimit_zero _, ⟨Nat.succ_pos i, hn⟩, rfl⟩
    · exact CalibratingLegal.calibrationLegal rfl ⟨hc.count, rfl, retryBelowLimit_zero _, Nat.le_antisymm hlt hn, rfl⟩

theorem execCalibrate_calibrationLegal {s t : State} (hs : s.CalibrationLegal) (h : exec .calibrate s = .next t) :
    t.CalibrationLegal := by
  have done (u : State) (hp : u.params = s.params) (hn : u.calN = s.calN) (hq : u.seq = .idle) : u.CalibrationLegal :=
    ⟨phaseLegal_of_no_calibration (.inl hq), by rw [hp, hn]; exact hs.2⟩
  rcases execCalibrate_spec h with ⟨i, r, hq, ha⟩ | ⟨i, r, r', hq, rfl | ⟨-, rfl⟩ | ⟨-, -, rfl⟩⟩ | ⟨i, r, -, rfl⟩ |
    ⟨-, rfl | ⟨hn, rfl⟩⟩
  · exact attempt_calibrationLegal hq hs ha
  · exact hs
  · exact done _ rfl rfl rfl
  · refine CalibratingLegal.calibrationLegal (i := i) (r := r') rfl ?_
    rcases hq with ⟨hq, rfl⟩ | ⟨hq, rfl⟩
    · have hc := (phaseLegal_cal_iff hq).1 hs.1
      obtain ⟨⟨-, hi⟩, rfl⟩ := hc.counts
      exact ⟨hc.count, hc.calN, hc.retries, hi⟩
    · have hc := (phaseLegal_cal_iff hq).1 hs.1
      exact ⟨hc.count, hc.calN, hc.retries, hc.counts.1⟩
  · rcases finishStep_spec s with h | ⟨-, -, -, h⟩ <;> rw [h]
    · exact done _ rfl rfl rfl
    · exact done _ rfl rfl rfl
  · exact done _ rfl rfl rfl
  · exact (calibratingLegal_begin (s := beginCalibration s) hn rfl).calibrationLegal rfl

/-- A command other than CALIBRATE goes on or completes. -/
theorem exec_seq_of_ne_calibrate {i : Instr} {s t : State} (hi : i ≠ .calibrate) (h : exec i s = .next t) :
    t.seq = .idle ∨ t.seq = s.seq := by
  by_cases hread : i = .readAxes
  · subst hread
    obtain ⟨ans, ix, e, p, -, rfl | rfl | ⟨c, r, rfl⟩ | ⟨v, rfl⟩⟩ := execReadAxes_spec h
    · exact .inr rfl
    all_goals exact .inl rfl
  by_cases hsetup : i = .setup
  · subst hsetup
    obtain ⟨ans, ix, e, -, ⟨c, r, rfl⟩ | ⟨q, -, rfl⟩ | ⟨-, rfl⟩⟩ := execSetup_spec h
    · exact .inl rfl
    · exact .inr rfl
    · exact .inl rfl
  obtain ⟨e, u, rfl⟩ := exec_completes hread hi hsetup h
  exact .inl rfl

theorem exec_calibrationLegal {i : Instr} {s t : State} (hr : running s = some (.legal i)) (hs : s.CalibrationLegal)
    (h : exec i s = .next t) : t.CalibrationLegal := by
  by_cases hi : i = .calibrate
  · subst hi
    exact execCalibrate_calibrationLegal hs h
  have hc := exec_changes hr h
  have hcalN : t.calN = s.calN := by
    by_contra hne
    rcases hc.calN hne with ⟨-, hcal⟩ | ⟨w, -, hhost, -⟩
    · rw [hr] at hcal
      cases hcal
      exact hi rfl
    · cases hhost
  have hq : s.seq = .run (.legal i) := (seq_of_running hr).resolve_right fun h => hi h.1
  refine ⟨phaseLegal_of_no_calibration ?_, by rw [hc.params, hcalN]; exact hs.2⟩
  refine (exec_seq_of_ne_calibrate hi h).imp_right fun ht => ⟨_, ht.trans hq, fun hcal => ?_⟩
  cases hcal
  exact absurd rfl hi

/-- Settles O54: every kind of move keeps the calibrator at a place its rules allow. -/
theorem stepKeepsCalibrationLegal : Obligations.StepKeepsCalibrationLegal :=
  step_preserves State.CalibrationLegal
    (schedule := fun _ _ h => h)
    (host := fun _ _ _ h => h)
    (accepts := fun _ w _ h => accept_calibrationLegal w h)
    (writes := fun _ _ _ _ _ _ _ h => h)
    (aborts := fun _ _ h => h)
    (overruns := fun _ _ h => h)
    (ticks := fun _ _ h => h)
    (resets := fun _ _ => ⟨rfl, Nat.zero_le _⟩)
    (illegal := fun _ _ h => ⟨rfl, h.2⟩)
    (executes := fun _ _ _ hr hs h => exec_calibrationLegal hr hs h)

/-! ### The offsets and the deviation (R168, R176) -/

/-- From `s` to `t` the finish of a calibration has written the offsets and the deviation, all three finite (R168). -/
structure WritesOffsets (s t : State) : Prop where
  seq : ∃ n r, s.seq = .cal .finish n r
  finite_x : (midpoint s.extrema.xmax s.extrema.xmin).finite = true
  finite_y : (midpoint s.extrema.ymax s.extrema.ymin).finite = true
  finite_z : (deviation s.extrema.zmax s.extrema.zmin).finite = true
  xOff : t.xOff = (midpoint s.extrema.xmax s.extrema.xmin).toBits
  yOff : t.yOff = (midpoint s.extrema.ymax s.extrema.ymin).toBits
  zDev : t.zDev = (deviation s.extrema.zmax s.extrema.zmin).toBits

/-- CALIBRATE writes its results at a successful finish only. -/
theorem execCalibrate_offsets {s t : State} (h : exec .calibrate s = .next t) :
    (t.xOff = s.xOff ∧ t.yOff = s.yOff ∧ t.zDev = s.zDev) ∨ WritesOffsets s t := by
  rcases execCalibrate_spec h with ⟨i, r, -, ha⟩ | ⟨i, r, r', -, rfl | ⟨-, rfl⟩ | ⟨-, -, rfl⟩⟩ | ⟨n, r, hq, rfl⟩ |
    ⟨-, rfl | ⟨-, rfl⟩⟩
  · obtain ⟨ans, ix, tr, p, rfl | rfl | ⟨c, reg, rfl⟩ | ⟨-, rfl⟩ | ⟨-, -, v, ph, k, rfl⟩⟩ := attempt_cases ha
    all_goals exact .inl ⟨rfl, rfl, rfl⟩
  case inr.inr.inl =>
    rcases finishStep_spec s with h | ⟨hx, hy, hz, h⟩ <;> rw [h]
    · exact .inl ⟨rfl, rfl, rfl⟩
    · exact .inr ⟨⟨n, r, hq⟩, hx, hy, hz, rfl, rfl, rfl⟩
  all_goals exact .inl ⟨rfl, rfl, rfl⟩

/-- A step clears the results at reset, keeps them, or is a successful finish. -/
theorem step_offsets {s t : State} (h : step s = .next t) :
    (t.xOff = 0 ∧ t.yOff = 0 ∧ t.zDev = 0) ∨ (t.xOff = s.xOff ∧ t.yOff = s.yOff ∧ t.zDev = s.zDev) ∨ WritesOffsets s t := by
  rcases step_reset_or_changes h with ⟨-, sch, rfl⟩ | hc
  · exact .inl ⟨rfl, rfl, rfl⟩
  · refine .inr ?_
    by_cases hoff : t.xOff ≠ s.xOff ∨ t.yOff ≠ s.yOff ∨ t.zDev ≠ s.zDev
    · obtain ⟨sch, he⟩ := exec_of_ran h (hc.offsets hoff)
      exact (execCalibrate_offsets he).imp_right fun hw => { hw with }
    · exact .inl (by simpa using hoff)

theorem finite_ofBits_zero : (F64.ofBits 0).finite = true := by rw [ofBits_zero]; rfl

theorem midpoint_valid (high low : Word) : (midpoint high low).Valid := F64.fdiv_valid _ _

theorem deviation_valid (high low : Word) : (deviation high low).Valid := F64.fsub_valid _ _

theorem deg2rad_valid (d : F64) : (deg2rad d).Valid := F64.fdiv_valid _ _

/-- A step clears the declination at reset, keeps it, or stores a finite number of radians (R131). -/
theorem step_decl {s t : State} (h : step s = .next t) :
    t.decl = 0 ∨ t.decl = s.decl ∨ ∃ d, (deg2rad d).finite = true ∧ t.decl = (deg2rad d).toBits := by
  rcases step_reset_or_changes h with ⟨-, sch, rfl⟩ | hc
  · exact .inl rfl
  · refine .inr ?_
    by_cases hd : t.decl = s.decl
    · exact .inl hd
    · obtain ⟨sch, he⟩ := exec_of_ran h (hc.decl hd)
      rcases execSetDecl_spec he with rfl | ⟨hf, rfl⟩
      · exact .inl rfl
      · exact .inr ⟨_, hf, rfl⟩

/-- Settles O55: the four registers are written with tested values only. -/
theorem stepKeepsCalibrationFinite : Obligations.StepKeepsCalibrationFinite := by
  intro s t hs h
  obtain ⟨hdecl, hx, hy, hz⟩ := hs
  have written {v : F64} (hv : v.Valid) (hf : v.finite = true) : (F64.ofBits v.toBits).finite = true :=
    (F64.finite_ofBits_toBits hv).trans hf
  refine ⟨?_, ?_⟩
  · rcases step_decl h with h | h | ⟨d, hf, h⟩ <;> rw [h]
    · exact finite_ofBits_zero
    · exact hdecl
    · exact written (deg2rad_valid d) hf
  · rcases step_offsets h with ⟨h1, h2, h3⟩ | ⟨h1, h2, h3⟩ | hw
    · rw [h1, h2, h3]
      exact ⟨finite_ofBits_zero, finite_ofBits_zero, finite_ofBits_zero⟩
    · rw [h1, h2, h3]
      exact ⟨hx, hy, hz⟩
    · rw [hw.xOff, hw.yOff, hw.zDev]
      exact ⟨written (midpoint_valid _ _) hw.finite_x, written (midpoint_valid _ _) hw.finite_y,
        written (deviation_valid _ _) hw.finite_z⟩

/-- The difference of two values is finite only if both are. -/
theorem finite_of_fsub {a b : F64} (h : (F64.fsub a b).finite = true) : a.finite = true ∧ b.finite = true := by
  cases a with
  | nan w => cases h
  | fin na ua =>
    cases b with
    | nan w => cases h
    | inf nb => cases h
    | fin nb ub => exact ⟨rfl, rfl⟩
  | inf na =>
    cases b with
    | nan w => cases h
    | fin nb ub => cases h
    | inf nb => cases na <;> cases nb <;> cases h

/-- A clean finite pattern is no −0: a negative one has at least one unit. -/
theorem pos_of_cleanPattern {w : Word} (h : cleanPattern w = true) {u : Nat} (hw : F64.ofBits w = .fin true u) : 0 < u := by
  refine Nat.pos_of_ne_zero ?_
  rintro rfl
  have hbits : w = 0x8000000000000000 := by rw [← F64.toBits_ofBits w, hw]; decide
  rw [hbits] at h
  exact absurd h (by decide)

/-- A rounding has the sign it is asked for. -/
theorem msb_toBits_round (neg : Bool) (n d : Nat) : (F64.round neg n d).toBits.msb = neg := by
  rw [F64.round_eq]
  split_ifs
  · exact F64.msb_withSign _ _
  · exact msb_toBits_fin _ _

/-- R176: the greatest less the least is not negative, and +0 where they agree. Only −0 less +0 would be a −0. -/
theorem deviation_msb {low high : Word} (h : RangeClean low high) (hf : (deviation high low).finite = true) :
    (deviation high low).toBits.msb = false := by
  obtain ⟨-, hhigh, hle⟩ := h
  obtain ⟨hfh, hfl⟩ := finite_of_fsub hf
  obtain ⟨nb, ub, hlow⟩ := finite_cases hfl
  obtain ⟨na, ua, hhi⟩ := finite_cases hfh
  have hdev : deviation high low = F64.addFinite na ua (!nb) ub := by rw [deviation, hlow, hhi]; rfl
  have hle : F64.signedUnits nb ub ≤ F64.signedUnits na ua := by
    rw [hhi, hlow] at hle
    exact Int.not_lt.1 fun hlt => Bool.eq_false_iff.1 hle ((lt_fin ..).2 hlt)
  have hneg : na = true → 0 < ua := fun hna => pos_of_cleanPattern hhigh (by rw [hhi, hna])
  rw [hdev, F64.addFinite]
  split_ifs with hsign hlt hgt
  · rw [msb_toBits_round]
    refine Bool.eq_false_iff.2 fun hna => ?_
    have hnb : nb = false := by simpa [hna] using hsign
    rw [hna, hnb, signedUnits_true, signedUnits_false] at hle
    have := hneg hna
    omega
  · rw [msb_toBits_round]
    refine Bool.eq_false_iff.2 fun hna => ?_
    have hnb : nb = true := by simpa [hna] using hsign
    rw [hna, hnb, signedUnits_true, signedUnits_true] at hle
    omega
  · rw [msb_toBits_round]
    refine Bool.eq_false_iff.2 fun hnb => ?_
    have hnb : nb = false := by simpa using hnb
    have hna : na = false := by simpa [hnb] using hsign
    rw [hna, hnb, signedUnits_false, signedUnits_false] at hle
    omega
  · exact msb_toBits_fin _ _

/-- Settles O57: at the finish of a legal calibration at least one sample is stored, so the z accumulators are in order. -/
theorem stepKeepsDeviationNonneg : Obligations.StepKeepsDeviationNonneg := by
  intro s t hlegal hclean hs h
  unfold State.DeviationNonneg at hs ⊢
  rcases step_offsets h with ⟨-, -, hz⟩ | ⟨-, -, hz⟩ | hw
  · rw [hz]
    exact ⟨finite_ofBits_zero, rfl⟩
  · rw [hz]
    exact hs
  · obtain ⟨n, r, hq⟩ := hw.seq
    have hc := (phaseLegal_cal_iff hq).1 hlegal.1
    have hn : s.samplesStored ≠ 0 := by
      rw [State.samplesStored, hq]
      exact (hc.counts.1.trans_ne (Nat.pos_iff_ne_zero.1 (countLegal_bounds hc.count).1))
    obtain ⟨-, -, hrange⟩ := ((samplesClean_iff s).1 hclean).2.2 hn
    rw [hw.zDev]
    exact ⟨(F64.finite_ofBits_toBits (deviation_valid _ _)).trans hw.finite_z, deviation_msb hrange hw.finite_z⟩

/-! ### The accumulators beside the window (R166) -/

/-- The extremes of the first entries depend on those entries only. -/
theorem column_congr {m m' : Memory} {n : Nat} (h : ∀ k < n, m'.read k = m.read k) :
    columnMin m' n = columnMin m n ∧ columnMax m' n = columnMax m n := by
  induction n with
  | zero => exact ⟨rfl, rfl⟩
  | succ n ih =>
    obtain ⟨hmin, hmax⟩ := ih fun k hk => h k (Nat.lt_succ_of_lt hk)
    rw [columnMin, columnMin, columnMax, columnMax, h n (Nat.lt_succ_self n), h 0 (Nat.succ_pos n), hmin, hmax]
    exact ⟨rfl, rfl⟩

/-- The accumulators of one column are its extremes over the first `n` entries. -/
def RangeOf (m : Memory) (n : Nat) (low high : Word) : Prop := low = columnMin m n ∧ high = columnMax m n

/-- The first sample is both extremes. -/
theorem rangeOf_first {m : Memory} (hm : m.wf = true) (v : Word) : RangeOf (m.write 0 v) 1 v v := by
  have hread : (m.write 0 v).read 0 = v := by rw [Memory.write_read 0 v hm, if_pos rfl]
  exact ⟨hread.symm, hread.symm⟩

/-- A further sample changes an extreme as R166's comparison says. -/
theorem RangeOf.store {m : Memory} {n : Nat} {low high : Word} (h : RangeOf m n low high) (hm : m.wf = true) (hn : n ≠ 0)
    (v : Word) : RangeOf (m.write n v) (n + 1) (lesser v low) (greater v high) := by
  obtain ⟨hlow, hhigh⟩ := h
  have hread : (m.write n v).read n = v := by rw [Memory.write_read n v hm, if_pos rfl]
  obtain ⟨hmin, hmax⟩ := column_congr (m := m) (m' := m.write n v) (n := n) fun k hk => by
    rw [Memory.write_read n v hm, if_neg (Nat.ne_of_lt hk)]
  constructor
  · rw [columnMin, if_neg hn, hread, hmin, hlow]
  · rw [columnMax, if_neg hn, hread, hmax, hhigh]

/-- The invariant, by the number of stored samples. -/
theorem extremaAgree_iff (s : State) :
    s.ExtremaAgree ↔ (s.samplesStored ≠ 0 →
      RangeOf s.wx s.samplesStored s.extrema.xmin s.extrema.xmax ∧ RangeOf s.wy s.samplesStored s.extrema.ymin s.extrema.ymax) := by
  unfold State.ExtremaAgree State.samplesStored
  cases s.seq with
  | idle => simp
  | run c => simp
  | cal phase i r =>
    cases i with
    | zero => simp
    | succ i => simp [RangeOf, and_assoc]

/-- Settles O58: the stored sample goes into the column and into the comparison alike. -/
theorem stepKeepsExtremaOfTheWindow : Obligations.StepKeepsExtremaOfTheWindow := by
  intro s t hwf hs h
  obtain ⟨hxf, hyf, -, -⟩ := hwf
  rw [extremaAgree_iff] at hs ⊢
  rcases step_samples h with ⟨-, -, hn⟩ | ⟨hwx, hwy, hext, hn⟩ | ⟨dx, dy, dz, hwx, hwy, hext, hn⟩
  · exact fun hne => absurd hn hne
  · intro hne
    have hkept := hn.resolve_left hne
    rw [hwx, hwy, hext, hkept]
    exact hs (hkept ▸ hne)
  · intro _
    rw [hwx, hwy, hext, hn, Extrema.update]
    split_ifs with hi
    · rw [hi]
      exact ⟨rangeOf_first hxf _, rangeOf_first hyf _⟩
    · obtain ⟨hx, hy⟩ := hs hi
      exact ⟨hx.store hxf hi _, hy.store hyf hi _⟩

end Sys2Proof.Machine
end
section
/-! PROOFS. The statements about the calibrator (43_calibrator.md): each engine step of a calibration, and its runs. -/

namespace Sys2Proof.Machine

/-! ### The count (R162) -/

theorem exec_calibrate_run {s : State} {c : Command} (h : s.seq = .run c) : exec .calibrate s = .next (calibrateStart s) := by
  simp only [exec, execCalibrate, h]

theorem calibrateStart_of_illegal {s : State} (h : countLegal s.params s.sampleCount ≠ true) :
    calibrateStart s = complete .arg s := if_neg h

theorem decode_calibrateWord : decode 0x0000000000000005 = .ok .calibrate := decode_encode .calibrate

/-- Settles O36: the acceptance tests the count; a rejected one completes as it began but for ERR and the latches. -/
theorem calibrateChecksItsCount : Obligations.CalibrateChecksItsCount := by
  intro s hs
  rw [hostWrite_cmd_idle hs, accept_of_calibrate decode_calibrateWord]
  refine ⟨fun hstatus hprogress hn => ?_, fun hne hle => ?_⟩
  · obtain ⟨hbusy, habort, hsample, hsetup⟩ := State.TransientsAgree.of_idle ⟨hstatus, hprogress⟩ hs
    have hill : countLegal s.params (countField s.arg0) ≠ true := by
      rw [ne_eq, countLegal_iff]
      rintro ⟨hne, hle⟩
      exact hn.elim hne fun hlt => absurd (BitVec.le_def.1 hle) (Nat.not_le.2 (BitVec.lt_def.1 hlt))
    rw [engineMove_of_legal (running_acceptCalibrate _), acceptCalibrate_of_illegal (s := beginCommand s) hill,
      exec_calibrate_run rfl, calibrateStart_of_illegal hill]
    simp [complete, beginCommand, countField, intervalField, hs, hbusy, habort, hsample, hsetup]
  · rw [acceptCalibrate_of_legal (s := beginCommand s) ((countLegal_iff _ _).2 ⟨hne, hle⟩)]
    exact ⟨rfl, rfl⟩

/-! ### The port reads of an attempt (R164 to R166, R169, R170) -/

/-- The last read of an attempt stores its sample where the window has the entry. -/
theorem attemptStep_of_last {s u : State} {i r : Nat} {xl xh yl yh zl zh : Byte} (hp : s.sample = .zHigh xl xh yl yh zl)
    (h : drawAnswer s = (.byte zh, u)) (hi : i < s.params.calMax.toNat) :
    attemptStep i r s = .next (afterSample i (storeSample i (scaleOff (dec16 xl xh) (dec16 yl yh) (dec16 zl zh) s)
      { appendTranscript (.readOk 0x05 zh) u with sample := .status })) := by
  have hu : i < u.params.calMax.toNat := by
    obtain ⟨ans, ix, rfl⟩ := drawAnswer_spec h
    exact hi
  rw [attemptStep, sampleStep_of_last hp h]
  exact if_pos hu

/-- Settles O37: the last read stores the sample; where the calibration goes then is `afterSample`'s test. -/
theorem calibrateStoresTheSample : Obligations.CalibrateStoresTheSample := by
  intro s u i r xl xh yl yh zl zh hq hp h hi
  rw [exec_calibrate_attempt hq, attemptStep_of_last hp h hi]
  obtain ⟨ans, ix, rfl⟩ := drawAnswer_spec h
  exact apply_ite Host.Outcome.next _ _ _

/-- Settles O38: the status ends the sample with `NONE` (R112); what follows is `afterNotReady`'s test of the limit. -/
theorem calibrateRetriesNotReady : Obligations.CalibrateRetriesNotReady := by
  intro s u i r st hq hp h hst
  rw [exec_calibrate_attempt hq, attemptStep, sampleStep_of_notReady hp h hst]
  obtain ⟨ans, ix, rfl⟩ := drawAnswer_spec h
  exact apply_ite Host.Outcome.next _ _ _

/-- Settles O39: whichever read fails, the sample ends with its register (R114). -/
theorem calibrateFailureKeepsOffsets : Obligations.CalibrateFailureKeepsOffsets := by
  intro s u i r c hq h
  rw [exec_calibrate_attempt hq, attemptStep, sampleStep_of_fail h]
  rfl

/-! ### The pacing phases (R163, R167, R173) -/

/-- The calibration is in a pacing phase that leads to the attempt at sample `i` with `r` retries counted. -/
def State.PacesTo (s : State) (i r : Nat) : Prop := (s.seq = .cal .paceNext i 0 ∧ r = 0) ∨ s.seq = .cal .paceRetry i r

theorem State.PacesTo.exec_eq {s : State} {i r : Nat} (h : s.PacesTo i r) : exec .calibrate s = .next (paceStep i r s) := by
  rcases h with ⟨hq, rfl⟩ | hq <;> simp only [exec, execCalibrate, hq]

theorem paceStep_of_abort {s : State} (h : s.status.abortReq = true) (i r : Nat) : paceStep i r s = complete .aborted s := by
  simp [paceStep, paceOver, h]

theorem paceStep_of_wait {s : State} (ha : s.status.abortReq = false) (hk : s.ticks < s.interval.toNat) (i r : Nat) :
    paceStep i r s = s := by
  simp [paceStep, paceOver, ha, hk]

theorem paceStep_of_over {s : State} (ha : s.status.abortReq = false) (hk : s.interval.toNat ≤ s.ticks) (i r : Nat) :
    paceStep i r s = { s with seq := .cal .attempt i r } := by
  simp [paceStep, paceOver, ha, hk]

/-- Settles O40, by the three cases of a pacing phase's step; PACE_NEXT leads to an attempt with no retry counted. -/
theorem pacingWaitsAbortsOrAttempts : Obligations.PacingWaitsAbortsOrAttempts := by
  intro s i r h
  have hpace : s.PacesTo i (if s.seq = .cal .paceNext i 0 then 0 else r) := by
    rcases h with hq | hq
    · exact .inl ⟨hq, if_pos hq⟩
    · exact .inr (by simp [hq])
  rw [hpace.exec_eq]
  exact ⟨fun ha => by rw [paceStep_of_abort ha, complete], fun ha hk => by rw [paceStep_of_wait ha hk],
    fun ha hk => by rw [paceStep_of_over ha hk]⟩

/-! ### The finish (R168) -/

theorem exec_calibrate_finish {s : State} {n r : Nat} (h : s.seq = .cal .finish n r) :
    exec .calibrate s = .next (finishStep s) := by
  simp only [exec, execCalibrate, h]

/-- The three values that the finish is to write are finite (R168). -/
def State.ResultsFinite (s : State) : Prop :=
  (midpoint s.extrema.xmax s.extrema.xmin).finite = true ∧ (midpoint s.extrema.ymax s.extrema.ymin).finite = true ∧
    (deviation s.extrema.zmax s.extrema.zmin).finite = true

theorem finishStep_of_finite {s : State} (h : s.ResultsFinite) :
    finishStep s = complete .ok { s with
      xOff := (midpoint s.extrema.xmax s.extrema.xmin).toBits
      yOff := (midpoint s.extrema.ymax s.extrema.ymin).toBits
      zDev := (deviation s.extrema.zmax s.extrema.zmin).toBits } := by
  obtain ⟨hx, hy, hz⟩ := h
  simp [finishStep, hx, hy, hz]

theorem finishStep_of_overflow {s : State} (h : ¬ s.ResultsFinite) : finishStep s = complete .overflow s :=
  (finishStep_spec s).resolve_right fun ⟨hx, hy, hz, _⟩ => h ⟨hx, hy, hz⟩

/-- Settles O41, by the two cases of the finish. -/
theorem finishWritesMidpointsOrOverflows : Obligations.FinishWritesMidpointsOrOverflows := by
  intro s n r hq
  rw [exec_calibrate_finish hq]
  exact ⟨fun h => congrArg _ (finishStep_of_finite h), fun h => congrArg _ (finishStep_of_overflow h)⟩

/-! ### Runs of a calibration with an empty schedule -/

theorem run_append {s t : State} {j : Nat} (h : core.run j s = .next t) (k : Nat) : core.run (j + k) s = core.run k t := by
  induction j generalizing s with
  | zero =>
    cases h
    rw [Nat.zero_add]
  | succ j ih =>
    cases hs : step s with
    | next u =>
      rw [run_succ hs] at h
      rw [Nat.succ_add, run_succ hs, ih h]
    | fault r => simp [core, Host.Core.run, hs] at h
    | refused r => simp [core, Host.Core.run, hs] at h

/-- Some number of steps leads from `s` to `t`. -/
def State.Leads (s t : State) : Prop := ∃ k, core.run k s = .next t

theorem State.Leads.trans {s t u : State} (h : s.Leads t) (h' : t.Leads u) : s.Leads u := by
  obtain ⟨j, hj⟩ := h
  obtain ⟨k, hk⟩ := h'
  exact ⟨j + k, (run_append hj k).trans hk⟩

theorem State.Leads.of_step {s t : State} (h : step s = .next t) : s.Leads t := ⟨1, run_one h⟩

/-- What every step keeps, a run keeps. -/
theorem State.Leads.preserves {P : State → Prop} (hP : ∀ s t, P s → step s = .next t → P t) {s t : State} (h : s.Leads t)
    (hs : P s) : P t := by
  obtain ⟨k, hk⟩ := h
  induction k generalizing s with
  | zero =>
    cases hk
    exact hs
  | succ k ih =>
    cases hstep : step s with
    | next u => exact ih (hP s u hs hstep) (by rwa [run_succ hstep] at hk)
    | fault r => simp [core, Host.Core.run, hstep] at hk
    | refused r => simp [core, Host.Core.run, hstep] at hk

/-- Outside the pacing phases the engine makes the next step of a calibration. -/
theorem step_calibrating {s : State} {phase : CalPhase} {i r : Nat} (hsch : s.schedule = []) (hq : s.seq = .cal phase i r)
    (hp : pacing s = false) : step s = exec .calibrate s := by
  rw [step_engine hsch (by simp [engineEnabled, hq, hp])]
  exact engineMove_of_legal (by rw [running, hq])

theorem step_finish {s : State} {n r : Nat} (hsch : s.schedule = []) (hq : s.seq = .cal .finish n r) :
    step s = .next (finishStep s) :=
  (step_calibrating hsch hq (by simp [pacing, hq])).trans (exec_calibrate_finish hq)

theorem State.PacesTo.pacing {s : State} {i r : Nat} (h : s.PacesTo i r) : pacing s = true := by
  rcases h with ⟨hq, -⟩ | hq <;> simp [Machine.pacing, hq]

theorem State.PacesTo.running {s : State} {i r : Nat} (h : s.PacesTo i r) : running s = some (.legal .calibrate) := by
  rcases h with ⟨hq, -⟩ | hq <;> simp [Machine.running, hq]

/-- While the wait is not over, the Timebase moves (R245). -/
theorem State.PacesTo.step_wait {s : State} {i r : Nat} (h : s.PacesTo i r) (hsch : s.schedule = [])
    (ha : s.status.abortReq = false) (hk : s.ticks < s.interval.toNat) : step s = .next { s with ticks := s.ticks + 1 } := by
  have hover : paceOver s = false := by simp [paceOver, ha, hk]
  simp [step, nextAgent, hsch, defaultAgent, engineEnabled, h.pacing, hover, tickMove]

/-- When the wait is over, the engine goes to the attempt (R163, R167). -/
theorem State.PacesTo.step_over {s : State} {i r : Nat} (h : s.PacesTo i r) (hsch : s.schedule = [])
    (ha : s.status.abortReq = false) (hk : s.interval.toNat ≤ s.ticks) : step s = .next { s with seq := .cal .attempt i r } := by
  have hover : paceOver s = true := by simp [paceOver, hk]
  have hne := seq_ne_idle_of_running h.running
  rw [step_engine hsch (by simp [engineEnabled, hne, hover]), engineMove_of_legal h.running, h.exec_eq, paceStep_of_over ha hk]

/-- A pacing phase without an ABORT leads to the attempt, after the ticks that its wait still needs. -/
theorem State.PacesTo.leads {s : State} {i r : Nat} (h : s.PacesTo i r) (hsch : s.schedule = [])
    (ha : s.status.abortReq = false) : ∃ n, s.Leads { s with seq := .cal .attempt i r, ticks := n } := by
  induction hk : s.interval.toNat - s.ticks generalizing s with
  | zero => exact ⟨s.ticks, .of_step (h.step_over hsch ha (Nat.le_of_sub_eq_zero hk))⟩
  | succ d ih =>
    have hlt : s.ticks < s.interval.toNat := by omega
    obtain ⟨n, hn⟩ := ih (s := { s with ticks := s.ticks + 1 }) h hsch ha (by dsimp only; omega)
    exact ⟨n, .trans (.of_step (h.step_wait hsch ha hlt)) hn⟩

/-! ### A sample of a ready sensor (R161, R164) -/

/-- A calibration runs alone in the attempt at sample `i`, at place `p` of the sample, with answers `a` to come. -/
structure Attempting (i : Nat) (p : SampleProgress) (a : List PortAnswer) (s : State) : Prop where
  schedule : s.schedule = []
  seq : ∃ r, s.seq = .cal .attempt i r
  sample : s.sample = p
  answers : s.answers = a

theorem Attempting.step_eq {i : Nat} {p : SampleProgress} {a : List PortAnswer} {s : State} (h : Attempting i p a s) :
    step s = exec .calibrate s := by
  obtain ⟨r, hq⟩ := h.seq
  exact step_calibrating h.schedule hq (by simp [pacing, hq])

theorem Attempting.run_more {i : Nat} {p q : SampleProgress} {b : Byte} {rest : List PortAnswer} {s : State}
    (h : Attempting i p (.byte b :: rest) s) (hq : p.after b = some q) (k : Nat) :
    core.run (k + 1) s = core.run k (afterRead p q b rest s) ∧ Attempting i q rest (afterRead p q b rest s) := by
  obtain rfl := h.sample
  have hstep : step s = .next (afterRead s.sample q b rest s) :=
    h.step_eq.trans (exec_of_more (drawAnswer_of_answers h.answers) (.inr ⟨rfl, i, h.seq⟩) hq)
  exact ⟨run_succ hstep, ⟨h.schedule, h.seq, rfl, rfl⟩⟩

theorem Attempting.run_last {i : Nat} {xl xh yl yh zl zh : Byte} {rest : List PortAnswer} {s : State}
    (h : Attempting i (.zHigh xl xh yl yh zl) (.byte zh :: rest) s) (hi : i < s.params.calMax.toNat) :
    core.run 1 s = .next (afterSample i (storeSample i (scaleOff (dec16 xl xh) (dec16 yl yh) (dec16 zl zh) s)
      (afterRead s.sample .status zh rest s))) := by
  obtain ⟨r, hq⟩ := h.seq
  rw [run_one (h.step_eq.trans ((exec_calibrate_attempt hq).trans
    (attemptStep_of_last h.sample (drawAnswer_of_answers h.answers) hi))), h.sample]
  rfl

/-- The bytes that the port answers in one sample: the status, then x, y and z, low before high. -/
abbrev SampleBytes := Byte × Byte × Byte × Byte × Byte × Byte × Byte

/-- The vector that a sample's bytes make in state `s` (R111). -/
def SampleBytes.vec (b : SampleBytes) (s : State) : Vec :=
  scaleOff (dec16 b.2.1 b.2.2.1) (dec16 b.2.2.2.1 b.2.2.2.2.1) (dec16 b.2.2.2.2.2.1 b.2.2.2.2.2.2) s

/-- The state with sample `i` read, its entries `new` in the transcript, and stored; `rest` is still to be answered. -/
def storedState (i : Nat) (b : SampleBytes) (new : List Transaction) (rest : List PortAnswer) (s : State) : State :=
  storeSample i (b.vec s) { s with answers := rest, transcript := s.transcript ++ new }

/-- The seven reads of a ready sample, seven engine steps, store it (R118, R165). -/
theorem Attempting.run_sample {i : Nat} {st xl xh yl yh zl zh : Byte} {rest : List PortAnswer} {s : State}
    (h : Attempting i .status (sampleAnswers st xl xh yl yh zl zh ++ rest) s) (hst : st.getLsbD 0 = true)
    (hi : i < s.params.calMax.toNat) :
    core.run 7 s = .next (afterSample i
      (storedState i (st, xl, xh, yl, yh, zl, zh) (sampleEntries st xl xh yl yh zl zh) rest s)) := by
  obtain ⟨r1, h1⟩ := h.run_more (if_pos hst) 6
  obtain ⟨r2, h2⟩ := h1.run_more rfl 5
  obtain ⟨r3, h3⟩ := h2.run_more rfl 4
  obtain ⟨r4, h4⟩ := h3.run_more rfl 3
  obtain ⟨r5, h5⟩ := h4.run_more rfl 2
  obtain ⟨r6, h6⟩ := h5.run_more rfl 1
  rw [r1, r2, r3, r4, r5, r6, h6.run_last hi]
  simp [storedState, SampleBytes.vec, afterRead, sampleEntries, sampleRegister, scaleOff, ← h.sample]

/-- After the last sample comes the finish. -/
theorem afterSample_of_last {i : Nat} {s : State} (h : s.sampleCount.toNat ≤ i + 1) :
    afterSample i s = { s with seq := .cal .finish (i + 1) 0 } := if_neg (Nat.not_lt.2 h)

/-- Before the last sample comes a pacing phase. -/
theorem afterSample_of_more {i : Nat} {s : State} (h : i + 1 < s.sampleCount.toNat) :
    afterSample i s = { s with seq := .cal .paceNext (i + 1) 0, ticks := 0 } := if_pos h

/-! ### A calibration of one sample (R177) -/

theorem ofBits_c2 : F64.ofBits Config.c2 = .fin false (2 * F64.one) := by decide +kernel

/-- Twice a value that a register can hold has a significand of its length. -/
theorem significand_double {u : Nat} (h : F64.Significand u) : F64.Significand (2 * u) := by
  obtain ⟨m, e, hm, rfl⟩ := h
  exact ⟨m, e + 1, hm, by rw [Nat.pow_succ', Nat.mul_left_comm]⟩

/-- A finite rounding is the rounded number of units. -/
theorem round_eq_of_finite {neg : Bool} {n d : Nat} (h : (F64.round neg n d).finite = true) :
    F64.round neg n d = .fin neg (F64.roundedUnits n d) := by
  rw [F64.round_eq] at h ⊢
  split_ifs at h ⊢
  · cases h
  · rfl

/-- The midpoint of a value and itself is the value, while its double does not overflow: both steps are exact. -/
theorem midpoint_self {x : Word} (hx : (F64.ofBits x).finite = true)
    (hxx : (F64.fadd (F64.ofBits x) (F64.ofBits x)).finite = true) : midpoint x x = F64.ofBits x := by
  have hvalid := F64.ofBits_valid x
  obtain ⟨neg, u, hu⟩ := finite_cases hx
  rw [hu] at hxx hvalid
  have hsig : F64.Representable u := by
    cases hvalid with
    | fin _ h => exact h
  have hsum : F64.fadd (.fin neg u) (.fin neg u) = F64.round neg (u + u) 1 := if_pos rfl
  have hdouble : F64.fadd (.fin neg u) (.fin neg u) = .fin neg (2 * u) := by
    have hexact : F64.roundedUnits (u + u) 1 = u + u := by
      have h := F64.roundedUnits_exact Nat.one_pos (significand_double hsig.1)
      rwa [Nat.mul_one, Nat.two_mul] at h
    rw [hsum] at hxx ⊢
    rw [round_eq_of_finite hxx, hexact, Nat.two_mul]
  have hpos : 0 < 2 * F64.one := Nat.mul_pos Nat.two_pos F64.units_pos
  have hhalf : F64.roundedUnits (2 * u * F64.one) (2 * F64.one) = u := by
    rw [Nat.mul_comm 2 u, Nat.mul_assoc]
    exact F64.roundedUnits_exact hpos hsig.1
  rw [midpoint, hu, hdouble, ofBits_c2, fdiv_fin' _ _ _ _ hpos.ne', Bool.xor_false]
  rcases F64.round_cases neg (n := 2 * u * F64.one) hpos with ⟨-, h⟩ | ⟨h, -⟩
  · rw [hhalf] at h
    exact absurd hsig.2 (Nat.not_lt.2 h)
  · rw [h, hhalf]

/-- A finite value less itself is +0, whatever its sign. -/
theorem deviation_self {z : Word} (hz : (F64.ofBits z).finite = true) : deviation z z = .fin false 0 := by
  obtain ⟨neg, u, hu⟩ := finite_cases hz
  have hdev : deviation z z = F64.addFinite neg u (!neg) u := by rw [deviation, hu]; rfl
  rw [hdev, F64.addFinite, if_neg (by simp), if_neg (Nat.lt_irrefl u), if_neg (Nat.lt_irrefl u)]

/-- A successful finish, by the values it writes. -/
theorem finishStep_of_eq {s : State} {x y z : Word} (hx : midpoint s.extrema.xmax s.extrema.xmin = F64.ofBits x)
    (hy : midpoint s.extrema.ymax s.extrema.ymin = F64.ofBits y) (hz : deviation s.extrema.zmax s.extrema.zmin = F64.ofBits z)
    (hfx : (F64.ofBits x).finite = true) (hfy : (F64.ofBits y).finite = true) (hfz : (F64.ofBits z).finite = true) :
    finishStep s = complete .ok { s with xOff := x, yOff := y, zDev := z } := by
  have hfin : s.ResultsFinite := ⟨by rw [hx, hfx], by rw [hy, hfy], by rw [hz, hfz]⟩
  rw [finishStep_of_finite hfin, hx, hy, hz, F64.toBits_ofBits, F64.toBits_ofBits, F64.toBits_ofBits]

/-- Settles O42: seven reads store the sample as both extremes of each axis, and the finish is exact on them. -/
theorem singleSampleCalibrationKeepsTheSample : Obligations.SingleSampleCalibrationKeepsTheSample := by
  intro s st xl xh yl yh zl zh rest hsch hq hp hsetup hn hmax hst ha x y z hx hy hz hxx hyy
  have hi : 0 < s.params.calMax.toNat := Nat.pos_of_ne_zero fun h0 => hmax (BitVec.eq_of_toNat_eq h0)
  have hlast : s.sampleCount.toNat ≤ 0 + 1 := by rw [hn]; decide
  have h0 : Attempting 0 .status (sampleAnswers st xl xh yl yh zl zh ++ rest) s := ⟨hsch, ⟨0, hq⟩, hp, ha⟩
  have hreads := (h0.run_sample hst hi).trans (congrArg _ (afterSample_of_last hlast))
  rw [run_append hreads 1]
  refine (run_one (step_finish ?schedule rfl)).trans ?finish
  case schedule => exact hsch
  exact congrArg _ (finishStep_of_eq (midpoint_self hx hxx) (midpoint_self hy hyy)
    ((deviation_self hz).trans ofBits_zero.symm) hx hy finite_ofBits_zero)

/-! ### A calibration of an always ready sensor (R161, R179) -/

theorem getLsbD_ready (st : Byte) : (st ||| 1).getLsbD 0 = true := by simp

theorem readyEntries_append (a b : List SampleBytes) : readyEntries (a ++ b) = readyEntries a ++ readyEntries b := by
  induction a with
  | nil => rfl
  | cons x a ih =>
    obtain ⟨st, xl, xh, yl, yh, zl, zh⟩ := x
    rw [List.cons_append, readyEntries, readyEntries, ih, List.append_assoc]

/-- The first `i` entries of a column hold the values `f` of the first samples. -/
def HoldsSamples (m : Memory) (i : Nat) (samples : List SampleBytes) (f : SampleBytes → Word) : Prop :=
  ∀ j (hj : j < samples.length), j < i → m.read j = f samples[j]

theorem HoldsSamples.store {m : Memory} {i : Nat} {samples : List SampleBytes} {f : SampleBytes → Word} (h : HoldsSamples m i samples f)
    (hm : m.wf = true) (hi : i < samples.length) : HoldsSamples (m.write i (f samples[i])) (i + 1) samples f := by
  intro j hj hlt
  rw [Memory.write_read i _ hm]
  split_ifs with hji
  · subst hji
    rfl
  · exact h j hj (by omega)

/-- A calibration that began in state `s₀` has collected the first `i` of the samples that its port answers. -/
structure Collected (samples : List SampleBytes) (rest : List PortAnswer) (s₀ : State) (i : Nat) (s : State) : Prop where
  schedule : s.schedule = []
  abortReq : s.status.abortReq = false
  sample : s.sample = .status
  params : s.params = s₀.params
  sampleCount : s.sampleCount = s₀.sampleCount
  xOff : s.xOff = s₀.xOff
  yOff : s.yOff = s₀.yOff
  zDev : s.zDev = s₀.zDev
  calN : 0 < i → s.calN = BitVec.ofNat 64 i
  answers : s.answers = readyAnswers (samples.drop i) ++ rest
  transcript : s.transcript = s₀.transcript ++ readyEntries (samples.take i)
  wfX : s.wx.wf = true
  wfY : s.wy.wf = true
  holdsX : HoldsSamples s.wx i samples fun b => (b.vec s₀).x
  holdsY : HoldsSamples s.wy i samples fun b => (b.vec s₀).y

/-- The vector depends on the scale and the offsets only, which stay. -/
theorem Collected.vec_eq {samples : List SampleBytes} {rest : List PortAnswer} {s₀ s : State} {i : Nat}
    (h : Collected samples rest s₀ i s) (b : SampleBytes) : b.vec s = b.vec s₀ := by
  rw [SampleBytes.vec, SampleBytes.vec, scaleOff, scaleOff, h.params, h.xOff, h.yOff]

/-- One more sample: the next one of the list is answered, read and stored. -/
theorem Collected.store {samples : List SampleBytes} {rest : List PortAnswer} {s₀ s : State} {i r : Nat}
    (h : Collected samples rest s₀ i s) (hq : s.seq = .cal .attempt i r) (hi : i < samples.length)
    (hmax : i < s₀.params.calMax.toNat) :
    ∃ u, s.Leads (afterSample i u) ∧ Collected samples rest s₀ (i + 1) u := by
  rcases hb : samples[i] with ⟨st, xl, xh, yl, yh, zl, zh⟩
  have hdrop : samples.drop i = (st, xl, xh, yl, yh, zl, zh) :: samples.drop (i + 1) := by
    rw [List.drop_eq_getElem_cons hi, hb]
  have hans : s.answers = sampleAnswers (st ||| 1) xl xh yl yh zl zh ++ (readyAnswers (samples.drop (i + 1)) ++ rest) := by
    rw [h.answers, hdrop, readyAnswers, List.append_assoc]
  have hatt : Attempting i .status _ s := ⟨h.schedule, ⟨r, hq⟩, h.sample, hans⟩
  have hrun := hatt.run_sample (getLsbD_ready st) (by rw [h.params]; exact hmax)
  refine ⟨_, ⟨7, hrun⟩, ?_⟩
  have hvec : SampleBytes.vec (st ||| 1, xl, xh, yl, yh, zl, zh) s = samples[i].vec s₀ := by
    rw [h.vec_eq, hb]
    rfl
  exact {
    schedule := h.schedule
    abortReq := h.abortReq
    sample := h.sample
    params := h.params
    sampleCount := h.sampleCount
    xOff := h.xOff
    yOff := h.yOff
    zDev := h.zDev
    calN := fun _ => rfl
    answers := rfl
    transcript := by
      have htake : samples.take (i + 1) = samples.take i ++ [(st, xl, xh, yl, yh, zl, zh)] := by
        rw [List.take_succ_eq_append_getElem hi, hb]
      rw [htake, readyEntries_append, ← List.append_assoc, ← h.transcript]
      exact congrArg _ (List.append_nil _).symm
    wfX := Memory.write_wf i _ h.wfX
    wfY := Memory.write_wf i _ h.wfY
    holdsX := by
      rw [storedState, hvec]
      exact h.holdsX.store h.wfX hi
    holdsY := by
      rw [storedState, hvec]
      exact h.holdsY.store h.wfY hi }

/-- From any attempt the samples that are left are collected, and the calibration comes to its finish. -/
theorem Collected.leads_finish {samples : List SampleBytes} {rest : List PortAnswer} {s₀ s : State} {i r : Nat}
    (hlen : samples.length = s₀.sampleCount.toNat) (hmax : samples.length ≤ s₀.params.calMax.toNat)
    (h : Collected samples rest s₀ i s) (hq : s.seq = .cal .attempt i r) (hi : i < samples.length) :
    ∃ t, s.Leads t ∧ t.seq = .cal .finish samples.length 0 ∧ Collected samples rest s₀ samples.length t := by
  induction hk : samples.length - (i + 1) generalizing s i r with
  | zero =>
    obtain ⟨u, hu, hc⟩ := h.store hq hi (hi.trans_le hmax)
    have hlast : samples.length = i + 1 := by omega
    rw [afterSample_of_last (by rw [hc.sampleCount, ← hlen]; omega), ← hlast] at hu
    rw [← hlast] at hc
    exact ⟨_, hu, rfl, { hc with }⟩
  | succ k ih =>
    obtain ⟨u, hu, hc⟩ := h.store hq hi (hi.trans_le hmax)
    have hmore : i + 1 < samples.length := by omega
    rw [afterSample_of_more (by rw [hc.sampleCount, ← hlen]; exact hmore)] at hu
    have hpace : State.PacesTo { u with seq := .cal .paceNext (i + 1) 0, ticks := 0 } (i + 1) 0 := .inl ⟨rfl, rfl⟩
    obtain ⟨n, hn⟩ := hpace.leads hc.schedule hc.abortReq
    obtain ⟨t, ht, hseq, hct⟩ := ih (s := { u with seq := .cal .attempt (i + 1) 0, ticks := n }) (r := 0) { hc with } rfl hmore
      (by omega)
    exact ⟨t, hu.trans (hn.trans ht), hseq, hct⟩

/-- Every run keeps the window's form and the accumulators' agreement with it (O53, O58). -/
theorem State.Leads.extremaAgree {s t : State} (h : s.Leads t) (hwf : s.WindowWf) (hs : s.ExtremaAgree) : t.ExtremaAgree :=
  (h.preserves (P := fun s => s.WindowWf ∧ s.ExtremaAgree)
    (fun s t hp hst => ⟨stepKeepsWindowForm s t hp.1 hst, stepKeepsExtremaOfTheWindow s t hp.1 hp.2 hst⟩) ⟨hwf, hs⟩).2

/-- Settles O43: the samples are collected one by one (`Collected`), and O58 makes the finish's accumulators the columns' extremes. -/
theorem readyCalibrationCollectsAllSamples : Obligations.ReadyCalibrationCollectsAllSamples := by
  intro s samples rest hsch hhost hq hp habort hwf hcount hlen ha
  obtain ⟨hpos, hmax⟩ := countLegal_bounds hcount
  rw [← hlen] at hpos hmax
  have hstart : Collected samples rest s 0 s := {
    schedule := hsch, abortReq := habort, sample := hp, params := rfl, sampleCount := rfl, xOff := rfl, yOff := rfl, zDev := rfl
    calN := fun h => absurd h (Nat.lt_irrefl 0)
    answers := ha
    transcript := (List.append_nil _).symm
    wfX := hwf.1
    wfY := hwf.2.1
    holdsX := fun _ _ h => absurd h (Nat.not_lt_zero _)
    holdsY := fun _ _ h => absurd h (Nat.not_lt_zero _) }
  obtain ⟨u, hu, hseq, hc⟩ := hstart.leads_finish hlen hmax hq hpos
  have hagree := (extremaAgree_iff u).1 (hu.extremaAgree hwf (by simp [State.ExtremaAgree, hq]))
  have hstored : u.samplesStored = samples.length := by rw [State.samplesStored, hseq]
  rw [hstored] at hagree
  obtain ⟨⟨hxmin, hxmax⟩, hymin, hymax⟩ := hagree hpos.ne'
  obtain ⟨k, hk⟩ := hu.trans (.of_step (step_finish hc.schedule hseq))
  have hcalN : u.calN.toNat = samples.length := by
    have hlt := s.sampleCount.isLt
    rw [hc.calN hpos, BitVec.toNat_ofNat, Nat.mod_eq_of_lt (by omega)]
  have htrans : u.transcript = s.transcript ++ readyEntries samples := by rw [hc.transcript, List.take_length]
  have hans : u.answers = rest := by rw [hc.answers, List.drop_length]; rfl
  have hwin : ∀ i (h : i < samples.length),
      u.wx.read i = (SampleBytes.vec samples[i] s).x ∧ u.wy.read i = (SampleBytes.vec samples[i] s).y :=
    fun i h => ⟨hc.holdsX i h h, hc.holdsY i h h⟩
  refine ⟨k, _, hk, ?_⟩
  rcases finishStep_spec u with h | ⟨-, -, -, h⟩ <;> rw [h]
  · exact ⟨rfl, hcalN, hans, htrans, hwin, .inr ⟨rfl, hc.xOff, hc.yOff, hc.zDev⟩⟩
  · refine ⟨rfl, hcalN, hans, htrans, hwin, .inl ⟨rfl, ?_, ?_⟩⟩
    · rw [hxmin, hxmax]
      rfl
    · rw [hymin, hymax]
      rfl

/-! ### A calibration of a sensor that is never ready (R178) -/

/-- What a calibration that stores no sample leaves alone. -/
def KeepsResults (s t : State) : Prop :=
  t.calN = s.calN ∧ t.wx = s.wx ∧ t.wy = s.wy ∧ t.extrema = s.extrema ∧ t.xOff = s.xOff ∧ t.yOff = s.yOff ∧ t.zDev = s.zDev

theorem KeepsResults.trans {s t u : State} (h : KeepsResults s t) (h' : KeepsResults t u) : KeepsResults s u := by
  obtain ⟨h1, h2, h3, h4, h5, h6, h7⟩ := h
  obtain ⟨g1, g2, g3, g4, g5, g6, g7⟩ := h'
  exact ⟨g1.trans h1, g2.trans h2, g3.trans h3, g4.trans h4, g5.trans h5, g6.trans h6, g7.trans h7⟩

/-- A calibration without a retry limit, alone and without an ABORT, is at a status read or paces to one; `answers` are to come. -/
structure AwaitsReady (answers : List PortAnswer) (s : State) : Prop where
  schedule : s.schedule = []
  place : ∃ i r, s.seq = .cal .attempt i r ∨ s.PacesTo i r
  sample : s.sample = .status
  abortReq : s.status.abortReq = false
  unlimited : s.params.calRetryLimit = 0
  answers : s.answers = answers

theorem AwaitsReady.seq_ne_idle {answers : List PortAnswer} {s : State} (h : AwaitsReady answers s) : s.seq ≠ .idle := by
  obtain ⟨i, r, hq | ⟨hq, -⟩ | hq⟩ := h.place <;> simp [hq]

/-- A step answers one status, which is not ready and is retried, or belongs to the wait. -/
theorem AwaitsReady.step {st : Byte} {rest : List PortAnswer} {s : State} (h : AwaitsReady (.byte st :: rest) s)
    (hst : st.getLsbD 0 = false) :
    ∃ t, step s = .next t ∧ (AwaitsReady rest t ∨ AwaitsReady (.byte st :: rest) t) ∧ KeepsResults s t := by
  obtain ⟨i, r, hq | hpace⟩ := h.place
  · have hatt : Attempting i .status (.byte st :: rest) s := ⟨h.schedule, ⟨r, hq⟩, h.sample, h.answers⟩
    have hstep := hatt.step_eq.trans
      (calibrateRetriesNotReady s _ i r st hq h.sample (drawAnswer_of_answers h.answers) hst)
    rw [if_neg fun hlimit => hlimit.1 h.unlimited] at hstep
    exact ⟨_, hstep, .inl ⟨h.schedule, ⟨i, r + 1, .inr (.inr rfl)⟩, h.sample, h.abortReq, h.unlimited, rfl⟩,
      rfl, rfl, rfl, rfl, rfl, rfl, rfl⟩
  · rcases Nat.lt_or_ge s.ticks s.interval.toNat with hwait | hover
    · exact ⟨_, hpace.step_wait h.schedule h.abortReq hwait,
        .inr ⟨h.schedule, ⟨i, r, .inr hpace⟩, h.sample, h.abortReq, h.unlimited, h.answers⟩,
        rfl, rfl, rfl, rfl, rfl, rfl, rfl⟩
    · exact ⟨_, hpace.step_over h.schedule h.abortReq hover,
        .inr ⟨h.schedule, ⟨i, r, .inl rfl⟩, h.sample, h.abortReq, h.unlimited, h.answers⟩,
        rfl, rfl, rfl, rfl, rfl, rfl, rfl⟩

/-- A run of as many steps as there are such answers is still waiting. -/
theorem AwaitsReady.run {statuses : List Byte} {rest : List PortAnswer} {s : State} {k : Nat}
    (h : AwaitsReady (statuses.map .byte ++ rest) s) (hst : ∀ st ∈ statuses, st.getLsbD 0 = false) (hk : k ≤ statuses.length) :
    ∃ t, core.run k s = .next t ∧ t.seq ≠ .idle ∧ KeepsResults s t := by
  induction k generalizing s statuses with
  | zero => exact ⟨s, rfl, h.seq_ne_idle, rfl, rfl, rfl, rfl, rfl, rfl, rfl⟩
  | succ k ih =>
    cases statuses with
    | nil => exact absurd hk (Nat.not_succ_le_zero k)
    | cons st statuses =>
      obtain ⟨u, hu, hnext, hkeep⟩ := AwaitsReady.step h (hst st List.mem_cons_self)
      have hrun : ∃ t, core.run k u = .next t ∧ t.seq ≠ .idle ∧ KeepsResults u t := by
        rcases hnext with hu | hu
        · exact ih hu (fun x hx => hst x (List.mem_cons_of_mem _ hx)) (Nat.le_of_succ_le_succ hk)
        · exact ih (statuses := st :: statuses) hu hst (Nat.le_of_succ_le hk)
      obtain ⟨t, ht, hne, hkeep'⟩ := hrun
      exact ⟨t, (run_succ hu).trans ht, hne, hkeep.trans hkeep'⟩

/-- Settles O44: each step consumes at most one of the answers. -/
theorem neverReadyCalibrationKeepsRunning : Obligations.NeverReadyCalibrationKeepsRunning := by
  intro s i r statuses rest k hsch hq hp habort hlimit hst ha hk
  exact AwaitsReady.run ⟨hsch, ⟨i, r, .inl hq⟩, hp, habort, hlimit, ha⟩ hst hk

end Sys2Proof.Machine
end
section
/-! PROOFS. The statements about the control commands NOP, SETUP and CLRERR (44_control.md), and about ABORT accepted while idle
(43_calibrator.md R172). -/

namespace Sys2Proof.Machine

/-! ### NOP, ABORT and CLRERR (R190, R172, R195) -/

theorem exec_nop (s : State) : exec .nop s = .next (complete .ok s) := rfl

theorem exec_abort (s : State) : exec .abort s = .next (complete .ok s) := rfl

/-- Settles O15: both commands are `complete(OK)` alone. -/
theorem nopAndIdleAbortOnlyComplete : Obligations.NopAndIdleAbortOnlyComplete := by
  rintro s i (rfl | rfl)
  · exact exec_nop s
  · exact exec_abort s

theorem exec_clrErr {s : State} {v : Bool} (h : (s.status.overrun && ownOverrunStays s) = v) :
    exec .clrErr s = .next (complete .ok { s with status := { s.status with overrun := v } }) := by
  subst h
  rfl

theorem accept_droppedInRun (w : Word) (s : State) : (accept w s).droppedInRun = false := by
  obtain ⟨q, d, n, t, c, h, -⟩ := accept_spec w s
  rw [h]

/-- Settles O16: an overrun stays only where a write was dropped in CLRERR's own run and the free value keeps it. -/
theorem clrErrClearsOverrun : Obligations.ClrErrClearsOverrun := by
  intro s
  refine ⟨fun hdrop => ?_, fun hover => ?_, fun hdrop hover => ?_, fun w => accept_droppedInRun w s⟩
  · exact exec_clrErr (s := s) (v := false) (by simp [ownOverrunStays, hdrop])
  · exact exec_clrErr (s := s) (v := false) (by simp [hover])
  · exact exec_clrErr (s := s) (v := Config.clrErrKeepsOwnOverrun) (by simp [ownOverrunStays, hdrop, hover])

/-! ### The writes of SETUP (R191, R193) -/

/-- The register and the byte of the write at each place of SETUP. -/
def SetupProgress.write : SetupProgress → Byte × Byte
  | .resetPeriod => (0x0B, 0x70)
  | .control2 => (0x0A, 0x20)
  | .control1 => (0x09, 0x1D)

/-- What SETUP does once the write at each place has succeeded. -/
def SetupProgress.afterWrite : SetupProgress → State → State
  | .resetPeriod, s => { s with setupNext := .control2 }
  | .control2, s => { s with setupNext := .control1 }
  | .control1, s => finishSetup s

theorem exec_setup (s : State) :
    exec .setup s = .next (setupWrite s.setupNext.write.1 s.setupNext.write.2 s.setupNext.afterWrite s) := by
  have hstep : exec .setup s = .next (setupStep s) := rfl
  rw [hstep, setupStep]
  cases s.setupNext <;> rfl

/-- A write that succeeds: its entry, then what follows its place. -/
theorem exec_setup_of_byte {s u : State} {b : Byte} {p : SetupProgress} (h : drawAnswer s = (.byte b, u)) (hp : s.setupNext = p) :
    exec .setup s = .next (p.afterWrite (appendTranscript (.writeOk p.write.1 p.write.2) u)) := by
  rw [exec_setup, hp, setupWrite, memWrite_of_draw h]
  rfl

/-- A write that fails: its entry, then TRANSPORT at its register. -/
theorem exec_setup_of_fail {s u : State} {c : Byte} {p : SetupProgress} (h : drawAnswer s = (.fail c, u)) (hp : s.setupNext = p) :
    exec .setup s = .next (raiseTransport c p.write.1 true (appendTranscript (.writeFail p.write.1 p.write.2 c) u)) := by
  rw [exec_setup, hp, setupWrite, memWrite_of_draw h]
  rfl

/-- Settles O18: at each of the three places, the place after it, or the completion. -/
theorem setupStepIssuesOneWrite : Obligations.SetupStepIssuesOneWrite := by
  intro s u b h
  exact ⟨fun hp => exec_setup_of_byte (p := .resetPeriod) h hp, fun hp => exec_setup_of_byte (p := .control2) h hp,
    fun hp => exec_setup_of_byte (p := .control1) h hp⟩

/-- Settles O19: whichever write fails, SETUP ends with its register (R193). -/
theorem setupFailureRecordsTheWrite : Obligations.SetupFailureRecordsTheWrite := by
  intro s u c h
  dsimp only
  cases hp : s.setupNext with
  | resetPeriod | control2 | control1 =>
    rw [exec_setup_of_fail h hp]
    rfl

/-! ### A run of SETUP (R191) -/

/-- SETUP runs alone, at place `p` of its writes, with answers `a` to come. -/
structure SettingUp (p : SetupProgress) (a : List PortAnswer) (s : State) : Prop where
  schedule : s.schedule = []
  seq : s.seq = .run (.legal .setup)
  setupNext : s.setupNext = p
  answers : s.answers = a

/-- The state once the write at place `p` has succeeded, with answers `rest` to come. -/
def afterSetupWrite (p : SetupProgress) (rest : List PortAnswer) (s : State) : State :=
  p.afterWrite (appendTranscript (.writeOk p.write.1 p.write.2) { s with answers := rest })

theorem SettingUp.step_of_byte {p : SetupProgress} {b : Byte} {rest : List PortAnswer} {s : State}
    (h : SettingUp p (.byte b :: rest) s) : step s = .next (afterSetupWrite p rest s) := by
  rw [step_run h.schedule h.seq, engineMove_of_legal (by rw [running, h.seq])]
  exact exec_setup_of_byte (drawAnswer_of_answers h.answers) h.setupNext

/-- A write that is not the last leaves SETUP running at the place after it. -/
theorem SettingUp.next {p q : SetupProgress} {x : PortAnswer} {rest : List PortAnswer} {s : State} (h : SettingUp p (x :: rest) s)
    (hq : ∀ t, p.afterWrite t = { t with setupNext := q }) : SettingUp q rest (afterSetupWrite p rest s) := by
  rw [afterSetupWrite, hq]
  exact ⟨h.schedule, h.seq, rfl, rfl⟩

/-- Settles O17: the step at each of the three places in turn. -/
theorem setupWritesTheSequence : Obligations.SetupWritesTheSequence := by
  intro s a b c rest hsch hseq hp ha
  have h1 : SettingUp .resetPeriod (.byte a :: .byte b :: .byte c :: rest) s := ⟨hsch, hseq, hp, ha⟩
  have h2 := h1.next (q := .control2) fun _ => rfl
  have h3 := h2.next (q := .control1) fun _ => rfl
  rw [run_succ (k := 2) h1.step_of_byte, run_succ (k := 1) h2.step_of_byte, run_one h3.step_of_byte]
  simp [afterSetupWrite, SetupProgress.afterWrite, SetupProgress.write, appendTranscript, finishSetup, complete]

end Sys2Proof.Machine
end

section
/-! PROOFS. The statement about safety (60_exceptions.md R205, R210): where a step can stop, and that no state which the calibrator's
rules reach is such a place. -/

namespace Sys2Proof.Machine

/-- An attempt at a sample the window has an entry for goes on, whatever the port answers (R164). -/
theorem attemptStep_next {s : State} {i : Nat} (r : Nat) (hi : i < s.params.calMax.toNat) : ∃ t, attemptStep i r s = .next t := by
  unfold attemptStep
  split
  · exact ⟨_, rfl⟩
  · exact ⟨_, rfl⟩
  · exact ⟨_, rfl⟩
  next v u hread =>
    obtain ⟨ans, ix, e, p, rfl, -, -⟩ := sampleStep_spec hread
    exact ⟨_, if_pos hi⟩

/-- The last read of an attempt stops where the window lacks the entry: the model's choice (notes/assumptions/11). -/
theorem attemptStep_of_last_outside {s u : State} {i : Nat} (r : Nat) {xl xh yl yh zl zh : Byte}
    (hp : s.sample = .zHigh xl xh yl yh zl) (h : drawAnswer s = (.byte zh, u)) (hi : s.params.calMax.toNat ≤ i) :
    attemptStep i r s = .fault .windowIndex := by
  have hu : ¬ i < u.params.calMax.toNat := by
    obtain ⟨ans, ix, rfl⟩ := drawAnswer_spec h
    exact Nat.not_lt.2 hi
  rw [attemptStep, sampleStep_of_last hp h]
  exact if_neg hu

/-- Only an attempt can stop a calibration. -/
theorem exec_calibrate_next {s : State} (h : ∀ i r, s.seq = .cal .attempt i r → i < s.params.calMax.toNat) :
    ∃ t, exec .calibrate s = .next t := by
  dsimp only [exec, execCalibrate]
  split
  next i r hq => exact attemptStep_next r (h i r hq)
  all_goals exact ⟨_, rfl⟩

/-- The attempt of a legal calibration is at an index below its count, which the acceptance has held to CAL_MAX (R162). -/
theorem State.CalibrationLegal.attempt_lt {s : State} (h : s.CalibrationLegal) {i r : Nat} (hq : s.seq = .cal .attempt i r) :
    i < s.params.calMax.toNat := by
  have hc := (phaseLegal_cal_iff hq).1 h.1
  have hi : i < s.sampleCount.toNat := hc.counts
  exact hi.trans_le (countLegal_bounds hc.count).2

/-- Every command but CALIBRATE has a next state from every state; CALIBRATE has one from a legal state. -/
theorem exec_next {s : State} (h : s.CalibrationLegal) (i : Instr) : ∃ t, exec i s = .next t := by
  cases i with
  | calibrate => exact exec_calibrate_next fun _ _ => h.attempt_lt
  | nop | decode | readAxes | setDecl | heading | abort | setup | clrErr => exact ⟨_, rfl⟩

theorem engineMove_next {s : State} (h : s.CalibrationLegal) : ∃ t, engineMove s = .next t := by
  unfold engineMove
  split
  · exact ⟨_, rfl⟩
  · exact ⟨_, rfl⟩
  next i _ => exact exec_next h i

/-- Only the engine's move can stop a step. -/
theorem safe_of_calibrationLegal {s : State} (h : s.CalibrationLegal) : Safe s := by
  obtain ⟨sch, hs⟩ := nextAgent_spec s
  unfold Safe step
  split
  next u hn =>
    obtain rfl : u = { s with schedule := sch } := by rw [← hs, hn]
    exact engineMove_next h
  all_goals exact ⟨_, rfl⟩

/-- Settles O49: a legal calibration stores below its count, and a store outside the window is the one stop. -/
theorem legalStatesNeverStop : Obligations.LegalStatesNeverStop := by
  refine ⟨fun s h => safe_of_calibrationLegal h, ?_⟩
  intro s u i r xl xh yl yh zl zh hq hp h hi
  rw [exec_calibrate_attempt hq]
  exact attemptStep_of_last_outside r hp h hi

end Sys2Proof.Machine
end

section
/-! PROOFS. The statements about resets, steps and the hazards between agents (70_reset_and_hazards.md): how soon a command completes,
what a step adds to the transcript, what a reset leaves, and what a tick and a POLL do. -/

namespace Sys2Proof.Machine

/-! ### Commands complete within their bound (R246) -/

/-- The writes of SETUP that are still to come at a place (R191: three in all). -/
def SetupProgress.writesLeft : SetupProgress → Nat
  | .resetPeriod => 3
  | .control2 => 2
  | .control1 => 1

/-- The most engine steps that command `c` has still to make from `s` (R246); CALIBRATE has no such bound. -/
def stepsLeft (c : Command) (s : State) : Nat :=
  match c with
  | .legal .readAxes => s.sample.readsLeft
  | .legal .setup => s.setupNext.writesLeft
  | _ => 1

theorem stepsLeft_pos (c : Command) (s : State) : 0 < stepsLeft c s := by
  unfold stepsLeft
  split
  · exact s.sample.readsLeft_pos
  · cases s.setupNext <;> decide
  · exact Nat.one_pos

/-- The command that ran is over: the engine is idle and BUSY is 0. -/
def State.Completed (s : State) : Prop := s.seq = .idle ∧ s.status.busy = false

theorem complete_completed (e : ErrCode) (s : State) : (complete e s).Completed := ⟨rfl, rfl⟩

/-- A step from `s` to `t` ends command `c`, or `c` runs on with fewer steps to make. -/
def Advances (c : Command) (s t : State) : Prop :=
  t.Completed ∨ (t.schedule = s.schedule ∧ t.seq = s.seq ∧ stepsLeft c t < stepsLeft c s)

/-- A step of READ_AXES is a read that goes on (O23), or one that ends it: a failure, a sensor not ready, or the last byte. -/
theorem exec_readAxes_advances (s : State) : ∃ t, exec .readAxes s = .next t ∧ Advances (.legal .readAxes) s t := by
  cases hd : drawAnswer s with
  | mk a u =>
    cases a with
    | fail c => exact ⟨_, readAxesFailureKeepsTheVector s u c hd, .inl ⟨rfl, rfl⟩⟩
    | byte b =>
      cases hq : s.sample.after b with
      | some q =>
        refine ⟨_, exec_of_more hd (.inl rfl) hq, .inr ?_⟩
        obtain ⟨ans, ix, rfl⟩ := drawAnswer_spec hd
        exact ⟨rfl, rfl, Nat.lt_of_succ_le (SampleProgress.readsLeft_after hq).ge⟩
      | none =>
        rcases SampleProgress.after_eq_none hq with ⟨hp, hb⟩ | ⟨xl, xh, yl, yh, zl, hp⟩
        · exact ⟨_, notReadyEndsReadAxes s u b hp hd hb, .inl ⟨rfl, rfl⟩⟩
        · exact ⟨_, lastReadWritesTheVector s u xl xh yl yh zl b hp hd, .inl ⟨rfl, rfl⟩⟩

/-- A step of SETUP is a write that fails, the last write, or one that goes on to the next place (O18, O19). -/
theorem exec_setup_advances (s : State) : ∃ t, exec .setup s = .next t ∧ Advances (.legal .setup) s t := by
  cases hd : drawAnswer s with
  | mk a u =>
    cases a with
    | fail c => exact ⟨_, exec_setup_of_fail hd rfl, .inl ⟨rfl, rfl⟩⟩
    | byte b =>
      refine ⟨_, exec_setup_of_byte hd rfl, ?_⟩
      obtain ⟨ans, ix, rfl⟩ := drawAnswer_spec hd
      cases hp : s.setupNext with
      | control1 => exact .inl ⟨rfl, rfl⟩
      | resetPeriod | control2 =>
        refine .inr ⟨rfl, rfl, ?_⟩
        simp [stepsLeft, hp, SetupProgress.afterWrite, SetupProgress.writesLeft]

/-- No command but CALIBRATE can stop. -/
theorem exec_next_of_ne_calibrate {i : Instr} (hi : i ≠ .calibrate) (s : State) : ∃ t, exec i s = .next t := by
  cases i with
  | calibrate => exact absurd rfl hi
  | nop | decode | readAxes | setDecl | heading | abort | setup | clrErr => exact ⟨_, rfl⟩

/-- Every command but CALIBRATE advances with each of its engine steps. -/
theorem exec_advances {i : Instr} (hi : i ≠ .calibrate) (s : State) : ∃ t, exec i s = .next t ∧ Advances (.legal i) s t := by
  by_cases hread : i = .readAxes
  · subst hread
    exact exec_readAxes_advances s
  by_cases hsetup : i = .setup
  · subst hsetup
    exact exec_setup_advances s
  obtain ⟨t, ht⟩ := exec_next_of_ne_calibrate hi s
  obtain ⟨e, u, rfl⟩ := exec_completes hread hi hsetup ht
  exact ⟨_, ht, .inl (complete_completed e u)⟩

/-- With nothing scheduled, the next step is the running command's, and advances it. -/
theorem step_advances {s : State} {c : Command} (hc : c ≠ .legal .calibrate) (hsch : s.schedule = []) (hq : s.seq = .run c) :
    ∃ t, step s = .next t ∧ Advances c s t := by
  have hr : running s = some c := by rw [running, hq]
  rw [step_run hsch hq]
  cases c with
  | illegal => exact ⟨_, engineMove_of_illegal hr, .inl (complete_completed _ s)⟩
  | legal i =>
    rw [engineMove_of_legal hr]
    exact exec_advances (fun hi => hc (congrArg Command.legal hi)) s

/-- Each step advances the command, so it completes within the steps it has left. -/
theorem run_completes {c : Command} (hc : c ≠ .legal .calibrate) {n : Nat} {s : State} (hsch : s.schedule = [])
    (hq : s.seq = .run c) (hn : stepsLeft c s ≤ n) : ∃ k t, k ≤ n ∧ 1 ≤ k ∧ core.run k s = .next t ∧ t.Completed := by
  induction n generalizing s with
  | zero => exact absurd hn (Nat.not_le.2 (stepsLeft_pos c s))
  | succ n ih =>
    obtain ⟨u, hu, hend | ⟨husch, huq, hlt⟩⟩ := step_advances hc hsch hq
    · exact ⟨1, u, Nat.succ_pos n, Nat.le_refl 1, run_one hu, hend⟩
    · obtain ⟨k, t, hk, -, hrun, hend⟩ := ih (husch.trans hsch) (huq.trans hq) (Nat.le_of_lt_succ (hlt.trans_le hn))
      exact ⟨k + 1, t, Nat.succ_le_succ hk, Nat.succ_pos k, (run_succ hu).trans hrun, hend⟩

/-- Settles O48: at the command's first place the steps left are its bound. -/
theorem commandsCompleteWithinTheirBound : Obligations.CommandsCompleteWithinTheirBound := by
  intro s c hsch hq hc hsample hsetup
  refine run_completes hc hsch hq ?_
  cases c with
  | illegal => exact Nat.le_refl 1
  | legal i =>
    cases i with
    | readAxes => exact (congrArg SampleProgress.readsLeft hsample).le
    | setup => exact (congrArg SetupProgress.writesLeft hsetup).le
    | calibrate => exact absurd rfl hc
    | nop | decode | setDecl | heading | abort | clrErr => exact Nat.le_refl 1

/-! ### What a step adds to the transcript (R236, R56) -/

/-- Settles O50, by what a step can do to the transcript. -/
theorem transcriptGrowsByOneEngineTransaction : Obligations.TranscriptGrowsByOneEngineTransaction := by
  intro s t h
  rcases step_transcript h with hreset | hsame | ⟨hengine, e, -, hadd⟩
  · exact .inl hreset
  · exact .inr (.inl hsame)
  · exact .inr (.inr ⟨hengine, e, hadd⟩)

/-! ### Reset (R230, R233) -/

theorem step_of_reset {s : State} {rest : List Agent} (h : s.schedule = .reset :: rest) :
    step s = .next (resetMove { s with schedule := rest }) := by
  simp [step, nextAgent, h]

theorem Status.word_reset : Status.reset.word = 0 := by decide

/-- After a reset only SCALE and INFO, which read parameters, read other than 0 (R20). -/
theorem hostRead_resetMove (addr : Byte) (s : State) :
    hostRead addr (resetMove s) = if addr = 0x88 ∨ addr = 0x90 then hostRead addr s else 0 := by
  have hstatus : (resetMove s).status.word = 0 := Status.word_reset
  have hview (m : Memory) : windowView m (resetMove s) = 0 := windowView_beyond (s := resetMove s) (Nat.le_refl 0) m
  split
  next h => rcases h with rfl | rfl <;> rfl
  next h =>
    obtain ⟨hscale, hinfo⟩ := not_or.1 h
    simp only [hostRead, hstatus, hview, hscale, hinfo, if_false]
    simp [resetMove, State.resetWith]

/-- Settles O45, by the state that a reset leaves. -/
theorem resetLeavesTheSpecValues : Obligations.ResetLeavesTheSpecValues := by
  refine ⟨fun s rest hs => ?_, rfl, rfl, rfl, rfl⟩
  exact ⟨_, step_of_reset hs, fun addr => hostRead_resetMove addr _, rfl, fun _ => ⟨rfl, rfl⟩, rfl, rfl, rfl, rfl⟩

/-- Settles O46, invariant by invariant. -/
theorem resetMeetsTheInvariants : Obligations.ResetMeetsTheInvariants := by
  intro s t
  obtain ⟨hstatus, hprogress⟩ := resetMove_transientsAgree s
  have hwindow : t.WindowWf := ⟨rfl, rfl, rfl, rfl⟩
  have hcal : t.CalibrationLegal := ⟨rfl, Nat.zero_le _⟩
  have hfinite : t.CalibrationFinite := ⟨finite_ofBits_zero, finite_ofBits_zero, finite_ofBits_zero, finite_ofBits_zero⟩
  have hsamples : t.SamplesClean := ⟨rfl, rfl, rfl⟩
  have hdev : t.DeviationNonneg := ⟨finite_ofBits_zero, BitVec.msb_zero⟩
  exact ⟨hstatus, hwindow, hcal, hprogress, hfinite, hsamples, hdev, rfl, resetMove_resultsLegal s, rfl⟩

/-! ### Ticks and polls (R245, R81) -/

theorem step_of_timebase {s : State} {rest : List Agent} (h : s.schedule = .timebase :: rest) :
    step s = .next (tickMove { s with schedule := rest }) := by
  simp [step, nextAgent, h]

theorem step_of_host {s : State} {rest : List Agent} (h : s.schedule = .host :: rest) :
    step s = .next (hostMove { s with schedule := rest }) := by
  simp [step, nextAgent, h]

/-- POLL reads STATUS and stays pending while BUSY, which is bit 0 (R22, R81). -/
theorem hostMove_of_poll {s : State} {lines : List HostLine} (h : s.host = .poll :: lines) :
    hostMove s = { s with host := if s.status.busy = true then .poll :: lines else lines, readData := s.status.word } := by
  have hread : hostRead 0x08 s = s.status.word := rfl
  obtain ⟨hbusy, -⟩ := s.status.word_flags
  simp only [hostMove, h, hread, hbusy]

/-- Settles O47: the tick by the two cases of `tickMove`, the POLL by the host's move. -/
theorem ticksCountAndPollsRepeat : Obligations.TicksCountAndPollsRepeat := by
  refine ⟨fun s rest hs => ?_, fun s lines rest hs hl => ?_⟩
  · have hpacing : pacing { s with schedule := rest } = pacing s := rfl
    rw [step_of_timebase hs, tickMove, hpacing]
    split <;> rfl
  · rw [step_of_host hs, hostMove_of_poll (s := { s with schedule := rest }) hl]

end Sys2Proof.Machine
end
